-- ==== Sys2Proof/Word.lean ====
section
/-! DEFINITION. The word types of LBFIFO (00_scope.md R9, 30_encoding.md R81 and R85, 20_memory.md R68). -/

namespace Sys2Proof

/-- One storage element (20_memory.md R60, R68). -/
abbrev Byte := BitVec 8

/-- A command word, a result word or a running total (30_encoding.md R81 and R85, 10_state.md R27 to R29). -/
abbrev Word := BitVec 32

/-- A pointer register or its Gray image (10_state.md R23 to R25). The spec's width is PW_f = AW_f + 1, which
depends on the capacity and is at most 16; a pointer holds its PW_f bits at the low end, and every update is
reduced modulo 2^PW_f (20_memory.md R61). -/
abbrev Ptr := BitVec 16

/-- A 16-bit count: SIZE, `fg_acc`, `fg_rem`, `txSize`, `rx_total` (00_scope.md R7, 10_state.md R26, R37, R38). -/
abbrev Count := BitVec 16

end Sys2Proof
end

