-- ==== Sys2Proof/Syntax.lean ====
section
/-! DEFINITION. The commands of LBFIFO: one constructor for each row of spec/opcode_table.json (30_encoding.md R86
to R88). A constructor carries the fields its row uses; the fields a row ignores (R83) are no operands. -/

namespace Sys2Proof

/-- The 15 legal commands and the 8 illegal rows of the opcode table. Every 32-bit word is exactly one of them
(30_encoding.md R88). -/
inductive Instr where
  /-- 44_line_state_ctrl.md R201. -/
  | nop
  /-- 42_receive.md R151. -/
  | avail
  /-- 41_transmit.md R129. -/
  | availw
  /-- 42_receive.md R152. -/
  | peek
  /-- 42_receive.md R153. -/
  | read
  /-- 42_receive.md R154; SIZE. -/
  | readb (size : Count)
  /-- 41_transmit.md R121; CTX and DATA. -/
  | write1 (ctx : Bool) (data : Byte)
  /-- 41_transmit.md R123 to R126; CTX, SIZE and the whole source list, an operand of length SIZE (30_encoding.md
  R80). -/
  | writeb (ctx : Bool) (size : Count) (source : List Byte)
  /-- 41_transmit.md R136; CTX. -/
  | flush (ctx : Bool)
  /-- 41_transmit.md R135. -/
  | done
  /-- 44_line_state_ctrl.md R202. -/
  | connected
  /-- 44_line_state_ctrl.md R203. -/
  | baud
  /-- 44_line_state_ctrl.md R204. -/
  | linefmt
  /-- 44_line_state_ctrl.md R205. -/
  | getctrl
  /-- 44_line_state_ctrl.md R206; DATA. -/
  | setctrl (data : Byte)
  /-- OP = 0xF with RSV = 000 (30_encoding.md R87, 44_line_state_ctrl.md R207). -/
  | illegalOp
  /-- RSV = 001 (R87, R207). -/
  | illegalRsv1
  /-- RSV = 010 (R87, R207). -/
  | illegalRsv2
  /-- RSV = 011 (R87, R207). -/
  | illegalRsv3
  /-- RSV = 100 (R87, R207). -/
  | illegalRsv4
  /-- RSV = 101 (R87, R207). -/
  | illegalRsv5
  /-- RSV = 110 (R87, R207). -/
  | illegalRsv6
  /-- RSV = 111 (R87, R207). -/
  | illegalRsv7
deriving DecidableEq, Repr

end Sys2Proof
end

