-- ==== Sys2Proof/Config.lean ====
section
/-! DEFINITION. What an implementation of LBFIFO fixes (00_scope.md R7, R8), the data of the external agents' moves
(60_exceptions.md R250 to R254), and the free values. -/

namespace Sys2Proof

/-- The two FIFOs (00_scope.md R11). -/
inductive Fifo where
  /-- Filled by EV, drained by FG. -/
  | rx
  /-- Filled by FG, drained by EV. -/
  | tx
deriving DecidableEq, Repr

/-- The implementation parameters of 00_scope.md R7, with DEV's parameter of R8. AW_f and PW_f are computed;
SYNC_STAGES, ACC_W and SIZE_W are fixed at 2, 32 and 16 and are the shapes of `Sync2`, `Word` and `Count`. -/
structure Params where
  /-- CAP_RX, the RX ring capacity in bytes. -/
  capRx : Nat
  /-- CAP_TX, the TX ring capacity in bytes. -/
  capTx : Nat
  /-- MPS, the device's maximum packet size in bytes. -/
  mps : Nat
  /-- CEIL, the packet-size ceiling in bytes. -/
  ceil : Nat
  /-- DEV_RX_RETAIN, an argument of the agent DEV that no rule of the block reads (R8; log 15). -/
  devRxRetain : Bool
deriving DecidableEq, Repr

/-- The default values of 00_scope.md R7; DEV_RX_RETAIN has none there (DESIGN CHOICE, log 4). -/
def Params.default : Params :=
  { capRx := 64, capTx := 64, mps := 64, ceil := 63, devRxRetain := true }

/-- CAP_f. -/
def Params.cap (p : Params) : Fifo → Nat
  | .rx => p.capRx
  | .tx => p.capTx

/-- AW_f = log2(CAP_f), the index width (00_scope.md R7). -/
def Params.aw (p : Params) (f : Fifo) : Nat := Nat.log2 (p.cap f)

/-- PW_f = AW_f + 1, the pointer width (00_scope.md R7). -/
def Params.pw (p : Params) (f : Fifo) : Nat := p.aw f + 1

/-- The line state DEV reports (10_state.md R40) and the shadow that mirrors it (R36); also the copy mask of one
LINE_SYNC, one bit for each bit of the shadow (44_line_state_ctrl.md R208). -/
structure LineState where
  /-- `dev_connected`, `conn_sh`. -/
  connected : Bool
  /-- `dev_ctl`, `ctl_sh`: bit 0 DTR, bit 1 RTS. -/
  ctl : BitVec 2
  /-- `dev_baud`, `baud_sh`. -/
  baud : Word
  /-- `dev_databits`, `databits_sh`. -/
  databits : Byte
  /-- `dev_parity`, `parity_sh`. -/
  parity : Byte
  /-- `dev_stopbits`, `stopbits_sh`. -/
  stopbits : Byte
deriving DecidableEq, Repr, Inhabited

/-- Every bit 0. -/
def LineState.zero : LineState :=
  { connected := false, ctl := 0, baud := 0, databits := 0, parity := 0, stopbits := 0 }

/-- The DEV signals the block reads (10_state.md R40). -/
structure DevSignals where
  /-- `dev_state`: 00 uninitialized, 01 enabling, 10 ready, 11 suspended. -/
  state : BitVec 2
  /-- `dev_done`. -/
  done : Bool
  /-- `dev_connected`, `dev_ctl`, `dev_baud` and the line coding. -/
  line : LineState
deriving DecidableEq, Repr, Inhabited

/-- DEV's signals at reset. The launch state chooses them (10_state.md R42); here all are 0 (DESIGN CHOICE, log 5). -/
def DevSignals.zero : DevSignals := { state := 0, done := false, line := LineState.zero }

/-- What the host presents on the FG port: the word, and the bytes it lines up on `fg_wdata` (30_encoding.md R80). -/
structure HostCmd where
  /-- `fg_cmd`. -/
  word : Word
  /-- The `fg_wdata` bytes, first byte first. -/
  data : List Byte
deriving DecidableEq, Repr, Inhabited

/-- One atomic step of the model (00_scope.md R11), with the draws that belong to it. -/
inductive Move where
  /-- An FG edge: what the host newly presents at it (60_exceptions.md R255), and the bits LINE_SYNC copies (R208). -/
  | fgEdge (present : Option HostCmd) (copy : LineState)
  /-- An EV edge: the bytes DEV would deliver to a receive request made at it (42_receive.md R155). -/
  | evEdge (answer : List Byte)
  /-- A DEV step: DEV's new output signals, and the event it newly presents (60_exceptions.md R254). -/
  | devStep (signals : DevSignals) (event : Option (BitVec 2))
deriving DecidableEq, Repr, Inhabited

/-- FREE VALUE. The n-th move of the agents when none is lined up: which agent moves, and its draws. Nothing is
known of it, so a claim about it holds for every interleaving (60_exceptions.md R255; log 1, log 2). -/
opaque Config.freeMove : Nat → Move

/-- FREE VALUE. The k-th byte of the host's write-data stream that the model's data does not list, at the n-th move
(60_exceptions.md R251: the host supplies each byte when asked; log 21). -/
opaque Config.freeSource : Nat → Nat → Byte

/-- FREE VALUE. The open parameter LBFIFO_BASE, unused by every rule (20_memory.md R71). -/
opaque Config.lbfifoBase : Nat

end Sys2Proof
end

