-- ==== Sys2Proof/WellFormed.lean ====
section
/-! DEFINITION. Well-formed commands and legal parameters. -/

namespace Sys2Proof

/-- A command is well formed when its operands fit: the types fix every width, and what is left to check is the
source list of WRITEB, which has exactly SIZE bytes (30_encoding.md R80, R93). -/
def Instr.wellFormed : Instr → Bool
  | .nop => true
  | .avail => true
  | .availw => true
  | .peek => true
  | .read => true
  | .readb _ => true
  | .write1 _ _ => true
  | .writeb _ size source => source.length == size.toNat
  | .flush _ => true
  | .done => true
  | .connected => true
  | .baud => true
  | .linefmt => true
  | .getctrl => true
  | .setctrl _ => true
  | .illegalOp => true
  | .illegalRsv1 => true
  | .illegalRsv2 => true
  | .illegalRsv3 => true
  | .illegalRsv4 => true
  | .illegalRsv5 => true
  | .illegalRsv6 => true
  | .illegalRsv7 => true

/-- A legal capacity: a power of two from 2 to 32768 (00_scope.md R7). -/
def legalCapacity (c : Nat) : Bool :=
  decide (2 ≤ c) && decide (c ≤ 32768) && (2 ^ Nat.log2 c == c)

/-- A legal ceiling: 1 ≤ CEIL ≤ MPS − 1 (00_scope.md R7, 41_transmit.md R137). MPS ≥ 2 follows. -/
def legalCeiling (mps ceil : Nat) : Bool :=
  decide (1 ≤ ceil) && decide (ceil < mps)

/-- The parameters the block takes: outside them a configuration is refused (60_exceptions.md R258). -/
def Params.legal (p : Params) : Bool :=
  legalCapacity p.capRx && legalCapacity p.capTx && legalCeiling p.mps p.ceil

end Sys2Proof
end

