-- ==== Sys2Proof/Decode.lean ====
section
/-! DEFINITION. Decoding and encoding of the 32-bit command word (30_encoding.md R81 to R88, R93). The word is one
parallel bus, so no byte order arises (20_memory.md R68); the source bytes of WRITEB come on `fg_wdata`. -/

namespace Sys2Proof

/-! ## The fields of CMD32 (R81) -/

/-- OP, bits 31:28. -/
def cmdOp (w : Word) : BitVec 4 := w.extractLsb' 28 4

/-- CTX, bit 27. -/
def cmdCtx (w : Word) : Bool := w.getLsbD 27

/-- RSV, bits 26:24. -/
def cmdRsv (w : Word) : BitVec 3 := w.extractLsb' 24 3

/-- `data8`, bits 23:16 (R83). -/
def cmdData (w : Word) : Byte := w.extractLsb' 16 8

/-- `size16`, bits 15:0 (R83). -/
def cmdSize (w : Word) : Count := w.extractLsb' 0 16

/-! ## Decoding (R88) -/

/-- Why a word with its write data is no command. Every word decodes (R88); only a WRITEB whose source bytes are
missing does not, a thing no host does (60_exceptions.md R251). -/
inductive DecodeError where
  /-- The write data holds fewer bytes than SIZE. -/
  | sourceShort
deriving DecidableEq, Repr

/-- Dispatch on OP once RSV is 000 (R86, R88 steps 2 and 3). -/
def decodeOp (w : Word) (data : List Byte) : Except DecodeError Instr :=
  match (cmdOp w).toNat with
  | 0 => .ok .nop
  | 1 => .ok .avail
  | 2 => .ok .availw
  | 3 => .ok .peek
  | 4 => .ok .read
  | 5 => .ok (.readb (cmdSize w))
  | 6 => .ok (.write1 (cmdCtx w) (cmdData w))
  | 7 =>
    if (cmdSize w).toNat ≤ data.length then
      .ok (.writeb (cmdCtx w) (cmdSize w) (data.take (cmdSize w).toNat))
    else
      .error .sourceShort
  | 8 => .ok (.flush (cmdCtx w))
  | 9 => .ok .done
  | 10 => .ok .connected
  | 11 => .ok .baud
  | 12 => .ok .linefmt
  | 13 => .ok .getctrl
  | 14 => .ok (.setctrl (cmdData w))
  | _ => .ok .illegalOp

/-- The command a word stands for, with the source bytes that follow on `fg_wdata`: RSV is looked at first (R88 step
1). The last case of each match is the one value left (RSV = 111, OP = 0xF). -/
def decode (w : Word) (data : List Byte) : Except DecodeError Instr :=
  match (cmdRsv w).toNat with
  | 0 => decodeOp w data
  | 1 => .ok .illegalRsv1
  | 2 => .ok .illegalRsv2
  | 3 => .ok .illegalRsv3
  | 4 => .ok .illegalRsv4
  | 5 => .ok .illegalRsv5
  | 6 => .ok .illegalRsv6
  | _ => .ok .illegalRsv7

/-- How many source bytes a word asks for on `fg_wdata`: SIZE for a legal WRITEB, none otherwise. An illegal word
with OP = 0x7 takes none (44_line_state_ctrl.md R207), and WRITE1 carries its byte in the word (41_transmit.md
R121). -/
def sourceLength (w : Word) : Nat :=
  if cmdRsv w = 0 ∧ cmdOp w = 7 then (cmdSize w).toNat else 0

/-! ## Encoding (R81, R93) -/

/-- The word with the given fields, `{OP, CTX, RSV, DATA, SIZE}`. -/
def cmdWord (op : BitVec 4) (ctx : Bool) (rsv : BitVec 3) (data : Byte) (size : Count) : Word :=
  op ++ BitVec.ofBool ctx ++ rsv ++ data ++ size

/-- The word of a command, ignored fields 0 (R93). An illegal row is written with OP = 0xF or with its RSV value and
every other bit 0, as its row of the table matches. -/
def encodeWord : Instr → Word
  | .nop => cmdWord 0x0 false 0 0 0
  | .avail => cmdWord 0x1 false 0 0 0
  | .availw => cmdWord 0x2 false 0 0 0
  | .peek => cmdWord 0x3 false 0 0 0
  | .read => cmdWord 0x4 false 0 0 0
  | .readb size => cmdWord 0x5 false 0 0 size
  | .write1 ctx data => cmdWord 0x6 ctx 0 data 0
  | .writeb ctx size _ => cmdWord 0x7 ctx 0 0 size
  | .flush ctx => cmdWord 0x8 ctx 0 0 0
  | .done => cmdWord 0x9 false 0 0 0
  | .connected => cmdWord 0xA false 0 0 0
  | .baud => cmdWord 0xB false 0 0 0
  | .linefmt => cmdWord 0xC false 0 0 0
  | .getctrl => cmdWord 0xD false 0 0 0
  | .setctrl data => cmdWord 0xE false 0 data 0
  | .illegalOp => cmdWord 0xF false 0 0 0
  | .illegalRsv1 => cmdWord 0 false 1 0 0
  | .illegalRsv2 => cmdWord 0 false 2 0 0
  | .illegalRsv3 => cmdWord 0 false 3 0 0
  | .illegalRsv4 => cmdWord 0 false 4 0 0
  | .illegalRsv5 => cmdWord 0 false 5 0 0
  | .illegalRsv6 => cmdWord 0 false 6 0 0
  | .illegalRsv7 => cmdWord 0 false 7 0 0

/-- The source bytes a command carries on `fg_wdata`. -/
def encodeSource : Instr → List Byte
  | .writeb _ _ source => source
  | .nop | .avail | .availw | .peek | .read | .readb _ | .write1 _ _ | .flush _ | .done => []
  | .connected | .baud | .linefmt | .getctrl | .setctrl _ => []
  | .illegalOp | .illegalRsv1 | .illegalRsv2 | .illegalRsv3 | .illegalRsv4 | .illegalRsv5 | .illegalRsv6 => []
  | .illegalRsv7 => []

/-- The word of a command and its write data. -/
def encode (i : Instr) : Word × List Byte := (encodeWord i, encodeSource i)

/-! ## The opcode table (R88) -/

/-- One row of spec/opcode_table.json: a word `w` is the row's when `w &&& mask = value`. -/
structure TableRow where
  /-- The row's `mask`. -/
  mask : Word
  /-- The row's `match`. -/
  value : Word
deriving DecidableEq, Repr

/-- The row matches the word. -/
def TableRow.fits (r : TableRow) (w : Word) : Bool := w &&& r.mask == r.value

/-- The table row of a command. -/
def Instr.row : Instr → TableRow
  | .nop => ⟨0xF7000000, 0x00000000⟩
  | .avail => ⟨0xF7000000, 0x10000000⟩
  | .availw => ⟨0xF7000000, 0x20000000⟩
  | .peek => ⟨0xF7000000, 0x30000000⟩
  | .read => ⟨0xF7000000, 0x40000000⟩
  | .readb _ => ⟨0xF7000000, 0x50000000⟩
  | .write1 _ _ => ⟨0xF7000000, 0x60000000⟩
  | .writeb _ _ _ => ⟨0xF7000000, 0x70000000⟩
  | .flush _ => ⟨0xF7000000, 0x80000000⟩
  | .done => ⟨0xF7000000, 0x90000000⟩
  | .connected => ⟨0xF7000000, 0xA0000000⟩
  | .baud => ⟨0xF7000000, 0xB0000000⟩
  | .linefmt => ⟨0xF7000000, 0xC0000000⟩
  | .getctrl => ⟨0xF7000000, 0xD0000000⟩
  | .setctrl _ => ⟨0xF7000000, 0xE0000000⟩
  | .illegalOp => ⟨0xF7000000, 0xF0000000⟩
  | .illegalRsv1 => ⟨0x07000000, 0x01000000⟩
  | .illegalRsv2 => ⟨0x07000000, 0x02000000⟩
  | .illegalRsv3 => ⟨0x07000000, 0x03000000⟩
  | .illegalRsv4 => ⟨0x07000000, 0x04000000⟩
  | .illegalRsv5 => ⟨0x07000000, 0x05000000⟩
  | .illegalRsv6 => ⟨0x07000000, 0x06000000⟩
  | .illegalRsv7 => ⟨0x07000000, 0x07000000⟩

/-- The 23 rows of spec/opcode_table.json, in its order. -/
def opcodeTable : List TableRow :=
  [⟨0xF7000000, 0x00000000⟩, ⟨0xF7000000, 0x10000000⟩, ⟨0xF7000000, 0x20000000⟩, ⟨0xF7000000, 0x30000000⟩,
   ⟨0xF7000000, 0x40000000⟩, ⟨0xF7000000, 0x50000000⟩, ⟨0xF7000000, 0x60000000⟩, ⟨0xF7000000, 0x70000000⟩,
   ⟨0xF7000000, 0x80000000⟩, ⟨0xF7000000, 0x90000000⟩, ⟨0xF7000000, 0xA0000000⟩, ⟨0xF7000000, 0xB0000000⟩,
   ⟨0xF7000000, 0xC0000000⟩, ⟨0xF7000000, 0xD0000000⟩, ⟨0xF7000000, 0xE0000000⟩, ⟨0xF7000000, 0xF0000000⟩,
   ⟨0x07000000, 0x01000000⟩, ⟨0x07000000, 0x02000000⟩, ⟨0x07000000, 0x03000000⟩, ⟨0x07000000, 0x04000000⟩,
   ⟨0x07000000, 0x05000000⟩, ⟨0x07000000, 0x06000000⟩, ⟨0x07000000, 0x07000000⟩]

/-- The bits of a word that a command's row fixes or reads; the other bits are ignored (R83, and the table's field
lists). -/
def Instr.usedBits : Instr → Word
  | .readb _ => 0xF700FFFF
  | .write1 _ _ => 0xFFFF0000
  | .writeb _ _ _ => 0xFF00FFFF
  | .flush _ => 0xFF000000
  | .setctrl _ => 0xF7FF0000
  | .nop | .avail | .availw | .peek | .read | .done => 0xF7000000
  | .connected | .baud | .linefmt | .getctrl | .illegalOp => 0xF7000000
  | .illegalRsv1 | .illegalRsv2 | .illegalRsv3 | .illegalRsv4 | .illegalRsv5 | .illegalRsv6 => 0x07000000
  | .illegalRsv7 => 0x07000000

/-! ## The host's view of the decoder -/

/-- The write data that stands behind a table word: as many zero bytes as it asks for. -/
def zeroSource (w : Word) : List Byte := List.replicate (sourceLength w) 0

/-- The instruction the decoder reads from the low `nbits` bits of `w`, its source bytes all 0; `none` where it
refuses. -/
def decodeTableWord (nbits w : Nat) : Option Instr :=
  let word : Word := BitVec.ofNat 32 (w % 2 ^ nbits)
  match decode word (zeroSource word) with
  | .ok i => some i
  | .error _ => none

end Sys2Proof
end

