-- ==== Sys2Proof/Machine/State.lean ====
section
/-! DEFINITION. The state of LBFIFO (10_state.md, 30_encoding.md R80 and R90, 60_exceptions.md R250 to R258), the
reasons a step can stop, and the state after reset (10_state.md R42, 70_reset_and_hazards.md R271). Every register
stands in the domain that alone writes it (10_state.md R20). -/

namespace Sys2Proof.Machine

/-- Why the machine stops with a fault. The block itself has none (60_exceptions.md R240). -/
inductive Fault where
  /-- `fault_pre` is set: a push or a pop was used beyond its precondition (40_ringbuffer.md R106, 60_exceptions.md
  R258). Raised by the step that starts from such a state; no run that follows the rules reaches one. Safe. -/
  | precondition
deriving DecidableEq, Repr

/-- Why the machine gives a step no meaning. -/
inductive Refusal where
  /-- An arm of `exec` without a meaning; none is left. Safe. -/
  | notModelled (mnemonic : String)
  /-- `refused` is set: the parameters are outside their legal range (60_exceptions.md R258, 00_scope.md R7). Raised
  by every step of such a machine. Safe. -/
  | illegalConfig
  /-- The command on the port lacks source bytes, which no host does (60_exceptions.md R251, 93 U12). Raised by the
  fetch alone, which fills the source list first, so that it never answers it. Safe. -/
  | sourceShort
deriving DecidableEq, Repr

/-- `fg_state` (10_state.md R37). -/
inductive FgState where
  | idle
  | waitAck
  | push
  | flushWait
deriving DecidableEq, Repr

/-- `ev_state` (10_state.md R38). -/
inductive EvState where
  | idle
  | rxDrain
  | txDone
deriving DecidableEq, Repr

/-- One event of the output history (10_state.md R39). -/
inductive OutEvent where
  /-- A packet handed to DEV. -/
  | tx (bytes : List Byte)
  /-- A receive request to DEV with its capacity. -/
  | rxReq (cap : Count)
  /-- The receive notification with its count. -/
  | ntfRx (count : Count)
  /-- The all-sent notification. -/
  | ntfTx
  /-- The result of an FG command, with the bytes READB returns. -/
  | rsp (word : Word) (bytes : List Byte)
deriving DecidableEq, Repr

/-- The publisher of a pointer: its binary register and its registered Gray image (10_state.md R24). -/
structure Publisher where
  /-- `*pub_f_b`. -/
  b : Ptr
  /-- `*pub_f_g`. -/
  g : Ptr
deriving DecidableEq, Repr

/-- A two-stage synchroniser (10_state.md R25, 45_cdc.md R223). Only `s2` is read by any other rule. -/
structure Sync2 (α : Type) where
  /-- The first stage. -/
  s1 : α
  /-- The second stage. -/
  s2 : α
deriving DecidableEq, Repr

/-- The registers of the FG domain. -/
structure FgDomain where
  /-- `rptr_RX` (10_state.md R23). -/
  rptrRx : Ptr
  /-- `wptr_TX` (R23). -/
  wptrTx : Ptr
  /-- `rpub_RX_b`, `rpub_RX_g` (R24). -/
  rpubRx : Publisher
  /-- `wpub_TX_b`, `wpub_TX_g` (R24). -/
  wpubTx : Publisher
  /-- `wsync1_RX`, `wsync2_RX` (R25). -/
  wsyncRx : Sync2 Ptr
  /-- `rsync1_TX`, `rsync2_TX` (R25). -/
  rsyncTx : Sync2 Ptr
  /-- `acc_bin`: the bytes accepted by all TX writes since reset, modulo 2^32 (R27). -/
  accBin : Word
  /-- `acc_req`, the request toggle (R27). -/
  accReq : Bool
  /-- `ack_s1`, `ack_s2` (R28). -/
  ack : Sync2 Bool
  /-- `busy_s1`, `busy_s2` (R30). -/
  busy : Sync2 Bool
  /-- `gate_s1`, `gate_s2` (R31). -/
  gate : Sync2 Bool
  /-- `ddone_s1`, `ddone_s2` (R32). -/
  ddone : Sync2 Bool
  /-- `CTRL` (R33). -/
  ctrl : Byte
  /-- `STATUS` (R34). -/
  status : Byte
  /-- The line-state shadow `conn_sh`, `ctl_sh`, `baud_sh`, `databits_sh`, `parity_sh`, `stopbits_sh` (R36). -/
  shadow : LineState
  /-- `fg_state` (R37). -/
  state : FgState
  /-- `fg_word`, the latched command word of the multi-step command in progress (R37). -/
  word : Word
  /-- `fg_acc`, the byte count a WRITEB accepted (R37). -/
  acc : Count
  /-- `fg_rem`, the bytes still to push (R37). -/
  rem : Count
  /-- `fg_src`, the source bytes still to push, of length `fg_rem` (R37). -/
  src : List Byte
  /-- `fg_resume`: a preempting write that interrupted a FLUSH_WAIT is in progress (R37). -/
  resume : Bool
deriving DecidableEq, Repr

/-- The registers of the EV domain. -/
structure EvDomain where
  /-- `wptr_RX` (10_state.md R23). -/
  wptrRx : Ptr
  /-- `rptr_TX` (R23). -/
  rptrTx : Ptr
  /-- `wpub_RX_b`, `wpub_RX_g` (R24). -/
  wpubRx : Publisher
  /-- `rpub_TX_b`, `rpub_TX_g` (R24). -/
  rpubTx : Publisher
  /-- `rsync1_RX`, `rsync2_RX` (R25). -/
  rsyncRx : Sync2 Ptr
  /-- `wsync1_TX`, `wsync2_TX` (R25). -/
  wsyncTx : Sync2 Ptr
  /-- `txSize`, the length of the packet in flight, 0 when idle (R26). -/
  txSize : Count
  /-- `acc_ev`, the captured copy of `acc_bin` (R28). -/
  accEv : Word
  /-- `acc_ack`, the acknowledge toggle (R28). -/
  accAck : Bool
  /-- `req_s1`, `req_s2` (R28). -/
  req : Sync2 Bool
  /-- `txCompleted`: the bytes whose completion was processed since reset, modulo 2^32 (R29). -/
  txCompleted : Word
  /-- `busy_ev` (R30). -/
  busyEv : Bool
  /-- `gate_ev` (R31). -/
  gateEv : Bool
  /-- `rxn_s1`, `rxn_s2` (R35). -/
  rxn : Sync2 Bool
  /-- `txn_s1`, `txn_s2` (R35). -/
  txn : Sync2 Bool
  /-- `ev_state` (R38). -/
  state : EvState
  /-- `ev_mask`, the event mask of the round in progress (R38). -/
  mask : BitVec 2
  /-- `rx_total`, the bytes queued into RX in this round (R38). -/
  rxTotal : Count
  /-- `rx_was_empty` (R38). -/
  rxWasEmpty : Bool
deriving DecidableEq, Repr

/-- The inputs of the FG command port, which the host holds until its command is taken (30_encoding.md R80,
60_exceptions.md R251). -/
structure FgPort where
  /-- `fg_cmd_valid`. -/
  valid : Bool
  /-- `fg_cmd`. -/
  cmd : Word
  /-- The bytes lined up on `fg_wdata`. -/
  wdata : List Byte
deriving DecidableEq, Repr

/-- The state of the machine: the block's registers and storage, the model bits the spec names, the inputs its
agents hold, and the model's own fields (INVENTORY.md, "State"). -/
structure State where
  /-- The parameters (00_scope.md R7); no step changes them. -/
  cfg : Params
  /-- The registers of the FG domain. -/
  fg : FgDomain
  /-- The registers of the EV domain. -/
  ev : EvDomain
  /-- `mem_RX` (10_state.md R22). -/
  memRx : List Host.Cell
  /-- `mem_TX` (10_state.md R22). -/
  memTx : List Host.Cell
  /-- The output history, oldest event first (10_state.md R39). -/
  out : List OutEvent
  /-- `fault_pre` (60_exceptions.md R258). -/
  faultPre : Bool
  /-- `refused` (60_exceptions.md R258). -/
  refused : Bool
  /-- What the host presents on the FG port. -/
  port : FgPort
  /-- The DEV output signals (10_state.md R40). -/
  dev : DevSignals
  /-- `dev_ev_valid` with `dev_ev_mask`: the event DEV presents, held until it is taken (30_encoding.md R90). -/
  devEvent : Option (BitVec 2)
  /-- The model's own: DEV still owes the transmit-complete of a launched packet (60_exceptions.md R250, duty 3). -/
  devOwes : Bool
  /-- The model's own: the moves lined up, oldest first (log 1). -/
  sched : List Move
  /-- The model's own: the number of moves made, to which the free values are applied (log 2). -/
  draws : Nat
deriving DecidableEq, Repr

/-- A publisher at reset: bin2gray(0) = 0 (10_state.md R42). -/
def Publisher.reset : Publisher := { b := 0, g := 0 }

/-- The FG registers after reset (10_state.md R42). -/
def FgDomain.reset : FgDomain :=
  { rptrRx := 0, wptrTx := 0, rpubRx := Publisher.reset, wpubTx := Publisher.reset,
    wsyncRx := { s1 := 0, s2 := 0 }, rsyncTx := { s1 := 0, s2 := 0 },
    accBin := 0, accReq := false, ack := { s1 := false, s2 := false },
    busy := { s1 := false, s2 := false }, gate := { s1 := false, s2 := false },
    ddone := { s1 := false, s2 := false },
    ctrl := 0x01, status := 0x00, shadow := LineState.zero,
    state := .idle, word := 0, acc := 0, rem := 0, src := [], resume := false }

/-- The EV registers after reset (10_state.md R42). -/
def EvDomain.reset : EvDomain :=
  { wptrRx := 0, rptrTx := 0, wpubRx := Publisher.reset, rpubTx := Publisher.reset,
    rsyncRx := { s1 := 0, s2 := 0 }, wsyncTx := { s1 := 0, s2 := 0 },
    txSize := 0, accEv := 0, accAck := false, req := { s1 := false, s2 := false }, txCompleted := 0,
    busyEv := false, gateEv := false, rxn := { s1 := false, s2 := false }, txn := { s1 := false, s2 := false },
    state := .idle, mask := 0, rxTotal := 0, rxWasEmpty := false }

/-- The state after reset of a block with the given parameters, DEV holding the given signals: the table of
10_state.md R42 with 70_reset_and_hazards.md R271. `refused` is 1 if the parameters are illegal. -/
def State.resetWith (p : Params) (dev : DevSignals) : State :=
  { cfg := p, fg := FgDomain.reset, ev := EvDomain.reset, memRx := [], memTx := [], out := [],
    faultPre := false, refused := !p.legal,
    port := { valid := false, cmd := 0, wdata := [] },
    dev := dev, devEvent := none, devOwes := false, sched := [], draws := 0 }

/-- The machine right after reset, with the default parameters of 00_scope.md R7. -/
def State.reset : State := State.resetWith Params.default DevSignals.zero

end Sys2Proof.Machine
end

