-- ==== Sys2Proof/Machine/Flags.lean ====
section
/-! DEFINITION. The status and control bits and the result words (10_state.md R33, R34, R41, 30_encoding.md R85,
60_exceptions.md R242). The block has no condition codes: STATUS.ILL is its one flag. -/

namespace Sys2Proof.Machine

/-- CTRL.BOO, blockOnOverrun (10_state.md R33). -/
def ctrlBoo (ctrl : Byte) : Bool := ctrl.getLsbD 0

/-- CTRL.RXNE (10_state.md R33). -/
def ctrlRxne (ctrl : Byte) : Bool := ctrl.getLsbD 1

/-- CTRL.TXNE (10_state.md R33). -/
def ctrlTxne (ctrl : Byte) : Bool := ctrl.getLsbD 2

/-- The CTRL value SETCTRL writes: `{5'b00000, data8[2:0]}` (44_line_state_ctrl.md R206). -/
def ctrlValue (data : Byte) : Byte := (data.extractLsb' 0 3).zeroExtend 8

/-- STATUS.ILL (10_state.md R34). -/
def statusIll (status : Byte) : Bool := status.getLsbD 0

/-- `set_sticky ILL` (44_line_state_ctrl.md R207). -/
def setIll (status : Byte) : Byte := status ||| 0x01

/-- NODATA (30_encoding.md R85). -/
def noData : Word := 0xFFFFFFFF

/-- A count as a result word: `zext_32` (30_encoding.md R85). -/
def countWord (n : Nat) : Word := BitVec.ofNat 32 n

/-- A byte as a result word: `zext_32` (30_encoding.md R85). -/
def byteWord (b : Byte) : Word := b.zeroExtend 32

/-- A Boolean as a result word (30_encoding.md R85). -/
def boolWord (b : Bool) : Word := if b then 1 else 0

/-- `{16'b0, STATUS[7:0], CTRL[7:0]}` (44_line_state_ctrl.md R205). -/
def ctrlWord (status ctrl : Byte) : Word := (0 : BitVec 16) ++ status ++ ctrl

/-- `{6'b000000, ctl_sh[1:0], stopbits_sh[7:0], parity_sh[7:0], databits_sh[7:0]}` (44_line_state_ctrl.md R204). -/
def lineWord (l : LineState) : Word := (0 : BitVec 6) ++ l.ctl ++ l.stopbits ++ l.parity ++ l.databits

/-- The write gate: the device is ready and the flow-control line DTR is asserted (41_transmit.md R122). -/
def gateOpen (d : DevSignals) : Bool := d.state == 0b10 && d.line.ctl.getLsbD 0

end Sys2Proof.Machine
end

