-- ==== Sys2Proof/Machine/Memory.lean ====
section
/-! DEFINITION. The storage arrays (20_memory.md R60, R68, 10_state.md R22): bytes by index, held as a list of
(index, byte) cells in one canonical form, and the block reads and writes MemRead and MemWrite (00_scope.md R10). -/

namespace Sys2Proof.Machine

/-- What an index that is not listed reads as. The spec leaves the storage unspecified after reset, and no command
or output can observe such a byte (70_reset_and_hazards.md R273). DESIGN CHOICE: 0 (log 3). -/
def unlistedByte : Byte := 0

/-- The byte at an index. -/
def cellRead : List Host.Cell → Nat → Byte
  | [], _ => unlistedByte
  | (k, b) :: rest, a => if k = a then b else cellRead rest a

/-- Put a byte at an index, keeping the canonical form: a cell that would hold what an unlisted index reads as is
dropped. -/
def cellWrite : List Host.Cell → Nat → Byte → List Host.Cell
  | [], a, v => if v = unlistedByte then [] else [(a, v)]
  | (k, b) :: rest, a, v =>
    if a < k then
      (if v = unlistedByte then (k, b) :: rest else (a, v) :: (k, b) :: rest)
    else if a = k then
      (if v = unlistedByte then rest else (a, v) :: rest)
    else
      (k, b) :: cellWrite rest a v

/-- The canonical form from an index on: indices strictly rising, each at least `low` and below `cap`, and no cell
that reads as an unlisted index does. -/
def cellsFrom (cap : Nat) : Nat → List Host.Cell → Bool
  | _, [] => true
  | low, (k, b) :: rest => decide (low ≤ k) && decide (k < cap) && (b != unlistedByte) && cellsFrom cap (k + 1) rest

/-- The canonical form of an array of `cap` bytes. -/
def cellsWf (cap : Nat) (cells : List Host.Cell) : Bool := cellsFrom cap 0 cells

/-- MemRead(f, i, n): the n bytes at indices i, i + 1, ..., each taken modulo CAP_f (00_scope.md R10). -/
def memRead (cap : Nat) (cells : List Host.Cell) (i n : Nat) : List Byte :=
  (List.range n).map fun k => cellRead cells ((i + k) % cap)

/-- MemWrite(f, i, n, bytes): the bytes to indices i, i + 1, ..., each taken modulo CAP_f (00_scope.md R10). -/
def memWrite (cap : Nat) : List Host.Cell → Nat → List Byte → List Host.Cell
  | cells, _, [] => cells
  | cells, i, v :: rest => memWrite cap (cellWrite cells (i % cap) v) (i + 1) rest

end Sys2Proof.Machine
end

