-- ==== Sys2Proof/Machine/Pointer.lean ====
section
/-! DEFINITION. Pointer arithmetic and the Gray code (20_memory.md R61 to R63). -/

namespace Sys2Proof.Machine

/-- `(p + n) mod 2^PW` (20_memory.md R61), with the modulus given. -/
def ptrAdd (modulus : Nat) (p : Ptr) (n : Nat) : Ptr := BitVec.ofNat 16 ((p.toNat + n) % modulus)

/-- `(a − b) mod 2^PW` (20_memory.md R62, R64, R65), with the modulus given. -/
def ptrSub (modulus : Nat) (a b : Ptr) : Nat := (a.toNat + (modulus - b.toNat % modulus)) % modulus

/-- `idx(p) = p[AW-1:0]` (20_memory.md R61). -/
def ptrIdx (aw : Nat) (p : Ptr) : Nat := p.toNat % 2 ^ aw

/-- `bin2gray(b) = b ^ (b >> 1)` (20_memory.md R63). -/
def bin2gray (b : Ptr) : Ptr := b ^^^ (b >>> 1)

/-- `gray2bin(g)`: bit i of the result is the exclusive-or of the bits of g from i up (20_memory.md R63), gathered in
four doublings. The bits of a pointer above its PW_f are 0 and do not matter. -/
def gray2bin (g : Ptr) : Ptr :=
  let g1 := g ^^^ (g >>> 1)
  let g2 := g1 ^^^ (g1 >>> 2)
  let g4 := g2 ^^^ (g2 >>> 4)
  g4 ^^^ (g4 >>> 8)

/-- One step of PUBLISH for a pointer and its publisher, both as they were before the edge (45_cdc.md R220). -/
def publish (modulus : Nat) (pointer : Ptr) (pub : Publisher) : Publisher :=
  if pub.b = pointer then pub
  else { b := ptrAdd modulus pub.b 1, g := bin2gray (ptrAdd modulus pub.b 1) }

end Sys2Proof.Machine
end

