-- ==== Sys2Proof/Machine/Ops.lean ====
section
/-! DEFINITION. The shared operations: the occupancy views (20_memory.md R61 to R67), the ring-buffer primitives
(40_ringbuffer.md), the output history (00_scope.md R10) and the completion of a command (41_transmit.md R120). -/

namespace Sys2Proof.Machine

/-! ## The registers of a FIFO (10_state.md R22 to R25) -/

/-- CAP_f. -/
def State.cap (f : Fifo) (s : State) : Nat := s.cfg.cap f

/-- 2^PW_f. -/
def State.modulus (f : Fifo) (s : State) : Nat := 2 ^ s.cfg.pw f

/-- `mem_f`. -/
def State.mem (f : Fifo) (s : State) : List Host.Cell :=
  match f with
  | .rx => s.memRx
  | .tx => s.memTx

/-- `wptr_f`. -/
def State.wptr (f : Fifo) (s : State) : Ptr :=
  match f with
  | .rx => s.ev.wptrRx
  | .tx => s.fg.wptrTx

/-- `rptr_f`. -/
def State.rptr (f : Fifo) (s : State) : Ptr :=
  match f with
  | .rx => s.fg.rptrRx
  | .tx => s.ev.rptrTx

/-- The publisher of `wptr_f`. -/
def State.wpub (f : Fifo) (s : State) : Publisher :=
  match f with
  | .rx => s.ev.wpubRx
  | .tx => s.fg.wpubTx

/-- The publisher of `rptr_f`. -/
def State.rpub (f : Fifo) (s : State) : Publisher :=
  match f with
  | .rx => s.fg.rpubRx
  | .tx => s.ev.rpubTx

/-- The synchroniser of the published `wptr_f`, in f's consumer domain. -/
def State.wsync (f : Fifo) (s : State) : Sync2 Ptr :=
  match f with
  | .rx => s.fg.wsyncRx
  | .tx => s.ev.wsyncTx

/-- The synchroniser of the published `rptr_f`, in f's producer domain. -/
def State.rsync (f : Fifo) (s : State) : Sync2 Ptr :=
  match f with
  | .rx => s.ev.rsyncRx
  | .tx => s.fg.rsyncTx

/-- The state with `mem_f` and `wptr_f` replaced: what the producer of f writes (40_ringbuffer.md R109). -/
def State.setProducer (f : Fifo) (cells : List Host.Cell) (w : Ptr) (s : State) : State :=
  match f with
  | .rx => { s with memRx := cells, ev := { s.ev with wptrRx := w } }
  | .tx => { s with memTx := cells, fg := { s.fg with wptrTx := w } }

/-- The state with `rptr_f` replaced: what the consumer of f writes (40_ringbuffer.md R109). -/
def State.setRptr (f : Fifo) (r : Ptr) (s : State) : State :=
  match f with
  | .rx => { s with fg := { s.fg with rptrRx := r } }
  | .tx => { s with ev := { s.ev with rptrTx := r } }

/-! ## Occupancy (20_memory.md R61 to R67) -/

/-- `idx(p)` for a pointer of f (20_memory.md R61). -/
def State.idx (f : Fifo) (p : Ptr) (s : State) : Nat := ptrIdx (s.cfg.aw f) p

/-- `span(i) = CAP_f − i` (40_ringbuffer.md R107). -/
def State.span (f : Fifo) (i : Nat) (s : State) : Nat := s.cap f - i

/-- `count_f`, the true occupancy (20_memory.md R62). -/
def State.count (f : Fifo) (s : State) : Nat := ptrSub (s.modulus f) (s.wptr f) (s.rptr f)

/-- `prodView_f` (20_memory.md R64). -/
def State.prodView (f : Fifo) (s : State) : Nat := ptrSub (s.modulus f) (s.wptr f) (gray2bin (s.rsync f).s2)

/-- `consView_f` (20_memory.md R65). -/
def State.consView (f : Fifo) (s : State) : Nat := ptrSub (s.modulus f) (gray2bin (s.wsync f).s2) (s.rptr f)

/-- `availableToRead(f)` (40_ringbuffer.md R101). -/
def State.availableToRead (f : Fifo) (s : State) : Nat := s.consView f

/-- `availableToWrite(f) = CAP_f − prodView_f` (40_ringbuffer.md R102). -/
def State.availableToWrite (f : Fifo) (s : State) : Nat := s.cap f - s.prodView f

/-- `MemRead(f, i, n)` (00_scope.md R10). -/
def State.ringRead (f : Fifo) (i n : Nat) (s : State) : List Byte := memRead (s.cap f) (s.mem f) i n

/-! ## The primitives (40_ringbuffer.md R103 to R106) -/

/-- The precondition of `pushChunk(f, src, n)` (40_ringbuffer.md R103, R106): n bytes are there, free and within the
span. -/
def State.canPush (f : Fifo) (src : List Byte) (n : Nat) (s : State) : Bool :=
  decide (n ≤ s.availableToWrite f) && decide (n ≤ s.span f (s.idx f (s.wptr f))) && decide (n ≤ src.length)

/-- The precondition of `popChunk(f, n)` (40_ringbuffer.md R104, R106). -/
def State.canPop (f : Fifo) (n : Nat) (s : State) : Bool :=
  decide (n ≤ s.availableToRead f) && decide (n ≤ s.span f (s.idx f (s.rptr f)))

/-- A failed precondition sets `fault_pre` and moves nothing (40_ringbuffer.md R106, 60_exceptions.md R258; log
10). -/
def State.failPrecondition (s : State) : State := { s with faultPre := true }

/-- `pushChunk(f, src, n)` (40_ringbuffer.md R103). -/
def State.pushChunk (f : Fifo) (src : List Byte) (n : Nat) (s : State) : State :=
  if s.canPush f src n then
    s.setProducer f (memWrite (s.cap f) (s.mem f) (s.idx f (s.wptr f)) (src.take n))
      (ptrAdd (s.modulus f) (s.wptr f) n)
  else s.failPrecondition

/-- `popChunk(f, n)` (40_ringbuffer.md R104): the bytes and the state after. -/
def State.popChunk (f : Fifo) (n : Nat) (s : State) : List Byte × State :=
  if s.canPop f n then
    (s.ringRead f (s.idx f (s.rptr f)) n, s.setRptr f (ptrAdd (s.modulus f) (s.rptr f) n))
  else ([], s.failPrecondition)

/-- `peekByte(f)` (40_ringbuffer.md R105). -/
def State.peekByte (f : Fifo) (s : State) : Option Byte :=
  if s.availableToRead f = 0 then none else some (cellRead (s.mem f) (s.idx f (s.rptr f)))

/-! ## Output and completion -/

/-- `emit E` (00_scope.md R10): append an event to the output history. -/
def State.emit (e : OutEvent) (s : State) : State := { s with out := s.out ++ [e] }

/-- The completion of a command in progress, `done(w)` (41_transmit.md R120): the result, and back to FLUSH_WAIT if a
preempting write is resumed from, else to IDLE. -/
def State.finishHeld (w : Word) (bytes : List Byte) (s : State) : State :=
  let t := s.emit (.rsp w bytes)
  { t with fg := { t.fg with state := if s.fg.resume then .flushWait else .idle, resume := false } }

/-- The completion of a command at the edge that takes it, `done(w)` (41_transmit.md R120): a preempting command,
taken while `fg_state ≠ IDLE`, leaves the held command's registers alone. -/
def State.finishTaken (w : Word) (bytes : List Byte) (s : State) : State :=
  if s.fg.state = .idle then s.finishHeld w bytes else s.emit (.rsp w bytes)

/-- What an illegal word does (44_line_state_ctrl.md R207): the sticky ILL bit is set, the result is NODATA, and
nothing else changes. It stands where another machine takes an illegal-instruction exception; the block has no trap
(60_exceptions.md R240). -/
def State.takeIllegal (s : State) : State :=
  ({ s with fg := { s.fg with status := setIll s.fg.status } } : State).finishTaken noData []

end Sys2Proof.Machine
end

