-- ==== Sys2Proof/Machine/Operands.lean ====
section
/-! DEFINITION. The operands of a command at the FG port (30_encoding.md R80 to R84) and the operand arithmetic the
commands share: the free space, the accepted count and the packet-size clamp mux. -/

namespace Sys2Proof.Machine

/-- The source list a presented word brings: as many bytes as it asks for, from the bytes lined up on `fg_wdata`. A
byte that is not lined up is a free value: the host supplies each byte when asked (60_exceptions.md R251; log 21). -/
def State.sourceBytes (s : State) : List Byte :=
  let n := sourceLength s.port.cmd
  s.port.wdata.take n ++
    (List.range (n - s.port.wdata.length)).map fun k => Config.freeSource s.draws k

/-- The accepted count of a write (41_transmit.md R123): in interrupt context or non-blocking mode SIZE is clamped to
the free space the FG view shows; otherwise it is SIZE. -/
def State.acceptedCount (ctx : Bool) (size : Count) (s : State) : Nat :=
  if ctx || !ctrlBoo s.fg.ctrl then min size.toNat (s.availableToWrite .tx) else size.toNat

/-- `clampmux() = min(consView_TX, span(idx(rptr_TX)), CEIL)` (41_transmit.md R131). -/
def State.clampMux (s : State) : Nat :=
  min (min (s.consView .tx) (s.span .tx (s.idx .tx (s.rptr .tx)))) s.cfg.ceil

/-- `txTotal_ev = (acc_ev − txCompleted) mod 2^32` (41_transmit.md R139). -/
def State.txTotal (s : State) : Word := s.ev.accEv - s.ev.txCompleted

/-- `launch_en` (41_transmit.md R130). -/
def State.launchEn (s : State) : Bool :=
  decide (s.ev.state = .idle) && decide (s.ev.txSize = 0) && decide (0 < s.consView .tx)

/-- `dev_ev_ready` (43_event_dispatch.md R180). -/
def State.devEvReady (s : State) : Bool := decide (s.ev.state = .idle) && !s.launchEn

/-- `preempt_ok`, for the word on the port (41_transmit.md R141). -/
def State.preemptOk (s : State) : Bool :=
  cmdCtx s.port.cmd && !s.fg.resume &&
    ((decide (s.fg.state = .push) && decide (s.availableToWrite .tx = 0)) || decide (s.fg.state = .flushWait))

/-- `fg_cmd_ready` (30_encoding.md R80, 41_transmit.md R141). -/
def State.cmdReady (s : State) : Bool := decide (s.fg.state = .idle) || s.preemptOk

end Sys2Proof.Machine
end

