-- ==== Sys2Proof/Machine/Agents.lean ====
section
/-! DEFINITION. The external agents HOST and DEV (60_exceptions.md R249 to R251, R254). A duty is something they
always do, so no move breaks one: a move that would is replaced by the nearest one that does not (log 8). -/

namespace Sys2Proof.Machine

/-- A foreground command is in progress: a FLUSH waits, a write that interrupted one runs, or the write in progress
was issued with CTX = 0. From the foreground the host presents no command while its own is pending
(60_exceptions.md R251). -/
def State.foregroundPending (s : State) : Bool :=
  match s.fg.state with
  | .idle => false
  | .waitAck => s.fg.resume || !cmdCtx s.fg.word
  | .push => s.fg.resume || !cmdCtx s.fg.word
  | .flushWait => true

/-- The host may present this command now: no command waits on the port, since a presented command is held until it
is taken, and it is no second foreground command (60_exceptions.md R251). -/
def State.mayPresent (c : HostCmd) (s : State) : Bool :=
  !s.port.valid && (cmdCtx c.word || !s.foregroundPending)

/-- The host's presentation at an FG edge (30_encoding.md R80, 60_exceptions.md R255). -/
def State.hostPresent (present : Option HostCmd) (s : State) : State :=
  match present with
  | none => s
  | some c => if s.mayPresent c then { s with port := { valid := true, cmd := c.word, wdata := c.data } } else s

/-- The event mask DEV may present: it sets bit 1 (transmit-complete) only in the one event it owes for a launched
packet (60_exceptions.md R250, duty 3). -/
def State.dutifulMask (mask : BitVec 2) (s : State) : BitVec 2 := if s.devOwes then mask else mask &&& 0b01

/-- DEV presents an event; an event already presented is held unchanged until it is taken (60_exceptions.md R250,
duty 1). -/
def State.devPresent (event : Option (BitVec 2)) (s : State) : State :=
  match s.devEvent, event with
  | none, some mask =>
    let m := s.dutifulMask mask
    { s with devEvent := some m, devOwes := s.devOwes && !m.getLsbD 1 }
  | _, _ => s

/-- One DEV step: new output signals and perhaps an event; no block register changes (60_exceptions.md R254). -/
def State.devStep (signals : DevSignals) (event : Option (BitVec 2)) (s : State) : State :=
  { s.devPresent event with dev := signals }

/-- DEV's read port into `mem_TX`, `dev_tx_rdata` at `dev_tx_raddr` (30_encoding.md R90, 41_transmit.md R132). -/
def State.devTxRead (raddr : Nat) (s : State) : Byte := cellRead s.memTx (raddr % s.cap .tx)

end Sys2Proof.Machine
end

