-- ==== Sys2Proof/Machine/Cdc.lean ====
section
/-! DEFINITION. The parts of an edge beside the sequencer (60_exceptions.md R252 parts 2 to 4, R253 parts 2 to 5):
publishers, synchronisers, the handshake acknowledge, the line shadow, `busy_ev` and `gate_ev` (45_cdc.md,
44_line_state_ctrl.md R208). Each takes the pre-edge state `pre` and the state `post` the sequencer left. -/

namespace Sys2Proof.Machine

/-- SYNC (45_cdc.md R223): the first stage samples the source, the second takes the first as it was. -/
def syncShift {α : Type} (x : Sync2 α) (source : α) : Sync2 α := { s1 := source, s2 := x.s1 }

/-- One bit field of LINE_SYNC: the bits of the mask take the DEV value, the others stay (44_line_state_ctrl.md
R208). -/
def copyBits {n : Nat} (mask old new : BitVec n) : BitVec n := (old &&& ~~~mask) ||| (new &&& mask)

/-- LINE_SYNC (44_line_state_ctrl.md R208). -/
def lineSync (copy old new : LineState) : LineState :=
  { connected := if copy.connected then new.connected else old.connected
    ctl := copyBits copy.ctl old.ctl new.ctl
    baud := copyBits copy.baud old.baud new.baud
    databits := copyBits copy.databits old.databits new.databits
    parity := copyBits copy.parity old.parity new.parity
    stopbits := copyBits copy.stopbits old.stopbits new.stopbits }

/-- Parts 2 to 4 of an FG edge (60_exceptions.md R252; the crossings are those of 45_cdc.md R224). They happen also at the
edge that takes a query, so a repeat of it may answer newer views, which 20_memory.md R79 denies; that R252 decides is
the model's reading, log 28 (DEDUCED). -/
def State.fgCrossings (copy : LineState) (pre post : State) : State :=
  { post with fg :=
      { post.fg with
        rpubRx := publish (pre.modulus .rx) pre.fg.rptrRx pre.fg.rpubRx
        wpubTx := publish (pre.modulus .tx) pre.fg.wptrTx pre.fg.wpubTx
        wsyncRx := syncShift pre.fg.wsyncRx pre.ev.wpubRx.g
        rsyncTx := syncShift pre.fg.rsyncTx pre.ev.rpubTx.g
        busy := syncShift pre.fg.busy pre.ev.busyEv
        gate := syncShift pre.fg.gate pre.ev.gateEv
        ack := syncShift pre.fg.ack pre.ev.accAck
        ddone := syncShift pre.fg.ddone pre.dev.done
        shadow := lineSync copy pre.fg.shadow pre.dev.line } }

/-- ACK enabled (45_cdc.md R227). -/
def State.ackEnabled (s : State) : Bool := s.ev.req.s2 != s.ev.accAck

/-- Parts 2 to 5 of an EV edge (60_exceptions.md R253). ACK captures `acc_bin` when the request differs from the
acknowledge (45_cdc.md R227); `busy_ev` takes the post-edge `txSize ≠ 0` (10_state.md R30), `gate_ev` the DEV signals
(41_transmit.md R122). By 45_cdc.md R223 the EV sequencer reads an old RXNE or TXNE at two EV edges after a SETCTRL, where
70_reset_and_hazards.md R278 says one or two; that R223 decides is the model's reading, log 30 (DEDUCED). -/
def State.evCrossings (pre post : State) : State :=
  { post with ev :=
      { post.ev with
        accEv := if pre.ackEnabled then pre.fg.accBin else pre.ev.accEv
        accAck := if pre.ackEnabled then pre.ev.req.s2 else pre.ev.accAck
        wpubRx := publish (pre.modulus .rx) pre.ev.wptrRx pre.ev.wpubRx
        rpubTx := publish (pre.modulus .tx) pre.ev.rptrTx pre.ev.rpubTx
        rsyncRx := syncShift pre.ev.rsyncRx pre.fg.rpubRx.g
        wsyncTx := syncShift pre.ev.wsyncTx pre.fg.wpubTx.g
        req := syncShift pre.ev.req pre.fg.accReq
        rxn := syncShift pre.ev.rxn (ctrlRxne pre.fg.ctrl)
        txn := syncShift pre.ev.txn (ctrlTxne pre.fg.ctrl)
        busyEv := decide (post.ev.txSize ≠ 0)
        gateEv := gateOpen pre.dev } }

end Sys2Proof.Machine
end

