-- ==== Sys2Proof/Machine/Control.lean ====
section
/-! DEFINITION. NOP, the line-state passthroughs, the control register and the illegal words
(44_line_state_ctrl.md). Each completes at the edge that takes it (R200). -/

namespace Sys2Proof.Machine

/-- NOP (R201). -/
def execNop (s : State) : Host.Outcome State Fault Refusal := .next (s.finishTaken 0 [])

/-- CONNECTED (R202). -/
def execConnected (s : State) : Host.Outcome State Fault Refusal :=
  .next (s.finishTaken (boolWord s.fg.shadow.connected) [])

/-- BAUD (R203). -/
def execBaud (s : State) : Host.Outcome State Fault Refusal := .next (s.finishTaken s.fg.shadow.baud [])

/-- LINEFMT (R204). -/
def execLinefmt (s : State) : Host.Outcome State Fault Refusal := .next (s.finishTaken (lineWord s.fg.shadow) [])

/-- GETCTRL (R205). -/
def execGetctrl (s : State) : Host.Outcome State Fault Refusal :=
  .next (s.finishTaken (ctrlWord s.fg.status s.fg.ctrl) [])

/-- SETCTRL (R206). -/
def execSetctrl (data : Byte) (s : State) : Host.Outcome State Fault Refusal :=
  .next (({ s with fg := { s.fg with ctrl := ctrlValue data } } : State).finishTaken 0 [])

/-- ILLEGAL_OP (R207). -/
def execIllegalOp (s : State) : Host.Outcome State Fault Refusal := .next s.takeIllegal

/-- ILLEGAL_RSV1 (R207). -/
def execIllegalRsv1 (s : State) : Host.Outcome State Fault Refusal := .next s.takeIllegal

/-- ILLEGAL_RSV2 (R207). -/
def execIllegalRsv2 (s : State) : Host.Outcome State Fault Refusal := .next s.takeIllegal

/-- ILLEGAL_RSV3 (R207). -/
def execIllegalRsv3 (s : State) : Host.Outcome State Fault Refusal := .next s.takeIllegal

/-- ILLEGAL_RSV4 (R207). -/
def execIllegalRsv4 (s : State) : Host.Outcome State Fault Refusal := .next s.takeIllegal

/-- ILLEGAL_RSV5 (R207). -/
def execIllegalRsv5 (s : State) : Host.Outcome State Fault Refusal := .next s.takeIllegal

/-- ILLEGAL_RSV6 (R207). -/
def execIllegalRsv6 (s : State) : Host.Outcome State Fault Refusal := .next s.takeIllegal

/-- ILLEGAL_RSV7 (R207). -/
def execIllegalRsv7 (s : State) : Host.Outcome State Fault Refusal := .next s.takeIllegal

end Sys2Proof.Machine
end

