-- ==== Sys2Proof/Machine/Receive.lean ====
section
/-! DEFINITION. The receive path (42_receive.md): the FG commands AVAIL, PEEK, READ and READB, and the EV domain's RX
drain. Reads are not gated (R159). -/

namespace Sys2Proof.Machine

/-! ## FG commands -/

/-- AVAIL (R151). -/
def execAvail (s : State) : Host.Outcome State Fault Refusal :=
  .next (s.finishTaken (countWord (s.availableToRead .rx)) [])

/-- A byte or NODATA (R152, R153). -/
def byteOrNoData : Option Byte → Word
  | none => noData
  | some b => byteWord b

/-- PEEK (R152). -/
def execPeek (s : State) : Host.Outcome State Fault Refusal :=
  .next (s.finishTaken (byteOrNoData (s.peekByte .rx)) [])

/-- READ (R153). -/
def execRead (s : State) : Host.Outcome State Fault Refusal :=
  if s.consView .rx = 0 then .next (s.finishTaken noData [])
  else
    let (bytes, t) := s.popChunk .rx 1
    .next (t.finishTaken (byteOrNoData bytes.head?) [])

/-- READB (R154): two spans, both in this edge. -/
def execReadb (size : Count) (s : State) : Host.Outcome State Fault Refusal :=
  let k := min size.toNat (s.consView .rx)
  let s1 := min k (s.span .rx (s.idx .rx (s.rptr .rx)))
  let (first, t) := s.popChunk .rx s1
  let (second, u) := t.popChunk .rx (k - s1)
  .next (u.finishTaken (countWord k) (first ++ second))

/-! ## The RX drain, at an EV edge with `ev_state = RX_DRAIN` -/

/-- `end_rx_phase(t)` (R156): the notification, if one is due, and the next EV state (43_event_dispatch.md R181). -/
def State.endRxPhase (total : Count) (s : State) : State :=
  let t := if s.ev.rxWasEmpty && decide (total ≠ 0) && s.ev.rxn.s2 then s.emit (.ntfRx total) else s
  { t with ev := { t.ev with state := if s.ev.mask.getLsbD 1 then .txDone else .idle } }

/-- The capacity of the receive request of this iteration, 0 if it makes none: the free space, the span and the
round's quota, whichever is least (R155). -/
def State.rxCap (s : State) : Nat :=
  min (min (s.availableToWrite .rx) (s.span .rx (s.idx .rx (s.wptr .rx)))) (s.cap .rx - s.ev.rxTotal.toNat)

/-- RX_ITER (R155). `answer` is what DEV would deliver: of it at most `cap` bytes are taken, so that DEV's answer is
any list of at most `cap` bytes (60_exceptions.md R250, duty 2 and liberty 2). -/
def State.rxIter (answer : List Byte) (s : State) : State :=
  if s.availableToWrite .rx = 0 ∨ s.cap .rx - s.ev.rxTotal.toNat = 0 then s.endRxPhase s.ev.rxTotal
  else
    let cap := s.rxCap
    let bytes := answer.take cap
    let t := (s.emit (.rxReq (BitVec.ofNat 16 cap))).pushChunk .rx bytes bytes.length
    let total := s.ev.rxTotal + BitVec.ofNat 16 bytes.length
    let u := { t with ev := { t.ev with rxTotal := total } }
    if bytes.length = 0 then u.endRxPhase total else u

end Sys2Proof.Machine
end

