-- ==== Sys2Proof/Machine/Transmit.lean ====
section
/-! DEFINITION. The transmit path (41_transmit.md): the FG commands AVAILW, WRITE1, WRITEB, FLUSH and DONE with their
later FG edges, and the EV domain's packet launch and completion. -/

namespace Sys2Proof.Machine

/-! ## FG commands -/

/-- AVAILW (R129). -/
def execAvailw (s : State) : Host.Outcome State Fault Refusal :=
  .next (s.finishTaken (countWord (s.availableToWrite .tx)) [])

/-- The FG registers after a write of `acc` accepted bytes begins (R123, 45_cdc.md R226). `fg_word` is the word on
the port. -/
def State.acceptWrite (acc : Nat) (source : List Byte) (s : State) : State :=
  { s with fg :=
      { s.fg with
        accBin := s.fg.accBin + BitVec.ofNat 32 acc
        accReq := !s.fg.accReq
        word := s.port.cmd
        acc := BitVec.ofNat 16 acc
        rem := BitVec.ofNat 16 acc
        src := source.take acc
        resume := s.fg.resume || decide (s.fg.state = .flushWait)
        state := .waitAck } }

/-- The begin operation of a write (R123). -/
def State.beginWrite (ctx : Bool) (size : Count) (source : List Byte) (s : State) : State :=
  if s.fg.gate.s2 = false then s.finishTaken 0 []
  else if s.acceptedCount ctx size = 0 then s.finishTaken 0 []
  else s.acceptWrite (s.acceptedCount ctx size) source

/-- WRITE1 (R121): the write of the one byte DATA. -/
def execWrite1 (ctx : Bool) (data : Byte) (s : State) : Host.Outcome State Fault Refusal :=
  .next (s.beginWrite ctx 1 [data])

/-- WRITEB, the begin operation (R123). Its later edges are `waitAckStep` and `pushStep`. -/
def execWriteb (ctx : Bool) (size : Count) (source : List Byte) (s : State) : Host.Outcome State Fault Refusal :=
  .next (s.beginWrite ctx size source)

/-- FLUSH, the begin edge (R136): a no-op in interrupt context. Its later edges are `flushWaitStep`. -/
def execFlush (ctx : Bool) (s : State) : Host.Outcome State Fault Refusal :=
  if ctx then .next (s.finishTaken 0 [])
  else .next { s with fg := { s.fg with state := .flushWait } }

/-- DONE's predicate (R135). -/
def State.txDone (s : State) : Bool := decide (s.prodView .tx = 0) && !s.fg.busy.s2

/-- DONE (R135). -/
def execDone (s : State) : Host.Outcome State Fault Refusal := .next (s.finishTaken (boolWord s.txDone) [])

/-! ## The later FG edges of a held command -/

/-- The acknowledge wait, `fg_state = WAIT_ACK` (R124). -/
def State.waitAckStep (s : State) : State :=
  if s.fg.ack.s2 = s.fg.accReq then { s with fg := { s.fg with state := .push } } else s

/-- How many bytes a push edge moves: one non-wrapping span (R125). -/
def State.pushLength (s : State) : Nat :=
  min (min s.fg.rem.toNat (s.availableToWrite .tx)) (s.span .tx (s.idx .tx (s.wptr .tx)))

/-- The push operation, `fg_state = PUSH` (R125 to R127). -/
def State.pushStep (s : State) : State :=
  if s.availableToWrite .tx = 0 then s
  else
    let n := s.pushLength
    let t := s.pushChunk .tx s.fg.src n
    let u := { t with fg := { t.fg with src := s.fg.src.drop n, rem := s.fg.rem - BitVec.ofNat 16 n } }
    if s.fg.rem - BitVec.ofNat 16 n = 0 then u.finishHeld (countWord s.fg.acc.toNat) [] else u

/-- The flush wait, `fg_state = FLUSH_WAIT`, by R136's pseudocode. A `dev_done` that is 1 at one FG edge alone reaches
`ddone_s2` by 45_cdc.md R223 and can end the wait, though R136 and 45_cdc.md R229 say that DEV has held it across two FG
edges; that the pseudocode decides is the model's reading, log 29 (DEDUCED). -/
def State.flushWaitStep (s : State) : State :=
  if s.prodView .tx = 0 ∧ s.fg.ddone.s2 = true then s.finishHeld 0 [] else s

/-! ## Packet launch and completion, EV edges -/

/-- TX_LAUNCH (R130 to R132). DEV owes a transmit-complete from here on (60_exceptions.md R250, duty 3). -/
def State.txLaunch (s : State) : State :=
  let len := s.clampMux
  let t := s.emit (.tx (s.ringRead .tx (s.idx .tx (s.rptr .tx)) len))
  { t with ev := { t.ev with txSize := BitVec.ofNat 16 len }, devOwes := true }

/-- The all-sent condition of a completion of `n` bytes, on pre-edge values (R133, R134): no data left in the EV view
after the pop, the outstanding total at zero, and the listener registered. -/
def State.allSent (n : Nat) (s : State) : Bool :=
  decide (ptrSub (s.modulus .tx) (gray2bin s.ev.wsyncTx.s2) (ptrAdd (s.modulus .tx) s.ev.rptrTx n) = 0) &&
    decide (s.ev.accEv - (s.ev.txCompleted + BitVec.ofNat 32 n) = 0) && s.ev.txn.s2

/-- TX_COMPLETE, `ev_state = TX_DONE` (R133). With no packet in flight only `ev_state` changes. -/
def State.txComplete (s : State) : State :=
  if s.ev.txSize = 0 then { s with ev := { s.ev with state := .idle } }
  else
    let n := s.ev.txSize.toNat
    let t := (s.popChunk .tx n).2
    let u := if s.allSent n then t.emit .ntfTx else t
    { u with ev :=
        { u.ev with txCompleted := s.ev.txCompleted + BitVec.ofNat 32 n, txSize := 0, state := .idle } }

end Sys2Proof.Machine
end

