-- ==== Sys2Proof/Machine/Dispatch.lean ====
section
/-! DEFINITION. The meaning of each command, one arm for each constructor of Instr (30_encoding.md R86 to R88). -/

namespace Sys2Proof.Machine

/-- The first operation of a command at the FG edge that takes it (60_exceptions.md R252, part 1). -/
def exec (i : Instr) (s : State) : Host.Outcome State Fault Refusal :=
  match i with
  | .nop => Sys2Proof.Machine.execNop s
  | .avail => Sys2Proof.Machine.execAvail s
  | .availw => Sys2Proof.Machine.execAvailw s
  | .peek => Sys2Proof.Machine.execPeek s
  | .read => Sys2Proof.Machine.execRead s
  | .readb size => Sys2Proof.Machine.execReadb size s
  | .write1 ctx data => Sys2Proof.Machine.execWrite1 ctx data s
  | .writeb ctx size source => Sys2Proof.Machine.execWriteb ctx size source s
  | .flush ctx => Sys2Proof.Machine.execFlush ctx s
  | .done => Sys2Proof.Machine.execDone s
  | .connected => Sys2Proof.Machine.execConnected s
  | .baud => Sys2Proof.Machine.execBaud s
  | .linefmt => Sys2Proof.Machine.execLinefmt s
  | .getctrl => Sys2Proof.Machine.execGetctrl s
  | .setctrl data => Sys2Proof.Machine.execSetctrl data s
  | .illegalOp => Sys2Proof.Machine.execIllegalOp s
  | .illegalRsv1 => Sys2Proof.Machine.execIllegalRsv1 s
  | .illegalRsv2 => Sys2Proof.Machine.execIllegalRsv2 s
  | .illegalRsv3 => Sys2Proof.Machine.execIllegalRsv3 s
  | .illegalRsv4 => Sys2Proof.Machine.execIllegalRsv4 s
  | .illegalRsv5 => Sys2Proof.Machine.execIllegalRsv5 s
  | .illegalRsv6 => Sys2Proof.Machine.execIllegalRsv6 s
  | .illegalRsv7 => Sys2Proof.Machine.execIllegalRsv7 s

end Sys2Proof.Machine
end

