-- ==== Sys2Proof/Machine/Edges.lean ====
section
/-! DEFINITION. One FG edge, one EV edge and one DEV step (60_exceptions.md R252 to R254), and the event round
(43_event_dispatch.md). -/

namespace Sys2Proof.Machine

/-! ## The FG edge (60_exceptions.md R252) -/

/-- A command is taken at this edge: `fg_cmd_valid ∧ fg_cmd_ready` (30_encoding.md R80). -/
def State.takesCommand (s : State) : Bool := s.port.valid && s.cmdReady

/-- The state in which a taken command runs: the host presents it no longer. The word stays on the port's wires. -/
def State.portTaken (s : State) : State := { s with port := { s.port with valid := false } }

/-- The command on the port with its source bytes (30_encoding.md R80, R88). -/
def State.fetch (s : State) : Except DecodeError Instr := decode s.port.cmd s.sourceBytes

/-- Take the command on the port: decode it and run its first operation. -/
def State.takeCommand (s : State) : Host.Outcome State Fault Refusal :=
  match s.fetch with
  | .ok i => exec i s.portTaken
  | .error .sourceShort => .refused .sourceShort

/-- The held command continues, or nothing happens in IDLE. -/
def State.fgContinue (s : State) : State :=
  match s.fg.state with
  | .idle => s
  | .waitAck => s.waitAckStep
  | .push => s.pushStep
  | .flushWait => s.flushWaitStep

/-- The FG sequencer at an edge (R252, part 1). -/
def State.fgSequencer (s : State) : Host.Outcome State Fault Refusal :=
  if s.takesCommand then s.takeCommand else .next s.fgContinue

/-- One FG edge (R252): the host's presentation is an input of the edge; every part reads pre-edge values. -/
def State.fgEdge (present : Option HostCmd) (copy : LineState) (s : State) : Host.Outcome State Fault Refusal :=
  let pre := s.hostPresent present
  match pre.fgSequencer with
  | .next post => .next (State.fgCrossings copy pre post)
  | .fault r => .fault r
  | .refused r => .refused r

/-! ## The EV edge (60_exceptions.md R253) -/

/-- EV_ROUND, the start of an event round (43_event_dispatch.md R180, R181). -/
def State.evRound (mask : BitVec 2) (s : State) : State :=
  { s with
    devEvent := none
    ev :=
      { s.ev with
        mask := mask
        rxTotal := 0
        rxWasEmpty := decide (s.prodView .rx = 0)
        state := if mask.getLsbD 0 then .rxDrain else if mask.getLsbD 1 then .txDone else .idle } }

/-- The EV sequencer in IDLE: a launch goes before an event (43_event_dispatch.md R180, 60_exceptions.md R245). -/
def State.evIdle (s : State) : State :=
  if s.launchEn then s.txLaunch
  else
    match s.devEvent with
    | some mask => s.evRound mask
    | none => s

/-- The EV sequencer at an edge (R253, part 1). -/
def State.evSequencer (answer : List Byte) (s : State) : State :=
  match s.ev.state with
  | .idle => s.evIdle
  | .rxDrain => s.rxIter answer
  | .txDone => s.txComplete

/-- One EV edge (R253). -/
def State.evEdge (answer : List Byte) (s : State) : State := State.evCrossings s (s.evSequencer answer)

/-! ## One move of the machine (00_scope.md R11) -/

/-- The step of one agent. -/
def State.runMove (m : Move) (s : State) : Host.Outcome State Fault Refusal :=
  match m with
  | .fgEdge present copy => s.fgEdge present copy
  | .evEdge answer => .next (s.evEdge answer)
  | .devStep signals event => .next (s.devStep signals event)

/-- The move to make next: the oldest one lined up, or else a free one (log 1). -/
def State.nextMove (s : State) : Move :=
  match s.sched with
  | m :: _ => m
  | [] => Config.freeMove s.draws

/-- The state with that move used up. -/
def State.moveTaken (s : State) : State := { s with sched := s.sched.tail, draws := s.draws + 1 }

/-- One step: a refused configuration has no steps, a state with `fault_pre` set is a fault (60_exceptions.md R258),
and otherwise one agent moves. -/
def State.stepOnce (s : State) : Host.Outcome State Fault Refusal :=
  if s.refused then .refused .illegalConfig
  else if s.faultPre then .fault .precondition
  else s.moveTaken.runMove s.nextMove

/-- The port with a command presented and `fg_state = IDLE`, and an FG edge that copies no line-state bit as the next
move: what it takes that the very next step takes the command (log 16). -/
def State.presentNext (c : HostCmd) (s : State) : State :=
  { s with
    port := { valid := true, cmd := c.word, wdata := c.data }
    fg := { s.fg with state := .idle }
    sched := .fgEdge none LineState.zero :: s.sched }

end Sys2Proof.Machine
end

