-- ==== Sys2Proof/Machine/Step.lean ====
section
/-! DEFINITION. The step function, and the state whose next step runs a given word. -/

namespace Sys2Proof.Machine

/-- One atomic step of one agent (00_scope.md R11, 60_exceptions.md R252 to R255). -/
def step (s : State) : Host.Outcome State Fault Refusal := s.stepOnce

/-- The state with the low `nbits` bits of `w` presented as a command, its source bytes 0, so that the very next step
takes and runs it (log 16). -/
def State.withFetchWord (s : State) (nbits w : Nat) : State :=
  let word : Word := BitVec.ofNat 32 (w % 2 ^ nbits)
  s.presentNext { word := word, data := zeroSource word }

end Sys2Proof.Machine
end

