-- ==== Sys2Proof/Machine/Runs.lean ====
section
/-! DEFINITION. Runs of the block, the weak fairness of its two clocks (60_exceptions.md R255) and that of the line-shadow
draws (44_line_state_ctrl.md R208). A run is given by the
moves its agents make; each move in turn is lined up as the next one, so every interleaving and every draw is a run. -/

namespace Sys2Proof

/-- The move is an FG edge. -/
def Move.isFgEdge : Move → Bool
  | .fgEdge _ _ => true
  | .evEdge _ => false
  | .devStep _ _ => false

/-- The move is an EV edge. -/
def Move.isEvEdge : Move → Bool
  | .fgEdge _ _ => false
  | .evEdge _ => true
  | .devStep _ _ => false

/-- The host newly presents a command at this move (60_exceptions.md R255). -/
def Move.presents : Move → Bool
  | .fgEdge present _ => present.isSome
  | .evEdge _ => false
  | .devStep _ _ => false

end Sys2Proof

namespace Sys2Proof.Machine

/-- The state with a move lined up before all others. -/
def State.lineUp (m : Move) (s : State) : State := { s with sched := m :: s.sched }

/-- The step relation: the move `m` leads from `s` to `t` (60_exceptions.md R252 to R255). -/
def State.StepsTo (m : Move) (s t : State) : Prop := step (s.lineUp m) = .next t

/-- A finite sequence of steps from `s` to `t`, by the moves listed. -/
def FiniteRun : List Move → State → State → Prop
  | [], s, t => s = t
  | m :: rest, s, t => ∃ u, s.StepsTo m u ∧ FiniteRun rest u t

/-- An infinite sequence of steps: the n-th move leads from the n-th state to the next one. -/
def InfinitePath (states : Nat → State) (moves : Nat → Move) : Prop :=
  ∀ n, (states n).StepsTo (moves n) (states (n + 1))

/-- Weak fairness: FG edges and EV edges each occur infinitely often, because both clocks run. Nothing is assumed of
DEV or of the host (60_exceptions.md R255). -/
def WeaklyFair (moves : Nat → Move) : Prop :=
  (∀ n, ∃ k, n ≤ k ∧ (moves k).isFgEdge = true) ∧ ∀ n, ∃ k, n ≤ k ∧ (moves k).isEvEdge = true

/-- A DEV signal of the line state that is held constant from some state on is eventually copied in full to its shadow
register (44_line_state_ctrl.md R208; log 26). -/
def HeldIsCopied {α : Type} (signal : LineState → α) (states : Nat → State) : Prop :=
  ∀ n, (∀ k, n ≤ k → signal (states k).dev.line = signal (states n).dev.line) →
    ∃ k, n ≤ k ∧ signal (states k).fg.shadow = signal (states n).dev.line

/-- The fairness of the LINE_SYNC draws, for each signal that has a shadow register (44_line_state_ctrl.md R208,
10_state.md R36; log 26). -/
def LineFair (states : Nat → State) : Prop :=
  HeldIsCopied LineState.connected states ∧ HeldIsCopied LineState.ctl states ∧
    HeldIsCopied LineState.baud states ∧ HeldIsCopied LineState.databits states ∧
    HeldIsCopied LineState.parity states ∧ HeldIsCopied LineState.stopbits states

/-- An infinite run of the block: a sequence of steps from a reset state, weakly fair to the two clocks
(60_exceptions.md R255, 70_reset_and_hazards.md R271) and fair in the line-shadow draws (44_line_state_ctrl.md R208). A
run in which a clock stops for ever is none, nor is one in which a line state held for ever is never copied. -/
def InfiniteRun (states : Nat → State) (moves : Nat → Move) : Prop :=
  (∃ p dev, states 0 = State.resetWith p dev) ∧ InfinitePath states moves ∧ WeaklyFair moves ∧ LineFair states

/-- A property of the block that speaks of infinite runs is one that holds in every such run (60_exceptions.md R255). -/
def HoldsInEveryRun (property : (Nat → State) → (Nat → Move) → Prop) : Prop :=
  ∀ states moves, InfiniteRun states moves → property states moves

/-- A state is reachable if a finite run leads to it from a reset state (60_exceptions.md R255). -/
def State.Reachable (t : State) : Prop := ∃ p dev moves, FiniteRun moves (State.resetWith p dev) t

end Sys2Proof.Machine
end

