-- ==== Sys2Proof/Safety.lean ====
section
/-! DEFINITION. What counts as a safe state, in the terms the claims use: the invariants the spec states for the
FIFOs, the accepted-total handshake, the transmit bookkeeping and the agents' duties, and the quiescent state. Each
is decidable on a concrete state. -/

namespace Sys2Proof.Machine

/-! ## The FIFOs (20_memory.md R66, R75) -/

/-- The distance from pointer b forward to pointer a, `(a − b) mod 2^PW_f` (20_memory.md R66). -/
abbrev State.gap (f : Fifo) (a b : Ptr) (s : State) : Nat := ptrSub (s.modulus f) a b

/-- A pointer value of f has PW_f bits. -/
abbrev State.Fits (f : Fifo) (p : Ptr) (s : State) : Prop := p.toNat < s.modulus f

/-- Every pointer register of f, published and synchronised copies among them, has PW_f bits (10_state.md R23 to
R25). -/
abbrev State.PointersFit (f : Fifo) (s : State) : Prop :=
  s.Fits f (s.wptr f) ∧ s.Fits f (s.rptr f) ∧ s.Fits f (s.wpub f).b ∧ s.Fits f (s.rpub f).b ∧
    s.Fits f (s.wsync f).s1 ∧ s.Fits f (s.wsync f).s2 ∧ s.Fits f (s.rsync f).s1 ∧ s.Fits f (s.rsync f).s2

/-- The Gray register of each publisher is the image of its binary one (10_state.md R24). -/
abbrev State.GrayImages (f : Fifo) (s : State) : Prop :=
  (s.wpub f).g = bin2gray (s.wpub f).b ∧ (s.rpub f).g = bin2gray (s.rpub f).b

/-- From the oldest copy of the read pointer forward to the write pointer, the sum of the distances between each copy
and the next: `rsync2`, `rsync1`, `rpub`, `rptr`, `wsync2`, `wsync1`, `wpub`, `wptr` (20_memory.md R66 (b)). -/
def State.chainLength (f : Fifo) (s : State) : Nat :=
  s.gap f (gray2bin (s.rsync f).s1) (gray2bin (s.rsync f).s2) + s.gap f (s.rpub f).b (gray2bin (s.rsync f).s1) +
    s.gap f (s.rptr f) (s.rpub f).b + s.gap f (gray2bin (s.wsync f).s2) (s.rptr f) +
    s.gap f (gray2bin (s.wsync f).s1) (gray2bin (s.wsync f).s2) +
    s.gap f (s.wpub f).b (gray2bin (s.wsync f).s1) + s.gap f (s.wptr f) (s.wpub f).b

/-- The copies of f's pointers lie one behind the other within CAP_f: no copy leads the one it was taken from
(20_memory.md R66, R75). The bound is CAP_f, that of R66 (a), also for the distance of the copies of `rptr_f` from
`wptr_f`. R66 (b) says `count_f`, which a copy that lags exceeds; that CAP_f is meant is the model's reading, log 27
(DEDUCED). -/
abbrev State.FifoInv (f : Fifo) (s : State) : Prop :=
  s.PointersFit f ∧ s.GrayImages f ∧ s.chainLength f ≤ s.cap f

/-- The packet in flight is covered by the bytes EV counts, does not wrap and does not exceed the ceiling
(41_transmit.md R131, R133). -/
abbrev State.FlightInv (s : State) : Prop :=
  s.ev.txSize.toNat ≤ s.consView .tx ∧ s.ev.txSize.toNat ≤ s.span .tx (s.idx .tx (s.rptr .tx)) ∧
    s.ev.txSize.toNat ≤ s.cfg.ceil

/-- The invariant of both rings: the parameters are legal, no model fault is recorded, the copies of the pointers are
in order, the packet in flight is covered, `fg_src` has `fg_rem` bytes (10_state.md R37), and a round has queued at
most CAP_RX bytes (42_receive.md R155). -/
abbrev State.RingInv (s : State) : Prop :=
  s.cfg.legal = true ∧ s.refused = false ∧ s.faultPre = false ∧ s.FifoInv .rx ∧ s.FifoInv .tx ∧ s.FlightInv ∧
    s.fg.src.length = s.fg.rem.toNat ∧ s.ev.rxTotal.toNat ≤ s.cap .rx

/-- The storage arrays are in canonical form, every listed index below the capacity. -/
abbrev State.MemInv (s : State) : Prop :=
  s.cfg.legal = true ∧ cellsWf (s.cap .rx) s.memRx = true ∧ cellsWf (s.cap .tx) s.memTx = true

/-- The bytes queued in f, oldest first. -/
def State.content (f : Fifo) (s : State) : List Byte := s.ringRead f (s.idx f (s.rptr f)) (s.count f)

/-- The queued TX bytes that are not in the packet in flight. -/
def State.unsent (s : State) : List Byte := (s.content .tx).drop s.ev.txSize.toNat

/-- The bytes of the packets handed to DEV, joined (20_memory.md R74). -/
def wireBytes (out : List OutEvent) : List Byte :=
  out.flatMap fun e =>
    match e with
    | .tx bytes => bytes
    | .rxReq _ => []
    | .ntfRx _ => []
    | .ntfTx => []
    | .rsp _ _ => []

/-! ## The FG sequencer (10_state.md R37, 41_transmit.md R128, R141) -/

/-- A write is in progress. -/
abbrev State.writing (s : State) : Prop := s.fg.state = .waitAck ∨ s.fg.state = .push

/-- Bytes remain to be pushed exactly while a write is in progress; only an interrupt-context write runs on top of a
FLUSH; and an interrupt-context write never has more bytes left than the FG view has free (41_transmit.md R128,
R141). -/
abbrev State.SequencerInv (s : State) : Prop :=
  (s.fg.rem ≠ 0 ↔ s.writing) ∧ (s.fg.resume = true → s.writing ∧ cmdCtx s.fg.word = true) ∧
    (s.writing → cmdCtx s.fg.word = true → s.fg.rem.toNat ≤ s.availableToWrite .tx)

/-! ## The accepted-total handshake (45_cdc.md R226 to R228, 20_memory.md R76) -/

/-- 1 if two toggles differ, 0 if not. -/
def toggleDiff (a b : Bool) : Nat := if a = b then 0 else 1

/-- How often the toggle changes along its way `acc_req`, `req_s1`, `req_s2`, `acc_ack`, `ack_s1`, `ack_s2`. -/
def State.toggleChanges (s : State) : Nat :=
  toggleDiff s.fg.accReq s.ev.req.s1 + toggleDiff s.ev.req.s1 s.ev.req.s2 + toggleDiff s.ev.req.s2 s.ev.accAck +
    toggleDiff s.ev.accAck s.fg.ack.s1 + toggleDiff s.fg.ack.s1 s.fg.ack.s2

/-- At most one request is on its way, and none outside WAIT_ACK; EV's copy of the total is FG's once acknowledged,
and before that FG's without the bytes of the write that waits (45_cdc.md R226 to R228). -/
abbrev State.HandshakeInv (s : State) : Prop :=
  s.toggleChanges ≤ 1 ∧ (s.fg.state ≠ .waitAck → s.fg.ack.s2 = s.fg.accReq) ∧
    (s.ev.accAck = s.fg.accReq → s.ev.accEv = s.fg.accBin) ∧
    (s.ev.accAck ≠ s.fg.accReq → s.fg.accBin = s.ev.accEv + s.fg.rem.zeroExtend 32)

/-- The accepted total is the completed total, the bytes in the ring and the bytes still to push (41_transmit.md
R139). -/
abbrev State.LedgerInv (s : State) : Prop :=
  s.fg.accBin = s.ev.txCompleted + BitVec.ofNat 32 (s.count .tx) + s.fg.rem.zeroExtend 32

/-- The invariant of the transmit totals. -/
abbrev State.TotalsInv (s : State) : Prop := s.RingInv ∧ s.SequencerInv ∧ s.HandshakeInv ∧ s.LedgerInv

/-! ## The device's transmit-complete (60_exceptions.md R250, duty 3) -/

/-- A presented event carries the transmit-complete. -/
def State.eventCompletes (s : State) : Bool :=
  match s.devEvent with
  | some mask => mask.getLsbD 1
  | none => false

/-- The round in progress carries the transmit-complete. -/
def State.roundCompletes (s : State) : Bool := decide (s.ev.state ≠ .idle) && s.ev.mask.getLsbD 1

/-- A packet is in flight exactly when its one transmit-complete is owed, presented or in the round in progress, and
in exactly one of these places; the TX phase is entered only by a round that carries it. -/
abbrev State.DutyInv (s : State) : Prop :=
  s.cfg.legal = true ∧
    s.devOwes.toNat + s.eventCompletes.toNat + s.roundCompletes.toNat = (if s.ev.txSize = 0 then 0 else 1) ∧
    (s.ev.state = .txDone → s.ev.mask.getLsbD 1 = true)

/-! ## DONE (41_transmit.md R135) -/

/-- `busy_ev` follows `txSize` (10_state.md R30), and a FG copy of the TX read pointer that has reached the write
pointer is never younger than the matching copy of `busy_ev` (R135). -/
abbrev State.DoneInv (s : State) : Prop :=
  s.RingInv ∧ s.ev.busyEv = decide (s.ev.txSize ≠ 0) ∧
    (s.gap .tx s.fg.wptrTx (gray2bin s.fg.rsyncTx.s1) = 0 → s.fg.busy.s1 = false) ∧
    (s.gap .tx s.fg.wptrTx (gray2bin s.fg.rsyncTx.s2) = 0 → s.fg.busy.s2 = false)

/-! ## The reserved bits (10_state.md R33, R34) -/

/-- CTRL bits 7:3 and STATUS bits 7:1 are 0. -/
abbrev State.ReservedZero (s : State) : Prop := s.fg.ctrl &&& 0xF8 = 0 ∧ s.fg.status &&& 0xFE = 0

/-! ## Quiescence (60_exceptions.md R256) -/

/-- Both stages of a synchroniser equal its source. -/
def settled {α : Type} [DecidableEq α] (x : Sync2 α) (source : α) : Bool :=
  decide (x.s1 = source) && decide (x.s2 = source)

/-- Every crossing has settled: every publisher equals its pointer, every synchroniser its source, the handshake is at
rest, the line shadow equals the DEV signals, and `gate_ev` and `busy_ev` hold what the next EV edge loads (R256; log
19). -/
def State.crossingsSettled (s : State) : Bool :=
  decide (s.fg.rpubRx.b = s.fg.rptrRx) && decide (s.fg.wpubTx.b = s.fg.wptrTx) &&
    decide (s.ev.wpubRx.b = s.ev.wptrRx) && decide (s.ev.rpubTx.b = s.ev.rptrTx) &&
    settled s.fg.wsyncRx s.ev.wpubRx.g && settled s.fg.rsyncTx s.ev.rpubTx.g &&
    settled s.ev.rsyncRx s.fg.rpubRx.g && settled s.ev.wsyncTx s.fg.wpubTx.g &&
    settled s.fg.busy s.ev.busyEv && settled s.fg.gate s.ev.gateEv && settled s.fg.ack s.ev.accAck &&
    settled s.fg.ddone s.dev.done && settled s.ev.req s.fg.accReq &&
    settled s.ev.rxn (ctrlRxne s.fg.ctrl) && settled s.ev.txn (ctrlTxne s.fg.ctrl) &&
    decide (s.ev.accAck = s.fg.accReq) && decide (s.fg.shadow = s.dev.line) &&
    decide (s.ev.gateEv = gateOpen s.dev) && decide (s.ev.busyEv = decide (s.ev.txSize ≠ 0))

/-- The host has no command left to present: none stands on the port, and no move lined up presents one (R256). -/
def State.hostFinished (s : State) : Bool := !s.port.valid && s.sched.all fun m => !m.presents

/-- The quiescent state, for the DEV signals held: the host has no command left to present, both sequencers are idle,
no launch is enabled, DEV presents no event, and every crossing has settled (R256). A state with `fault_pre` or
`refused` set is never final (R258). -/
def State.quiescent (s : State) : Bool :=
  !s.faultPre && !s.refused && s.hostFinished && decide (s.fg.state = .idle) && decide (s.ev.state = .idle) &&
    !s.launchEn && decide (s.devEvent = none) && s.crossingsSettled

/-- The end state of a finite run: the quiescent state it leads to from reset (R256). A run that reaches none has no
end state. -/
def EndState (p : Params) (dev : DevSignals) (moves : List Move) (t : State) : Prop :=
  FiniteRun moves (State.resetWith p dev) t ∧ t.quiescent = true

end Sys2Proof.Machine
end

