-- ==== Sys2Proof/Certificates/Slice0/Obligations.lean ====
section
/-! DEFINITION. The statements for the provers. Each docstring names the rules of spec/ it rests on. In a command's
statement `exec i s = .next t` gives the whole next state, so whatever the record update does not name is unchanged. -/

open Sys2Proof Sys2Proof.Machine

/-! ## Encoding (30_encoding.md) -/

/-- Decoding the encoding of a well-formed command gives it back, every operand at every value (R81, R83, R86, R88,
R93). -/
def Obligations.DecodeEncodeRoundTrip : Prop :=
  ∀ i : Instr, i.wellFormed = true → decode (encode i).1 (encode i).2 = .ok i

/-- Encoding a decoded command gives the word with its ignored bits cleared, and its source bytes (R83, R93). -/
def Obligations.EncodeDecodeClearsIgnoredBits : Prop :=
  ∀ (w : Word) (data : List Byte) (i : Instr), decode w data = .ok i →
    (encode i).1 = w &&& i.usedBits ∧ (encode i).2 = data.take (sourceLength w) ∧ i.wellFormed = true

/-- R88. Every word is exactly one command, the one whose row of the opcode table it matches, and it matches no other
row; RSV is looked at first, then OP = 0xF. -/
def Obligations.EveryWordMatchesExactlyOneRow : Prop :=
  ∀ (w : Word) (data : List Byte), sourceLength w ≤ data.length →
    ∃ i : Instr, decode w data = .ok i ∧ i.row ∈ opcodeTable ∧
      (∀ r ∈ opcodeTable, r.fits w = true ↔ r = i.row) ∧
      (cmdRsv w ≠ 0 → i.row.mask = 0x07000000) ∧
      (cmdRsv w = 0 → cmdOp w = 0xF → i = .illegalOp) ∧
      (cmdRsv w = 0 → cmdOp w ≠ 0xF → i.row.value.extractLsb' 28 4 = cmdOp w ∧ i ≠ .illegalOp)

/-- Words of 95_test_vectors.md T-DEC decode to the commands written there (R86, R87, R93). One word, 0x78FF0002, is not
of that table: it is the table's 0x78FFFFFF with SIZE shortened to 2, so that its source bytes can be written out, and its
fields are read by R81 and R83. -/
def Obligations.SpecSampleWordsDecode : Prop :=
  decode 0x10123456 [] = .ok .avail ∧ decode 0x5000FFFF [] = .ok (.readb 0xFFFF) ∧
    decode 0x68410000 [] = .ok (.write1 true 0x41) ∧
    decode 0x78FF0002 [7, 8, 9] = .ok (.writeb true 2 [7, 8]) ∧
    decode 0x88000000 [] = .ok (.flush true) ∧ decode 0xE0050000 [] = .ok (.setctrl 0x05) ∧
    decode 0xF8000000 [] = .ok .illegalOp ∧ decode 0x74000005 [] = .ok .illegalRsv4 ∧
    decode 0x7FFFFFFF [] = .ok .illegalRsv7

/-! ## Gray code and ring-buffer primitives (20_memory.md, 40_ringbuffer.md) -/

/-- R63. The Gray code on PW-bit values: its formula, the bits of its inverse, that the two are inverse bijections,
and that neighbours differ in exactly one bit, the wrap included. -/
def Obligations.GrayCodeOnPointerBits : Prop :=
  ∀ (pw : Nat) (b : Ptr), 1 ≤ pw → pw ≤ 16 → b.toNat < 2 ^ pw →
    (bin2gray b).toNat < 2 ^ pw ∧ (gray2bin b).toNat < 2 ^ pw ∧
    bin2gray b = b ^^^ (b >>> 1) ∧
    (gray2bin b).getLsbD (pw - 1) = b.getLsbD (pw - 1) ∧
    (∀ i, i + 1 < pw → (gray2bin b).getLsbD i = ((gray2bin b).getLsbD (i + 1) ^^ b.getLsbD i)) ∧
    gray2bin (bin2gray b) = b ∧ bin2gray (gray2bin b) = b ∧
    ∃ k, k < pw ∧ bin2gray b ^^^ bin2gray (ptrAdd (2 ^ pw) b 1) = BitVec.ofNat 16 (2 ^ k)

/-- R103. A push within its precondition writes its n bytes from the write index on and no other byte, advances the
write pointer modulo 2^PW, and changes nothing else; n = 0 changes nothing; n = span brings the index to 0 and flips
the lap bit. (That `canPush` also asks for n source bytes is the model's reading of "at least n bytes", log 13.) -/
def Obligations.PushChunkWritesItsSpan : Prop :=
  ∀ (f : Fifo) (src : List Byte) (n : Nat) (s : State), s.MemInv → s.Fits f (s.wptr f) →
    s.canPush f src n = true →
    let t := s.pushChunk f src n
    let i := s.idx f (s.wptr f)
    t = s.setProducer f (t.mem f) (t.wptr f) ∧
    (∀ k, k < n → cellRead (t.mem f) (i + k) = src.getD k 0) ∧
    (∀ a, a < i ∨ i + n ≤ a → cellRead (t.mem f) a = cellRead (s.mem f) a) ∧
    (t.wptr f).toNat = ((s.wptr f).toNat + n) % 2 ^ s.cfg.pw f ∧
    (n = 0 → t = s) ∧
    (n = s.span f i → t.idx f (t.wptr f) = 0 ∧
      (t.wptr f).getLsbD (s.cfg.aw f) = !(s.wptr f).getLsbD (s.cfg.aw f))

/-- R104. A pop within its precondition gives the n bytes from the read index on, advances the read pointer modulo
2^PW and changes nothing else; n = 0 gives no byte and changes nothing. -/
def Obligations.PopChunkReadsItsSpan : Prop :=
  ∀ (f : Fifo) (n : Nat) (s : State), s.cfg.legal = true → s.Fits f (s.rptr f) → s.canPop f n = true →
    let i := s.idx f (s.rptr f)
    let t := (s.popChunk f n).2
    (s.popChunk f n).1.length = n ∧
    (∀ k, k < n → (s.popChunk f n).1.getD k 0 = cellRead (s.mem f) (i + k)) ∧
    t = s.setRptr f (t.rptr f) ∧
    (t.rptr f).toNat = ((s.rptr f).toNat + n) % 2 ^ s.cfg.pw f ∧
    (n = 0 → s.popChunk f n = ([], s))

/-- A primitive used beyond its precondition moves nothing and records the model fault, and a state that records one
has no next state (R106, R258; that it moves nothing is the model's choice, log 10). -/
def Obligations.BrokenPreconditionIsAModelFault : Prop :=
  (∀ (f : Fifo) (src : List Byte) (n : Nat) (s : State),
      (s.availableToWrite f < n ∨ s.span f (s.idx f (s.wptr f)) < n) →
        s.pushChunk f src n = { s with faultPre := true }) ∧
    (∀ (f : Fifo) (n : Nat) (s : State),
      (s.availableToRead f < n ∨ s.span f (s.idx f (s.rptr f)) < n) →
        s.popChunk f n = ([], { s with faultPre := true })) ∧
    ∀ s : State, s.refused = false → s.faultPre = true → step s = .fault .precondition

/-! ## The FG commands that answer at once

`s.fg.state = .idle → s.fg.resume = false` says that no preempting write is pending in IDLE (41_transmit.md R141). With
it an answer changes the output history alone, whether the command is taken in IDLE or preempts a held one. -/

/-- R201. NOP is OP = 0x0 whatever CTX, DATA and SIZE hold, answers 0 and changes nothing else. -/
def Obligations.NopAnswersZero : Prop :=
  (∀ (w : Word) (data : List Byte), cmdOp w = 0 → cmdRsv w = 0 → decode w data = .ok .nop) ∧
    decode 0x00000000 [] = .ok .nop ∧
    ∀ s : State, (s.fg.state = .idle → s.fg.resume = false) →
      exec .nop s = .next { s with out := s.out ++ [.rsp 0 []] }

/-- AVAIL answers the FG view of the RX occupancy and AVAILW the FG view of the free TX space; neither changes
anything else (R79, R129, R151; R79's sentence on a repeated query is read by log 28 and not stated here). -/
def Obligations.OccupancyQueriesAnswerTheViews : Prop :=
  ∀ s : State, (s.fg.state = .idle → s.fg.resume = false) →
    exec .avail s = .next { s with out := s.out ++ [.rsp (BitVec.ofNat 32 (s.consView .rx)) []] } ∧
    exec .availw s = .next { s with out := s.out ++ [.rsp (BitVec.ofNat 32 (s.cfg.capTx - s.prodView .tx)) []] }

/-- PEEK answers the byte at the RX read index, zero-extended, or NODATA on an empty view, and changes nothing else
(R79, R105, R152; R79's sentence on a repeated query is read by log 28 and not stated here). -/
def Obligations.PeekAnswersNextByteOrNoData : Prop :=
  ∀ s : State, (s.fg.state = .idle → s.fg.resume = false) →
    (s.consView .rx = 0 → exec .peek s = .next { s with out := s.out ++ [.rsp 0xFFFFFFFF []] }) ∧
    (s.consView .rx ≠ 0 →
      exec .peek s = .next
        { s with out := s.out ++
            [.rsp ((cellRead s.memRx (s.idx .rx s.fg.rptrRx)).zeroExtend 32) []] } ∧
      (cellRead s.memRx (s.idx .rx s.fg.rptrRx)).zeroExtend 32 ≠ (0xFFFFFFFF : Word))

/-- DONE answers 1 exactly when the FG view of the TX ring is empty and no packet is busy, and changes nothing else
(R79, R135; R79's sentence on a repeated query is read by log 28 and not stated here). -/
def Obligations.DoneAnswersWhetherTxIsIdle : Prop :=
  ∀ s : State, (s.fg.state = .idle → s.fg.resume = false) →
    exec .done s = .next
      { s with out := s.out ++ [.rsp (if s.prodView .tx = 0 ∧ s.fg.busy.s2 = false then 1 else 0) []] }

/-- CONNECTED and BAUD answer the shadow registers and change nothing else (R79, R202, R203; R79's sentence on a repeated
query is read by log 28 and not stated here). -/
def Obligations.ConnectedAndBaudAnswerTheShadow : Prop :=
  ∀ s : State, (s.fg.state = .idle → s.fg.resume = false) →
    exec .connected s = .next { s with out := s.out ++ [.rsp (if s.fg.shadow.connected then 1 else 0) []] } ∧
    exec .baud s = .next { s with out := s.out ++ [.rsp s.fg.shadow.baud []] }

/-- LINEFMT answers the line coding and the control lines in their bit places and changes nothing else (R204). -/
def Obligations.LinefmtPacksTheLineState : Prop :=
  ∀ s : State, (s.fg.state = .idle → s.fg.resume = false) →
    ∃ w : Word, exec .linefmt s = .next { s with out := s.out ++ [.rsp w []] } ∧
      w.extractLsb' 0 8 = s.fg.shadow.databits ∧ w.extractLsb' 8 8 = s.fg.shadow.parity ∧
      w.extractLsb' 16 8 = s.fg.shadow.stopbits ∧ w.getLsbD 24 = s.fg.shadow.ctl.getLsbD 0 ∧
      w.getLsbD 25 = s.fg.shadow.ctl.getLsbD 1 ∧ w.extractLsb' 26 6 = 0

/-- GETCTRL answers STATUS in bits 15:8 and CTRL in bits 7:0, the rest 0, and changes nothing else (R79, R205; R79's
sentence on a repeated query is read by log 28 and not stated here). -/
def Obligations.GetctrlAnswersStatusAndCtrl : Prop :=
  ∀ s : State, (s.fg.state = .idle → s.fg.resume = false) →
    ∃ w : Word, exec .getctrl s = .next { s with out := s.out ++ [.rsp w []] } ∧
      w.extractLsb' 0 8 = s.fg.ctrl ∧ w.extractLsb' 8 8 = s.fg.status ∧ w.extractLsb' 16 16 = 0

/-- SETCTRL writes DATA[2:0] to CTRL[2:0] and 0 to the reserved bits, answers 0, and changes nothing else, STATUS and a
held command among the rest (R206). -/
def Obligations.SetctrlWritesTheLowThreeBits : Prop :=
  ∀ (data : Byte) (s : State), (s.fg.state = .idle → s.fg.resume = false) →
    ∃ c : Byte,
      exec (.setctrl data) s = .next { s with fg := { s.fg with ctrl := c }, out := s.out ++ [.rsp 0 []] } ∧
      ∀ k, c.getLsbD k = (decide (k < 3) && data.getLsbD k)

/-- Every illegal row answers NODATA, sets STATUS.ILL, keeps the other STATUS bits, and changes nothing else (R207). -/
def Obligations.IllegalWordsSetIllAndNothingElse : Prop :=
  ∀ (i : Instr) (s : State), (s.fg.state = .idle → s.fg.resume = false) →
    i ∈ [.illegalOp, .illegalRsv1, .illegalRsv2, .illegalRsv3, .illegalRsv4, .illegalRsv5, .illegalRsv6,
      .illegalRsv7] →
    ∃ st : Byte,
      exec i s = .next { s with fg := { s.fg with status := st }, out := s.out ++ [.rsp 0xFFFFFFFF []] } ∧
      ∀ k, st.getLsbD k = (decide (k = 0) || s.fg.status.getLsbD k)

/-- READ answers NODATA and changes nothing else on an empty view; otherwise it answers the byte at the read index,
advances the RX read pointer by 1 modulo 2^PW, and changes nothing else, and the view is one byte less (R153). -/
def Obligations.ReadPopsOneByte : Prop :=
  ∀ s : State, s.cfg.legal = true → (s.fg.state = .idle → s.fg.resume = false) →
    (s.consView .rx = 0 → exec .read s = .next { s with out := s.out ++ [.rsp 0xFFFFFFFF []] }) ∧
    (s.consView .rx ≠ 0 →
      let t := { s with
        fg := { s.fg with rptrRx := BitVec.ofNat 16 ((s.fg.rptrRx.toNat + 1) % 2 ^ s.cfg.pw .rx) }
        out := s.out ++ [.rsp ((cellRead s.memRx (s.idx .rx s.fg.rptrRx)).zeroExtend 32) []] }
      exec .read s = .next t ∧ t.consView .rx + 1 = s.consView .rx)

/-- READB answers min(SIZE, view) with that many bytes from the read index on, across the wrap, and advances the RX read
pointer over them; nothing else changes (R69, R154). -/
def Obligations.ReadbPopsWhatIsThere : Prop :=
  ∀ (size : Count) (s : State), s.cfg.legal = true → s.consView .rx ≤ s.cfg.capRx →
    (s.fg.state = .idle → s.fg.resume = false) →
    let k := min size.toNat (s.consView .rx)
    let t := { s with
      fg := { s.fg with rptrRx := BitVec.ofNat 16 ((s.fg.rptrRx.toNat + k) % 2 ^ s.cfg.pw .rx) }
      out := s.out ++ [.rsp (BitVec.ofNat 32 k)
        ((List.range k).map fun j => cellRead s.memRx ((s.idx .rx s.fg.rptrRx + j) % s.cfg.capRx))] }
    exec (.readb size) s = .next t ∧ t.consView .rx + k = s.consView .rx

/-! ## The write commands and FLUSH (41_transmit.md) -/

/-- With the gate closed a write answers 0 and changes nothing else; with the gate open, in interrupt context or
non-blocking mode, so does a write that finds no free space, and in any mode one of SIZE 0 (R121, R123, R241). -/
def Obligations.WritesTurnedAwayAnswerZero : Prop :=
  ∀ (ctx : Bool) (data : Byte) (size : Count) (source : List Byte) (s : State),
    (s.fg.state = .idle → s.fg.resume = false) →
    (s.fg.gate.s2 = false →
      exec (.write1 ctx data) s = .next { s with out := s.out ++ [.rsp 0 []] } ∧
      exec (.writeb ctx size source) s = .next { s with out := s.out ++ [.rsp 0 []] }) ∧
    (s.cfg.capTx - s.prodView .tx = 0 → (ctx = true ∨ s.fg.ctrl.getLsbD 0 = false) →
      exec (.write1 ctx data) s = .next { s with out := s.out ++ [.rsp 0 []] } ∧
      exec (.writeb ctx size source) s = .next { s with out := s.out ++ [.rsp 0 []] }) ∧
    exec (.writeb ctx 0 source) s = .next { s with out := s.out ++ [.rsp 0 []] }

/-- With the gate open a WRITEB accepts SIZE bytes, clamped to the free space of the FG view in interrupt context or
non-blocking mode; if that is not 0 it adds the count to `acc_bin`, toggles `acc_req`, latches the word, the count and
the source bytes, notes a FLUSH it interrupts, and waits for the acknowledge. Nothing else changes (R123, R226). -/
def Obligations.WritebBeginsWithItsAcceptedCount : Prop :=
  ∀ (ctx : Bool) (size : Count) (source : List Byte) (acc : Nat) (s : State), s.fg.gate.s2 = true →
    (ctx = true ∨ s.fg.ctrl.getLsbD 0 = false → acc = min size.toNat (s.cfg.capTx - s.prodView .tx)) →
    (ctx = false → s.fg.ctrl.getLsbD 0 = true → acc = size.toNat) →
    0 < acc →
    exec (.writeb ctx size source) s = .next
      { s with fg :=
          { s.fg with
            accBin := s.fg.accBin + BitVec.ofNat 32 acc
            accReq := !s.fg.accReq
            word := s.port.cmd
            acc := BitVec.ofNat 16 acc
            rem := BitVec.ofNat 16 acc
            src := source.take acc
            resume := if s.fg.state = .flushWait then true else s.fg.resume
            state := .waitAck } }

/-- With the gate open WRITE1 begins the write of its one byte, when it may wait for space or there is some (R121,
R123). -/
def Obligations.WriteOneBeginsTheWriteOfItsByte : Prop :=
  ∀ (ctx : Bool) (data : Byte) (s : State), s.fg.gate.s2 = true →
    ((ctx = false ∧ s.fg.ctrl.getLsbD 0 = true) ∨ 0 < s.cfg.capTx - s.prodView .tx) →
    exec (.write1 ctx data) s = .next
      { s with fg :=
          { s.fg with
            accBin := s.fg.accBin + 1
            accReq := !s.fg.accReq
            word := s.port.cmd
            acc := 1
            rem := 1
            src := [data]
            resume := if s.fg.state = .flushWait then true else s.fg.resume
            state := .waitAck } }

/-- FLUSH in interrupt context answers 0 and changes nothing else; otherwise it enters FLUSH_WAIT and changes nothing
else (R136, R283). That the foreground FLUSH leaves `fg_word` as it was too is the model's, log 14 (DEDUCED): R37, which
calls it the latched word of the command in progress, leaves it open. -/
def Obligations.FlushWaitsOnlyInForeground : Prop :=
  ∀ s : State,
    exec (.flush false) s = .next { s with fg := { s.fg with state := .flushWait } } ∧
    ((s.fg.state = .idle → s.fg.resume = false) →
      exec (.flush true) s = .next { s with out := s.out ++ [.rsp 0 []] })

/-- What the sequencer does at an edge that takes no command: in IDLE nothing (R252), and otherwise the later edges that
wait: WAIT_ACK goes to PUSH exactly on the acknowledge (R124), PUSH without free space changes nothing (R127), and
FLUSH_WAIT ends with result 0 exactly when the FG view is empty and `ddone_s2` is 1 (R136, its pseudocode; its remark and
R229's that DEV has then held `dev_done` across two FG edges are read by log 29, DEDUCED, and not stated here). -/
def Obligations.HeldCommandsWaitForTheirCondition : Prop :=
  ∀ s : State,
    (s.fg.state = .idle → s.fgContinue = s) ∧
    (s.fg.state = .waitAck →
      s.fgContinue = { s with fg := { s.fg with state := if s.fg.ack.s2 = s.fg.accReq then .push else .waitAck } }) ∧
    (s.fg.state = .push → s.cfg.capTx - s.prodView .tx = 0 → s.fgContinue = s) ∧
    (s.fg.state = .flushWait → s.fg.resume = false →
      s.fgContinue =
        if s.prodView .tx = 0 ∧ s.fg.ddone.s2 = true then
          { s with fg := { s.fg with state := .idle }, out := s.out ++ [.rsp 0 []] }
        else s)

/-- A push edge with free space moves min(fg_rem, free, span) bytes of the source to the end of the ring, in order, and
keeps the rest; when none remain it answers the accepted count and goes back to FLUSH_WAIT or IDLE (R125, R126, R120).
Nothing else changes. -/
def Obligations.PushEdgeQueuesOneSpan : Prop :=
  ∀ s : State, s.RingInv → s.MemInv → s.fg.state = .push → 0 < s.cfg.capTx - s.prodView .tx → s.fg.rem ≠ 0 →
    let n := min (min s.fg.rem.toNat (s.cfg.capTx - s.prodView .tx)) (s.cfg.capTx - s.idx .tx s.fg.wptrTx)
    let t := s.fgContinue
    0 < n ∧ t.content .tx = s.content .tx ++ s.fg.src.take n ∧
    (∀ a, a < s.idx .tx s.fg.wptrTx ∨ s.idx .tx s.fg.wptrTx + n ≤ a → cellRead t.memTx a = cellRead s.memTx a) ∧
    t = { s with
      memTx := t.memTx
      fg := { s.fg with
        wptrTx := BitVec.ofNat 16 ((s.fg.wptrTx.toNat + n) % 2 ^ s.cfg.pw .tx)
        src := s.fg.src.drop n
        rem := s.fg.rem - BitVec.ofNat 16 n
        state := if s.fg.rem.toNat = n then (if s.fg.resume then .flushWait else .idle) else .push
        resume := if s.fg.rem.toNat = n then false else s.fg.resume }
      out := if s.fg.rem.toNat = n then s.out ++ [.rsp (s.fg.acc.zeroExtend 32) []] else s.out }

/-! ## Preemption (41_transmit.md R141) -/

/-- A presented command is taken exactly in IDLE, or with CTX = 1 while a foreground write holds for space or a FLUSH
waits and no preempting write is in progress (R80, R141). A presented command stands on the port unchanged, whatever the
host would newly present, until an FG edge takes it, and that edge ends its presentation (R80, R251 "held until taken"),
its word left on the wires (log 23, DEDUCED). On an empty port the host's presentation stands, any word and data, unless
it is a second foreground command: then the edge is the one at which the host presents nothing (R251; that such a
presentation is dropped is the model's, log 8, and what counts as a pending foreground command is its reading, log 9).
EV edges and DEV steps leave the port. -/
def Obligations.CommandsAreTakenInIdleOrByPreemption : Prop :=
  (∀ s : State, s.takesCommand = true ↔
    s.port.valid = true ∧
      (s.fg.state = .idle ∨
        (s.port.cmd.getLsbD 27 = true ∧ s.fg.resume = false ∧
          ((s.fg.state = .push ∧ s.cfg.capTx - s.prodView .tx = 0) ∨ s.fg.state = .flushWait)))) ∧
  (∀ (s t : State) (present : Option HostCmd) (copy : LineState), s.port.valid = true →
    s.fgEdge present copy = .next t →
    t.port = if s.takesCommand then { s.port with valid := false } else s.port) ∧
  (∀ (s : State) (c : HostCmd) (copy : LineState), s.port.valid = false →
    let pending := s.fg.state = .flushWait ∨
      ((s.fg.state = .waitAck ∨ s.fg.state = .push) ∧ (s.fg.resume = true ∨ s.fg.word.getLsbD 27 = false))
    (c.word.getLsbD 27 = false → pending → s.fgEdge (some c) copy = s.fgEdge none copy) ∧
    (c.word.getLsbD 27 = true ∨ ¬pending →
      s.fgEdge (some c) copy =
        ({ s with port := { valid := true, cmd := c.word, wdata := c.data } } : State).fgEdge none copy)) ∧
  (∀ (s : State) (answer : List Byte), (s.evEdge answer).port = s.port) ∧
  ∀ (s : State) (signals : DevSignals) (event : Option (BitVec 2)), (s.devStep signals event).port = s.port

/-- A command that preempts a write held for space completes at the edge that takes it, with one answer, and leaves the
held write, the TX ring and the accepted total as they were (R141). -/
def Obligations.PreemptingCommandLeavesTheHeldWrite : Prop :=
  ∀ s : State, s.fg.state = .push → s.cfg.capTx - s.prodView .tx = 0 → s.takesCommand = true →
    ∃ t : State, s.takeCommand = .next t ∧
      t.fg.state = .push ∧ t.fg.word = s.fg.word ∧ t.fg.acc = s.fg.acc ∧ t.fg.rem = s.fg.rem ∧
      t.fg.src = s.fg.src ∧ t.fg.resume = s.fg.resume ∧ t.fg.accBin = s.fg.accBin ∧ t.fg.accReq = s.fg.accReq ∧
      t.fg.wptrTx = s.fg.wptrTx ∧ t.memTx = s.memTx ∧ ∃ w bytes, t.out = s.out ++ [.rsp w bytes]

/-- A command that preempts a waiting FLUSH either answers at that edge and leaves FLUSH_WAIT in place, or is a write
with accepted bytes, which waits for its acknowledge and will resume the FLUSH (R141). -/
def Obligations.PreemptingCommandKeepsTheFlush : Prop :=
  ∀ s : State, s.fg.state = .flushWait → s.takesCommand = true →
    ∃ t : State, s.takeCommand = .next t ∧
      ((t.fg.state = .flushWait ∧ t.fg.resume = false ∧ ∃ w bytes, t.out = s.out ++ [.rsp w bytes]) ∨
        (t.fg.state = .waitAck ∧ t.fg.resume = true ∧ t.out = s.out ∧ 0 < t.fg.rem.toNat))

/-! ## Steps, edges and crossings (45_cdc.md, 60_exceptions.md) -/

/-- A step makes the next move. At an FG edge that takes a command it is the meaning of the decoded command; at one that
takes none it is the held command's continuation, which in IDLE is nothing; either is followed by the other parts of the
edge on pre-edge values (R252). At an EV edge and in a DEV step it is that edge or step (R253, R254). That the next move
is the first of `State.sched`, and a free one where that list is empty, is the model's choice, log 1 (DESIGN CHOICE). -/
def Obligations.StepRunsTheDecodedCommand : Prop :=
  ∀ s : State, s.refused = false → s.faultPre = false →
    (∀ (present : Option HostCmd) (copy : LineState) (rest : List Move), s.sched = .fgEdge present copy :: rest →
      let p := s.moveTaken.hostPresent present
      (∀ i, p.takesCommand = true → p.fetch = .ok i →
        step s =
          match exec i p.portTaken with
          | .next t => .next (State.fgCrossings copy p t)
          | .fault r => .fault r
          | .refused r => .refused r) ∧
      (p.takesCommand = false → step s = .next (State.fgCrossings copy p p.fgContinue))) ∧
    (∀ (answer : List Byte) (rest : List Move), s.sched = .evEdge answer :: rest →
      step s = .next (s.moveTaken.evEdge answer)) ∧
    (∀ (signals : DevSignals) (event : Option (BitVec 2)) (rest : List Move), s.sched = .devStep signals event :: rest →
      step s = .next (s.moveTaken.devStep signals event)) ∧
    (s.sched = [] → step s = step (s.lineUp (Config.freeMove s.draws)))

/-- An FG edge writes FG registers, `mem_TX` and the port alone, and appends at most one event, an answer (R20, R109,
R252). -/
def Obligations.FgEdgeWritesOnlyItsDomain : Prop :=
  ∀ (s t : State) (present : Option HostCmd) (copy : LineState), s.fgEdge present copy = .next t →
    t = { s with fg := t.fg, memTx := t.memTx, port := t.port, out := t.out, faultPre := t.faultPre } ∧
    (s.RingInv → t.faultPre = false) ∧
    (t.out = s.out ∨ ∃ w bytes, t.out = s.out ++ [.rsp w bytes])

/-- An EV edge writes EV registers, `mem_RX` and DEV's handshakes alone, and answers no command (R20, R109, R253). -/
def Obligations.EvEdgeWritesOnlyItsDomain : Prop :=
  ∀ (s : State) (answer : List Byte),
    let t := s.evEdge answer
    t = { s with
      ev := t.ev, memRx := t.memRx, out := t.out, faultPre := t.faultPre, devEvent := t.devEvent,
      devOwes := t.devOwes } ∧
    (s.RingInv → t.faultPre = false) ∧
    ∃ l, t.out = s.out ++ l ∧ ∀ w bytes, OutEvent.rsp w bytes ∉ l

/-- A DEV step sets DEV's signals, presents an event only where none is held and bit 1 only when it is owed, and changes
no block register and no output (R250, R254). The bookkeeping of duty 3 in the third clause, `devOwes`, owed before and
cleared after, is the model's, log 8 (DESIGN CHOICE). -/
def Obligations.DevStepChangesNoBlockRegister : Prop :=
  ∀ (s : State) (signals : DevSignals) (event : Option (BitVec 2)),
    let t := s.devStep signals event
    t = { s with dev := signals, devEvent := t.devEvent, devOwes := t.devOwes } ∧
    (∀ m, s.devEvent = some m → t.devEvent = some m ∧ t.devOwes = s.devOwes) ∧
    (∀ m, s.devEvent = none → t.devEvent = some m → m.getLsbD 1 = true → s.devOwes = true ∧ t.devOwes = false)

/-- R220. At every edge of its domain a publisher that differs from its pointer moves one step toward it, its Gray
register with it, and one that equals it stays. -/
def Obligations.PublishersMoveOneStep : Prop :=
  let moves := fun (m : Nat) (p : Ptr) (old new : Publisher) =>
    (old.b = p → new = old) ∧
      (old.b ≠ p → new.b = BitVec.ofNat 16 ((old.b.toNat + 1) % m) ∧ new.g = bin2gray new.b)
  (∀ (s t : State) (present : Option HostCmd) (copy : LineState), s.fgEdge present copy = .next t →
    moves (2 ^ s.cfg.pw .rx) s.fg.rptrRx s.fg.rpubRx t.fg.rpubRx ∧
      moves (2 ^ s.cfg.pw .tx) s.fg.wptrTx s.fg.wpubTx t.fg.wpubTx) ∧
    ∀ (s : State) (answer : List Byte),
      moves (2 ^ s.cfg.pw .rx) s.ev.wptrRx s.ev.wpubRx (s.evEdge answer).ev.wpubRx ∧
        moves (2 ^ s.cfg.pw .tx) s.ev.rptrTx s.ev.rpubTx (s.evEdge answer).ev.rpubTx

/-- At every edge every two-stage synchroniser of the domain takes its source into the first stage and the old first
stage into the second, for each crossing of R224 (R223). -/
def Obligations.SynchronisersShiftTheirSources : Prop :=
  (∀ (s t : State) (present : Option HostCmd) (copy : LineState), s.fgEdge present copy = .next t →
    t.fg.wsyncRx = ⟨s.ev.wpubRx.g, s.fg.wsyncRx.s1⟩ ∧ t.fg.rsyncTx = ⟨s.ev.rpubTx.g, s.fg.rsyncTx.s1⟩ ∧
      t.fg.busy = ⟨s.ev.busyEv, s.fg.busy.s1⟩ ∧ t.fg.gate = ⟨s.ev.gateEv, s.fg.gate.s1⟩ ∧
      t.fg.ack = ⟨s.ev.accAck, s.fg.ack.s1⟩ ∧ t.fg.ddone = ⟨s.dev.done, s.fg.ddone.s1⟩) ∧
    ∀ (s : State) (answer : List Byte),
      let t := s.evEdge answer
      t.ev.rsyncRx = ⟨s.fg.rpubRx.g, s.ev.rsyncRx.s1⟩ ∧ t.ev.wsyncTx = ⟨s.fg.wpubTx.g, s.ev.wsyncTx.s1⟩ ∧
        t.ev.req = ⟨s.fg.accReq, s.ev.req.s1⟩ ∧ t.ev.rxn = ⟨s.fg.ctrl.getLsbD 1, s.ev.rxn.s1⟩ ∧
        t.ev.txn = ⟨s.fg.ctrl.getLsbD 2, s.ev.txn.s1⟩

/-- At an FG edge every bit of the line shadow keeps its value or takes the DEV bit; and for every such choice, bit by
bit, there is a draw with which the edge leaves the shadow at it. In every infinite run a line state that DEV holds from
some state on is in the shadow from some later state on (R208, R36, R255; that the run's fairness in the draws says so
of each signal is the model's reading of R208, log 26, DEDUCED). -/
def Obligations.LineShadowBitsAreOldOrNew : Prop :=
  (∀ (s t : State) (present : Option HostCmd) (copy : LineState), s.fgEdge present copy = .next t →
    (t.fg.shadow.connected = s.fg.shadow.connected ∨ t.fg.shadow.connected = s.dev.line.connected) ∧
    ∀ k,
      (t.fg.shadow.ctl.getLsbD k = s.fg.shadow.ctl.getLsbD k ∨ t.fg.shadow.ctl.getLsbD k = s.dev.line.ctl.getLsbD k) ∧
      (t.fg.shadow.baud.getLsbD k = s.fg.shadow.baud.getLsbD k ∨
        t.fg.shadow.baud.getLsbD k = s.dev.line.baud.getLsbD k) ∧
      (t.fg.shadow.databits.getLsbD k = s.fg.shadow.databits.getLsbD k ∨
        t.fg.shadow.databits.getLsbD k = s.dev.line.databits.getLsbD k) ∧
      (t.fg.shadow.parity.getLsbD k = s.fg.shadow.parity.getLsbD k ∨
        t.fg.shadow.parity.getLsbD k = s.dev.line.parity.getLsbD k) ∧
      (t.fg.shadow.stopbits.getLsbD k = s.fg.shadow.stopbits.getLsbD k ∨
        t.fg.shadow.stopbits.getLsbD k = s.dev.line.stopbits.getLsbD k)) ∧
    (∀ (s : State) (present : Option HostCmd) (l : LineState),
      (l.connected = s.fg.shadow.connected ∨ l.connected = s.dev.line.connected) →
      (∀ k, l.ctl.getLsbD k = s.fg.shadow.ctl.getLsbD k ∨ l.ctl.getLsbD k = s.dev.line.ctl.getLsbD k) →
      (∀ k, l.baud.getLsbD k = s.fg.shadow.baud.getLsbD k ∨ l.baud.getLsbD k = s.dev.line.baud.getLsbD k) →
      (∀ k, l.databits.getLsbD k = s.fg.shadow.databits.getLsbD k ∨
        l.databits.getLsbD k = s.dev.line.databits.getLsbD k) →
      (∀ k, l.parity.getLsbD k = s.fg.shadow.parity.getLsbD k ∨ l.parity.getLsbD k = s.dev.line.parity.getLsbD k) →
      (∀ k, l.stopbits.getLsbD k = s.fg.shadow.stopbits.getLsbD k ∨
        l.stopbits.getLsbD k = s.dev.line.stopbits.getLsbD k) →
      ∃ (copy : LineState) (t : State), s.fgEdge present copy = .next t ∧ t.fg.shadow = l) ∧
    ∀ (states : Nat → State) (moves : Nat → Move), InfiniteRun states moves →
      ∀ n, (∀ k, n ≤ k → (states k).dev.line = (states n).dev.line) →
        ∃ m, n ≤ m ∧ ∀ k, m ≤ k → (states k).fg.shadow = (states n).dev.line

/-- At every EV edge `gate_ev` is "ready and DTR", `busy_ev` is the post-edge `txSize ≠ 0`, and ACK captures `acc_bin`
and the request exactly when the request differs from the acknowledge (R122, R30, R227). -/
def Obligations.EvEdgeLoadsLevelsAndAcknowledges : Prop :=
  ∀ (s : State) (answer : List Byte),
    let t := s.evEdge answer
    t.ev.gateEv = decide (s.dev.state = 0b10 ∧ s.dev.line.ctl.getLsbD 0 = true) ∧
    (t.ev.busyEv = true ↔ t.ev.txSize ≠ 0) ∧
    (s.ev.req.s2 ≠ s.ev.accAck → t.ev.accEv = s.fg.accBin ∧ t.ev.accAck = s.ev.req.s2) ∧
    (s.ev.req.s2 = s.ev.accAck → t.ev.accEv = s.ev.accEv ∧ t.ev.accAck = s.ev.accAck)

/-! ## The EV sequencer (41_transmit.md, 42_receive.md, 43_event_dispatch.md) -/

/-- When a launch is enabled, the EV edge hands DEV the first min(view, span, CEIL) queued bytes, at least one, records
their number as `txSize`, moves no pointer, and leaves a presented event waiting (R130, R131, R132, R180, R245). Beside
the crossings of every EV edge nothing else changes; `devOwes` is the model's record of duty 3, log 8 (DESIGN CHOICE). -/
def Obligations.LaunchHandsOverTheClampedPacket : Prop :=
  ∀ (s : State) (answer : List Byte), s.RingInv → s.ev.state = .idle → s.ev.txSize = 0 → 0 < s.consView .tx →
    let len := min (min (s.consView .tx) (s.cfg.capTx - s.idx .tx s.ev.rptrTx)) s.cfg.ceil
    let t := s.evEdge answer
    1 ≤ len ∧ len ≤ min s.cfg.capTx s.cfg.ceil ∧ t.ev.txSize.toNat = len ∧
    t.out = s.out ++ [.tx ((s.content .tx).take len)] ∧ t.ev.rptrTx = s.ev.rptrTx ∧ t.ev.wptrRx = s.ev.wptrRx ∧
    t.memRx = s.memRx ∧ t.ev.txCompleted = s.ev.txCompleted ∧ t.ev.state = .idle ∧ t.devEvent = s.devEvent ∧
    t = State.evCrossings s
      { s with ev := { s.ev with txSize := BitVec.ofNat 16 len }, out := t.out, devOwes := true }

/-- A completion retires the packet in flight: the TX read pointer and `txCompleted` advance by its length, `txSize`
becomes 0, and NTF_TX is emitted exactly when the EV view holds no more, the outstanding total reaches 0 and the
listener is registered. With no packet in flight the edge changes only `ev_state`, to IDLE. In either case nothing else
changes beside the crossings of every EV edge (R133, R134). -/
def Obligations.CompletionRetiresThePacket : Prop :=
  (∀ (s : State) (answer : List Byte), s.RingInv → s.ev.state = .txDone → s.ev.txSize ≠ 0 →
    let n := s.ev.txSize.toNat
    let t := s.evEdge answer
    t.ev.rptrTx.toNat = (s.ev.rptrTx.toNat + n) % 2 ^ s.cfg.pw .tx ∧
    t.ev.txCompleted = s.ev.txCompleted + BitVec.ofNat 32 n ∧ t.ev.txSize = 0 ∧ t.ev.state = .idle ∧
    t.ev.wptrRx = s.ev.wptrRx ∧ t.memRx = s.memRx ∧ t.devEvent = s.devEvent ∧
    (t.out =
      if s.consView .tx = n ∧ s.ev.accEv = s.ev.txCompleted + BitVec.ofNat 32 n ∧ s.ev.txn.s2 = true then
        s.out ++ [.ntfTx]
      else s.out) ∧
    t = State.evCrossings s
      { s with
        ev := { s.ev with rptrTx := t.ev.rptrTx, txCompleted := t.ev.txCompleted, txSize := 0, state := .idle }
        out := t.out }) ∧
  ∀ (s : State) (answer : List Byte), s.ev.state = .txDone → s.ev.txSize = 0 →
    s.evEdge answer = State.evCrossings s { s with ev := { s.ev with state := .idle } }

/-- Where no launch is enabled an idle EV edge takes the presented event: the mask, a round total of 0, whether the EV
view of RX is empty, and the RX phase before the TX phase; nothing is emitted (R180, R181, R158). With no event presented
such an edge does nothing. In either case nothing else changes beside the crossings of every EV edge (R253). -/
def Obligations.EventRoundStartsWithItsMask : Prop :=
  (∀ (s : State) (answer : List Byte) (m : BitVec 2), s.ev.state = .idle → (s.ev.txSize ≠ 0 ∨ s.consView .tx = 0) →
    s.devEvent = some m →
    let t := s.evEdge answer
    t.ev.mask = m ∧ t.ev.rxTotal = 0 ∧ t.ev.rxWasEmpty = decide (s.prodView .rx = 0) ∧ t.devEvent = none ∧
    t.ev.state = (if m.getLsbD 0 then .rxDrain else if m.getLsbD 1 then .txDone else .idle) ∧
    t.out = s.out ∧ t.ev.txSize = s.ev.txSize ∧ t.ev.rptrTx = s.ev.rptrTx ∧ t.ev.wptrRx = s.ev.wptrRx ∧
    t.memRx = s.memRx ∧
    t = State.evCrossings s
      { s with
        ev := { s.ev with
          mask := m, rxTotal := 0, rxWasEmpty := decide (s.prodView .rx = 0), state := t.ev.state }
        devEvent := none }) ∧
  ∀ (s : State) (answer : List Byte), s.ev.state = .idle → (s.ev.txSize ≠ 0 ∨ s.consView .tx = 0) →
    s.devEvent = none → s.evEdge answer = State.evCrossings s s

/-- A drain iteration with free space and quota asks for min(free, span, quota) bytes, queues what DEV answers up to
that, in order, and counts it; an empty answer ends the phase, with NTF_RX of the round's total exactly when the ring
was empty at the round's start, the total is not 0 and the listener is registered (R155, R156, R186). The round's mask
and whether the ring was empty stay as its start left them, a presented event waits, and nothing else changes beside the
crossings of every EV edge (R158, R180, R182). -/
def Obligations.DrainIterationQueuesTheAnswer : Prop :=
  ∀ (s : State) (answer : List Byte), s.RingInv → s.MemInv → s.ev.state = .rxDrain → 0 < s.cfg.capRx - s.prodView .rx →
    s.ev.rxTotal.toNat < s.cfg.capRx →
    let cap := min (min (s.cfg.capRx - s.prodView .rx) (s.cfg.capRx - s.idx .rx s.ev.wptrRx))
      (s.cfg.capRx - s.ev.rxTotal.toNat)
    let n := (answer.take cap).length
    let t := s.evEdge answer
    0 < cap ∧ t.content .rx = s.content .rx ++ answer.take cap ∧
    t.ev.wptrRx.toNat = (s.ev.wptrRx.toNat + n) % 2 ^ s.cfg.pw .rx ∧
    (∀ a, a < s.idx .rx s.ev.wptrRx ∨ s.idx .rx s.ev.wptrRx + n ≤ a → cellRead t.memRx a = cellRead s.memRx a) ∧
    t.ev.rxTotal.toNat = s.ev.rxTotal.toNat + n ∧ t.ev.txSize = s.ev.txSize ∧ t.ev.rptrTx = s.ev.rptrTx ∧
    t.ev.mask = s.ev.mask ∧ t.ev.rxWasEmpty = s.ev.rxWasEmpty ∧ t.devEvent = s.devEvent ∧
    t = State.evCrossings s
      { s with
        memRx := t.memRx
        ev := { s.ev with wptrRx := t.ev.wptrRx, rxTotal := t.ev.rxTotal, state := t.ev.state }
        out := t.out } ∧
    t.ev.state = (if n ≠ 0 then .rxDrain else if s.ev.mask.getLsbD 1 then .txDone else .idle) ∧
    t.out = s.out ++ [.rxReq (BitVec.ofNat 16 cap)] ++
      (if n = 0 ∧ s.ev.rxWasEmpty = true ∧ s.ev.rxTotal ≠ 0 ∧ s.ev.rxn.s2 = true then [.ntfRx s.ev.rxTotal] else [])

/-- A drain iteration without free space or quota asks DEV for nothing, queues nothing and ends the phase, with NTF_RX
under the same condition (R155, R156, R157). The round's mask and whether the ring was empty stay, a presented event
waits, and nothing else changes beside the crossings of every EV edge (R158, R180, R182). -/
def Obligations.FullRingEndsTheDrain : Prop :=
  ∀ (s : State) (answer : List Byte), s.ev.state = .rxDrain →
    (s.cfg.capRx - s.prodView .rx = 0 ∨ s.cfg.capRx - s.ev.rxTotal.toNat = 0) →
    let t := s.evEdge answer
    t.memRx = s.memRx ∧ t.ev.wptrRx = s.ev.wptrRx ∧ t.ev.rxTotal = s.ev.rxTotal ∧
    t.ev.txSize = s.ev.txSize ∧ t.ev.rptrTx = s.ev.rptrTx ∧
    t.ev.mask = s.ev.mask ∧ t.ev.rxWasEmpty = s.ev.rxWasEmpty ∧ t.devEvent = s.devEvent ∧
    t = State.evCrossings s { s with ev := { s.ev with state := t.ev.state }, out := t.out } ∧
    t.ev.state = (if s.ev.mask.getLsbD 1 then .txDone else .idle) ∧
    t.out = s.out ++
      (if s.ev.rxWasEmpty = true ∧ s.ev.rxTotal ≠ 0 ∧ s.ev.rxn.s2 = true then [.ntfRx s.ev.rxTotal] else [])

/-- The saturation scenario: with a 64-byte ring holding 40 bytes and nothing read, a round that is offered at least 24
bytes pulls exactly 24 in one iteration, and its next iteration asks for nothing and ends the phase (R160). -/
def Obligations.SaturatedDrainPullsTwentyFour : Prop :=
  ∀ (s : State) (first second : List Byte), s.cfg.capRx = 64 → s.ev.wptrRx = 40 → s.ev.rsyncRx = ⟨0, 0⟩ →
    s.ev.state = .rxDrain → s.ev.rxTotal = 0 → 24 ≤ first.length →
    let t := s.evEdge first
    let u := t.evEdge second
    t.ev.wptrRx = 64 ∧ t.ev.rxTotal = 24 ∧ t.ev.state = .rxDrain ∧ t.out = s.out ++ [.rxReq 24] ∧
    u.ev.wptrRx = 64 ∧ u.ev.state ≠ .rxDrain ∧ ∀ c, OutEvent.rxReq c ∉ u.out.drop t.out.length

/-! ## Reset and parameters (10_state.md R42, 70_reset_and_hazards.md, 00_scope.md R7) -/

/-- After reset with legal parameters every invariant holds (R42, R231, R271, R272). Its clause `MemInv` is the model's,
log 3 (DESIGN CHOICE: what unwritten storage reads as, and the canonical form), and so is its clause `DutyInv`, logs 7
and 8 (DESIGN CHOICE: at reset DEV presents no event, and `devOwes`, the model's record of duty 3, is 0). -/
def Obligations.ResetMeetsTheInvariants : Prop :=
  ∀ (p : Params) (dev : DevSignals), p.legal = true →
    let s := State.resetWith p dev
    s.RingInv ∧ s.TotalsInv ∧ s.MemInv ∧ s.DutyInv ∧ s.DoneInv ∧ s.ReservedZero ∧
      (∀ f, s.prodView f = 0 ∧ s.consView f = 0 ∧ s.count f = 0) ∧ s.txTotal = 0 ∧ s.launchEn = false

/-- The answers of commands taken right after reset with the default parameters (R272, 95_test_vectors.md T-RST; that DEV
holds every signal at 0 in `State.reset` is the model's choice, log 5). -/
def Obligations.AnswersRightAfterReset : Prop :=
  let answers := fun (i : Instr) (w : Word) =>
    exec i State.reset = .next { State.reset with out := [.rsp w []] }
  answers .avail 0 ∧ answers .availw 64 ∧ answers .done 1 ∧ answers .peek 0xFFFFFFFF ∧ answers .read 0xFFFFFFFF ∧
    answers (.readb 16) 0 ∧ answers .connected 0 ∧ answers .baud 0 ∧ answers .linefmt 0 ∧
    answers .getctrl 0x00000001 ∧ answers (.write1 false 0x41) 0 ∧ answers (.writeb false 2 [1, 2]) 0

/-- The legal parameters are those of R7, and a block with any others is refused from reset on (R7, R137, R258; that
every step of it is a refusal is the model's, log 11). -/
def Obligations.IllegalParametersAreRefused : Prop :=
  (∀ p : Params, p.legal = true ↔
    (∃ k, 1 ≤ k ∧ k ≤ 15 ∧ p.capRx = 2 ^ k) ∧ (∃ k, 1 ≤ k ∧ k ≤ 15 ∧ p.capTx = 2 ^ k) ∧
      1 ≤ p.ceil ∧ p.ceil + 1 ≤ p.mps) ∧
    ∀ (p : Params) (dev : DevSignals), p.legal = false →
      (State.resetWith p dev).refused = true ∧ step (State.resetWith p dev) = .refused .illegalConfig

/-! ## Invariants of every step -/

/-- Every step from a state whose rings are in order is a next state whose rings are in order: no run records a model
fault (R66, R75, R106, R110, R222). That CAP_f bounds the distance of the copies of `rptr_f` from `wptr_f`, where R66 (b)
says `count_f`, is the model's reading, log 27 (DEDUCED). -/
def Obligations.StepKeepsTheRingsInOrder : Prop :=
  ∀ s : State, s.RingInv → ∃ t : State, step s = .next t ∧ t.RingInv

/-- In a state whose rings are in order the consumer view, the true occupancy, the producer view and the capacity rise
in this order, for both FIFOs (R66 (a), R75). The premise holds R66 (b) as log 27 (DEDUCED) reads it. -/
def Obligations.ViewsBracketTheOccupancy : Prop :=
  ∀ (s : State) (f : Fifo), s.RingInv →
    s.consView f ≤ s.count f ∧ s.count f ≤ s.prodView f ∧ s.prodView f ≤ s.cap f

/-- Every step keeps the order of the accepted-total handshake, the FG sequencer's bookkeeping and the ledger of
accepted, completed and queued bytes (R76, R128, R139, R226 to R228). -/
def Obligations.StepKeepsTheTransmitTotals : Prop :=
  ∀ s t : State, s.TotalsInv → step s = .next t → t.TotalsInv

/-- The outstanding total is the bytes in the TX ring, and once the accepted count is acknowledged also those still to
push; it never underflows (R76, R139). -/
def Obligations.OutstandingTotalCountsAcceptedBytes : Prop :=
  ∀ s : State, s.TotalsInv →
    s.txTotal.toNat = s.count .tx + (if s.ev.accAck = s.fg.accReq then s.fg.rem.toNat else 0)

/-- Every step keeps one transmit-complete outstanding for a packet in flight and none otherwise, so that the TX phase is
never entered without a packet in flight (R250 duty 3, R133; the bookkeeping of the duty, `devOwes`, is the model's, log
8). -/
def Obligations.StepKeepsTheCompletionDuty : Prop :=
  ∀ s t : State, s.DutyInv → s.RingInv → step s = .next t →
    t.DutyInv ∧ (t.ev.state = .txDone → t.ev.txSize ≠ 0)

/-- Every step keeps the invariant behind DONE, and once DONE would answer 1 it does so after any step that queues no TX
byte (R135). -/
def Obligations.DoneIsIdempotent : Prop :=
  ∀ s t : State, s.DoneInv → step s = .next t →
    t.DoneInv ∧ (s.txDone = true → t.fg.wptrTx = s.fg.wptrTx → t.txDone = true)

/-- Every step keeps both storage arrays in their canonical form (R22, R60; the form is the model's, log 3). -/
def Obligations.StepKeepsTheMemoryCanonical : Prop :=
  ∀ s t : State, s.MemInv → step s = .next t → t.MemInv

/-- Every step keeps the reserved bits of CTRL and STATUS at 0, and no step clears STATUS.ILL (R33, R34). -/
def Obligations.StepKeepsReservedBitsAndIll : Prop :=
  ∀ s t : State, step s = .next t →
    (s.ReservedZero → t.ReservedZero) ∧ (s.fg.status.getLsbD 0 = true → t.fg.status.getLsbD 0 = true)

/-- R74, TX. In every step the bytes on the wire followed by the queued bytes not yet in a packet grow only by what is
pushed, at the end and in the order of the source list. -/
def Obligations.TxBytesLeaveInTheOrderQueued : Prop :=
  ∀ s t : State, s.RingInv → s.MemInv → step s = .next t →
    wireBytes t.out ++ t.unsent =
      wireBytes s.out ++ s.unsent ++ s.fg.src.take (ptrSub (2 ^ s.cfg.pw .tx) t.fg.wptrTx s.fg.wptrTx)

/-- R74, RX. An EV edge appends to the queued RX bytes what DEV delivered, in order; any other step only takes queued
bytes from the front, and what it takes is what its answer gives, as READB's bytes or READ's word. -/
def Obligations.RxBytesArriveInTheOrderReceived : Prop :=
  ∀ s t : State, s.RingInv → s.MemInv → step s = .next t →
    (∀ answer, s.nextMove = .evEdge answer →
      t.content .rx = s.content .rx ++ answer.take (ptrSub (2 ^ s.cfg.pw .rx) t.ev.wptrRx s.ev.wptrRx)) ∧
    ((∀ answer, s.nextMove ≠ .evEdge answer) →
      let k := ptrSub (2 ^ s.cfg.pw .rx) t.fg.rptrRx s.fg.rptrRx
      t.content .rx = (s.content .rx).drop k ∧
      (0 < k → ∃ w bytes, t.out = s.out ++ [.rsp w bytes] ∧
        (bytes = (s.content .rx).take k ∨
          (bytes = [] ∧ ∃ b, (s.content .rx).take k = [b] ∧ w = b.zeroExtend 32))))

/-- While a packet is in flight its bytes in `mem_TX` stay as they were at the launch: a step that keeps it in flight
keeps its length, its place and every byte of it (R132, R73). -/
def Obligations.PacketBytesStayUntilCompletion : Prop :=
  ∀ s t : State, s.RingInv → step s = .next t → s.ev.txSize ≠ 0 → t.ev.txSize ≠ 0 →
    t.ev.txSize = s.ev.txSize ∧ t.ev.rptrTx = s.ev.rptrTx ∧
    ∀ k, k < s.ev.txSize.toNat →
      cellRead t.memTx (s.idx .tx s.ev.rptrTx + k) = cellRead s.memTx (s.idx .tx s.ev.rptrTx + k)

/-- R140. A packet is handed over only when none is in flight and is in flight from then on; only a TX phase ends one. -/
def Obligations.AtMostOnePacketInFlight : Prop :=
  ∀ s t : State, s.RingInv → step s = .next t →
    (∀ bytes, OutEvent.tx bytes ∈ t.out.drop s.out.length →
      s.ev.txSize = 0 ∧ t.ev.txSize.toNat = bytes.length ∧ 0 < bytes.length) ∧
    (s.ev.txSize ≠ 0 → t.ev.txSize = 0 → s.ev.state = .txDone)

/-- While FG waits for the acknowledge no step changes `acc_bin` or `acc_req`, FG leaves the wait only on the
acknowledge, and ACK samples the bus only during the wait (R228). In every sequence of steps that is weakly fair to the
two clocks, the runs of the block among them, a wait ends: FG goes on to PUSH (R124, R255, R257). -/
def Obligations.AcceptedTotalIsStableInTheWait : Prop :=
  (∀ s t : State, s.fg.state = .waitAck → step s = .next t →
    t.fg.accBin = s.fg.accBin ∧ t.fg.accReq = s.fg.accReq ∧
      (t.fg.state ≠ .waitAck → s.fg.ack.s2 = s.fg.accReq)) ∧
  (∀ s : State, s.TotalsInv → s.ev.req.s2 ≠ s.ev.accAck →
    s.fg.state = .waitAck ∧ s.fg.ack.s2 ≠ s.fg.accReq) ∧
  ∀ (states : Nat → State) (moves : Nat → Move), InfinitePath states moves → WeaklyFair moves →
    ∀ n, (states n).fg.state = .waitAck → ∃ k, n ≤ k ∧ (states k).fg.state = .push

/-- A write whose remaining bytes fit the free space of the FG view keeps fitting it until it ends, so it never holds
for space. An edge that takes a WRITE1 or WRITEB in interrupt context or non-blocking mode either turns it away, with the
answer 0, or begins a write that fits the free space of the view the edge leaves (R128, R123). -/
def Obligations.FittingWriteNeverHolds : Prop :=
  (∀ s t : State, s.RingInv → s.writing → s.fg.rem.toNat ≤ s.cfg.capTx - s.prodView .tx → step s = .next t →
    t.writing → t.fg.rem.toNat ≤ t.cfg.capTx - t.prodView .tx) ∧
  (∀ (ctx : Bool) (size : Count) (s : State), (ctx = true ∨ s.fg.ctrl.getLsbD 0 = false) →
    s.acceptedCount ctx size ≤ s.cfg.capTx - s.prodView .tx) ∧
  ∀ (s t : State) (present : Option HostCmd) (copy : LineState) (ctx : Bool) (i : Instr), s.RingInv →
    (ctx = true ∨ s.fg.ctrl.getLsbD 0 = false) →
    ((∃ data, i = .write1 ctx data) ∨ ∃ size source, i = .writeb ctx size source) →
    (s.hostPresent present).takesCommand = true → (s.hostPresent present).fetch = .ok i →
    s.fgEdge present copy = .next t →
    (t.fg.rem = s.fg.rem ∧ t.out = s.out ++ [.rsp 0 []]) ∨
      (t.fg.state = .waitAck ∧ t.out = s.out ∧ 0 < t.fg.rem.toNat ∧
        t.fg.rem.toNat ≤ t.cfg.capTx - t.prodView .tx)

/-- In a quiescent state no FG edge at which the host presents nothing and no EV edge changes anything. Nor does a step
by the next move lined up, unless that is a DEV step: it uses the move up, and an FG edge lined up next presents no
command. No model fault and no refusal is recorded (R256, R258). That `gate_ev` and `busy_ev` have settled too is the
model's reading, log 19 (DEDUCED), and that the moves are lined up in the state is its choice, log 1 (DESIGN CHOICE). -/
def Obligations.QuiescentStateIsStill : Prop :=
  ∀ s : State, s.quiescent = true →
    (∀ copy, s.fgEdge none copy = .next s) ∧ (∀ answer, s.evEdge answer = s) ∧
    (∀ m rest, s.sched = m :: rest → (m.isFgEdge = true ∨ m.isEvEdge = true) → step s = .next s.moveTaken) ∧
    s.faultPre = false ∧ s.refused = false ∧ ∀ present copy, s.sched.head? = some (.fgEdge present copy) → present = none
end

