-- ==== Sys2Proof/Laws/Memory.lean ====
section
/-! SUPPORT. Laws of the storage arrays: reading after a write, and the canonical form, which every memory operation
keeps. -/

namespace Sys2Proof.Machine

@[simp] theorem cellRead_nil (a : Nat) : cellRead [] a = unlistedByte := rfl

/-- A write leaves every other index alone, in any list. -/
theorem cellRead_cellWrite_other (cells : List Host.Cell) {a c : Nat} (v : Byte) (h : c ≠ a) :
    cellRead (cellWrite cells a v) c = cellRead cells c := by
  induction cells with
  | nil => simp only [cellWrite]; split <;> simp [cellRead, Ne.symm h]
  | cons e rest ih =>
    obtain ⟨k, b⟩ := e
    simp only [cellWrite]
    split
    · split <;> simp [cellRead, Ne.symm h]
    · split
      · subst_vars; split <;> simp [cellRead, Ne.symm h]
      · simp only [cellRead, ih]

/-- An index below all listed ones reads as unlisted. -/
theorem cellRead_of_below (cap : Nat) {cells : List Host.Cell} {low a : Nat}
    (h : cellsFrom cap low cells = true) (ha : a < low) : cellRead cells a = unlistedByte := by
  induction cells generalizing low with
  | nil => rfl
  | cons e rest ih =>
    obtain ⟨k, b⟩ := e
    simp only [cellsFrom, Bool.and_eq_true, decide_eq_true_eq] at h
    simp only [cellRead]
    rw [if_neg (by omega)]
    exact ih h.2 (by omega)

/-- In canonical form a read after a write to the same index gives the value written. -/
theorem cellRead_cellWrite_same (cap : Nat) {cells : List Host.Cell} {low : Nat} (a : Nat) (v : Byte)
    (h : cellsFrom cap low cells = true) : cellRead (cellWrite cells a v) a = v := by
  induction cells generalizing low with
  | nil => simp only [cellWrite]; split <;> simp_all [cellRead]
  | cons e rest ih =>
    obtain ⟨k, b⟩ := e
    have hc := h
    simp only [cellsFrom, Bool.and_eq_true, decide_eq_true_eq] at h
    simp only [cellWrite]
    split
    · rename_i hak
      split
      · subst_vars
        simp only [cellRead]
        rw [if_neg (by omega)]
        exact cellRead_of_below cap h.2 (by omega)
      · simp [cellRead]
    · split
      · subst_vars
        split
        · subst_vars; exact cellRead_of_below cap h.2 (by omega)
        · simp [cellRead]
      · rename_i h1 h2
        simp only [cellRead]
        rw [if_neg (by omega)]
        exact ih h.2

/-- A looser lower bound also holds. -/
theorem cellsFrom_mono {cap low low' : Nat} {cells : List Host.Cell} (h : cellsFrom cap low cells = true)
    (hl : low' ≤ low) : cellsFrom cap low' cells = true := by
  cases cells with
  | nil => rfl
  | cons e rest =>
    obtain ⟨k, b⟩ := e
    simp only [cellsFrom, Bool.and_eq_true, decide_eq_true_eq] at h ⊢
    exact ⟨⟨⟨by omega, h.1.1.2⟩, h.1.2⟩, h.2⟩

/-- A write inside the array keeps the canonical form. -/
theorem cellsFrom_cellWrite {cap low : Nat} {cells : List Host.Cell} {a : Nat} (v : Byte)
    (h : cellsFrom cap low cells = true) (hl : low ≤ a) (ha : a < cap) :
    cellsFrom cap low (cellWrite cells a v) = true := by
  induction cells generalizing low with
  | nil => simp only [cellWrite]; split <;> simp_all [cellsFrom]
  | cons e rest ih =>
    obtain ⟨k, b⟩ := e
    have hc := h
    simp only [cellsFrom, Bool.and_eq_true, decide_eq_true_eq] at h
    simp only [cellWrite]
    split
    · split
      · exact hc
      · rename_i hak hv
        simp only [cellsFrom, Bool.and_eq_true, decide_eq_true_eq, bne_iff_ne, ne_eq]
        exact ⟨⟨⟨hl, ha⟩, hv⟩, ⟨⟨by omega, h.1.1.2⟩, by simpa using h.1.2⟩, h.2⟩
    · split
      · split
        · exact cellsFrom_mono h.2 (by omega)
        · rename_i hak hv
          subst_vars
          simp only [cellsFrom, Bool.and_eq_true, decide_eq_true_eq, bne_iff_ne, ne_eq]
          exact ⟨⟨⟨hl, ha⟩, hv⟩, h.2⟩
      · simp only [cellsFrom, Bool.and_eq_true, decide_eq_true_eq]
        exact ⟨h.1, ih h.2 (by omega)⟩

/-- The empty array is in canonical form. -/
@[simp] theorem cellsWf_nil (cap : Nat) : cellsWf cap [] = true := rfl

/-- A block write keeps the canonical form: its indices are taken modulo the capacity. -/
theorem cellsWf_memWrite {cap : Nat} {cells : List Host.Cell} (i : Nat) (bytes : List Byte) (hc : 0 < cap)
    (h : cellsWf cap cells = true) : cellsWf cap (memWrite cap cells i bytes) = true := by
  induction bytes generalizing cells i with
  | nil => exact h
  | cons v rest ih => exact ih (i + 1) (cellsFrom_cellWrite v h (Nat.zero_le _) (Nat.mod_lt _ hc))

/-- A block write leaves every index outside its span alone. -/
theorem cellRead_memWrite_outside {cap : Nat} (cells : List Host.Cell) (i : Nat) (bytes : List Byte) (a : Nat)
    (h : i + bytes.length ≤ cap) (ha : a < i ∨ i + bytes.length ≤ a) :
    cellRead (memWrite cap cells i bytes) a = cellRead cells a := by
  induction bytes generalizing cells i with
  | nil => rfl
  | cons v rest ih =>
    simp only [List.length_cons] at h ha
    simp only [memWrite]
    rw [ih _ (i + 1) (by omega) (by omega), Nat.mod_eq_of_lt (by omega), cellRead_cellWrite_other _ _ (by omega)]

/-- A block write that does not wrap puts its k-th byte at the k-th index of its span. -/
theorem cellRead_memWrite_inside {cap : Nat} {cells : List Host.Cell} (i : Nat) (bytes : List Byte) (k : Nat)
    (hc : cellsWf cap cells = true) (h : i + bytes.length ≤ cap) (hk : k < bytes.length) :
    cellRead (memWrite cap cells i bytes) (i + k) = bytes[k] := by
  induction bytes generalizing cells i k with
  | nil => simp at hk
  | cons v rest ih =>
    simp only [List.length_cons] at h hk
    simp only [memWrite]
    rw [Nat.mod_eq_of_lt (by omega)]
    cases k with
    | zero =>
      rw [cellRead_memWrite_outside _ _ _ _ (by omega) (by omega)]
      exact cellRead_cellWrite_same cap _ v hc
    | succ k =>
      rw [show i + (k + 1) = i + 1 + k by omega]
      exact ih (i + 1) k (cellsFrom_cellWrite v hc (Nat.zero_le _) (by omega)) (by omega) (by omega)

@[simp] theorem memWrite_nil (cap : Nat) (cells : List Host.Cell) (i : Nat) : memWrite cap cells i [] = cells := rfl

@[simp] theorem memRead_length (cap : Nat) (cells : List Host.Cell) (i n : Nat) :
    (memRead cap cells i n).length = n := by simp [memRead]

/-- The k-th byte of a block read. -/
theorem memRead_getElem {cap : Nat} (cells : List Host.Cell) (i n k : Nat) (h : k < (memRead cap cells i n).length) :
    (memRead cap cells i n)[k] = cellRead cells ((i + k) % cap) := by simp [memRead]

/-- A block read is cut in two anywhere. -/
theorem memRead_add (cap : Nat) (cells : List Host.Cell) (i m n : Nat) :
    memRead cap cells i (m + n) = memRead cap cells i m ++ memRead cap cells (i + m) n := by
  simp only [memRead, List.range_add, List.map_append, List.map_map]
  congr 1
  apply List.map_congr_left
  intro k _
  simp [Nat.add_assoc]

/-- Only the index modulo the capacity matters to a block read. -/
theorem memRead_mod (cap : Nat) (cells : List Host.Cell) (i n : Nat) :
    memRead cap cells (i % cap) n = memRead cap cells i n := by simp [memRead, Nat.mod_add_mod]

/-- Two block reads agree if every byte does. -/
theorem memRead_congr {cap : Nat} {cells cells' : List Host.Cell} {i n : Nat}
    (h : ∀ k, k < n → cellRead cells ((i + k) % cap) = cellRead cells' ((i + k) % cap)) :
    memRead cap cells i n = memRead cap cells' i n := by
  simp only [memRead]
  apply List.map_congr_left
  intro k hk
  exact h k (by simpa using hk)

/-- The first bytes of a block read. -/
theorem memRead_take (cap : Nat) (cells : List Host.Cell) (i n m : Nat) :
    (memRead cap cells i n).take m = memRead cap cells i (min m n) := by
  simp [memRead, ← List.map_take, List.take_range]

/-- A block read without its first bytes. -/
theorem memRead_drop (cap : Nat) (cells : List Host.Cell) (i n m : Nat) (h : m ≤ n) :
    (memRead cap cells i n).drop m = memRead cap cells (i + m) (n - m) := by
  have := memRead_add cap cells i m (n - m)
  rw [show m + (n - m) = n by omega] at this
  rw [this]
  simp

/-- Reset leaves both arrays in canonical form. -/
theorem resetWith_cellsWf (p : Params) (dev : DevSignals) (cap : Nat) :
    cellsWf cap (State.resetWith p dev).memRx = true ∧ cellsWf cap (State.resetWith p dev).memTx = true :=
  ⟨rfl, rfl⟩

/-- Arrays in canonical form that read alike at every index are the same list. -/
theorem cells_ext {cap low : Nat} {x y : List Host.Cell} (hx : cellsFrom cap low x = true)
    (hy : cellsFrom cap low y = true) (h : ∀ a, cellRead x a = cellRead y a) : x = y := by
  induction x generalizing low y with
  | nil =>
    cases y with
    | nil => rfl
    | cons e rest =>
      obtain ⟨k, b⟩ := e
      simp only [cellsFrom, Bool.and_eq_true, bne_iff_ne, ne_eq] at hy
      have := h k
      simp [cellRead] at this
      exact absurd this.symm hy.1.2
  | cons d rest ih =>
    obtain ⟨j, c⟩ := d
    cases y with
    | nil =>
      simp only [cellsFrom, Bool.and_eq_true, bne_iff_ne, ne_eq] at hx
      have := h j
      simp [cellRead] at this
      exact absurd this hx.1.2
    | cons e rest' =>
      obtain ⟨k, b⟩ := e
      have hx' := hx
      have hy' := hy
      simp only [cellsFrom, Bool.and_eq_true, decide_eq_true_eq, bne_iff_ne, ne_eq] at hx hy
      have hjk : j = k := by
        rcases Nat.lt_trichotomy j k with hlt | heq | hgt
        · have hj := h j
          simp only [cellRead, if_true] at hj
          rw [if_neg (by omega), cellRead_of_below cap hy.2 (by omega)] at hj
          exact absurd hj hx.1.2
        · exact heq
        · have hk := h k
          simp only [cellRead, if_true] at hk
          rw [if_neg (by omega), cellRead_of_below cap hx.2 (by omega)] at hk
          exact absurd hk.symm hy.1.2
      subst hjk
      have hcb : c = b := by have := h j; simpa [cellRead] using this
      subst hcb
      have htail : rest = rest' := by
        apply ih hx.2 hy.2
        intro a
        by_cases haj : a = j
        · subst haj
          rw [cellRead_of_below cap hx.2 (by omega), cellRead_of_below cap hy.2 (by omega)]
        · have := h a
          simp only [cellRead] at this
          rwa [if_neg (by omega), if_neg (by omega)] at this
      rw [htail]

end Sys2Proof.Machine
end

