-- ==== Sys2Proof/Laws/Pointer.lean ====
section
/-! SUPPORT. Laws of the pointer arithmetic (20_memory.md R61 to R65) and of the legal capacities behind it. -/

namespace Sys2Proof.Machine

/-! ## Pointer arithmetic -/

theorem ptrAdd_toNat {m : Nat} (hm : 0 < m) (hM : m ≤ 65536) (p : Ptr) (n : Nat) :
    (ptrAdd m p n).toNat = (p.toNat + n) % m := by
  have := Nat.mod_lt (p.toNat + n) hm
  simp only [ptrAdd, BitVec.toNat_ofNat]
  exact Nat.mod_eq_of_lt (by omega)

theorem ptrAdd_lt {m : Nat} (hm : 0 < m) (hM : m ≤ 65536) (p : Ptr) (n : Nat) : (ptrAdd m p n).toNat < m := by
  rw [ptrAdd_toNat hm hM]; exact Nat.mod_lt _ hm

/-- Adding 0 to a pointer that fits leaves it. -/
theorem ptrAdd_zero {m : Nat} {p : Ptr} (h : p.toNat < m) : ptrAdd m p 0 = p := by
  simp only [ptrAdd, Nat.add_zero, Nat.mod_eq_of_lt h]
  exact BitVec.eq_of_toNat_eq (by simp)

/-- Two advances are one. -/
theorem ptrAdd_ptrAdd {m : Nat} (hm : 0 < m) (hM : m ≤ 65536) (p : Ptr) (i j : Nat) :
    ptrAdd m (ptrAdd m p i) j = ptrAdd m p (i + j) := by
  apply BitVec.eq_of_toNat_eq
  rw [ptrAdd_toNat hm hM, ptrAdd_toNat hm hM, ptrAdd_toNat hm hM, Nat.mod_add_mod, Nat.add_assoc]

theorem ptrSub_lt {m : Nat} (hm : 0 < m) (a b : Ptr) : ptrSub m a b < m := Nat.mod_lt _ hm

/-- The difference of two pointers that fit, without the modulus. -/
theorem ptrSub_eq {m : Nat} {a b : Ptr} (ha : a.toNat < m) (hb : b.toNat < m) :
    ptrSub m a b = if b.toNat ≤ a.toNat then a.toNat - b.toNat else a.toNat + m - b.toNat := by
  simp only [ptrSub, Nat.mod_eq_of_lt hb]
  split
  · rw [show a.toNat + (m - b.toNat) = a.toNat - b.toNat + m by omega, Nat.add_mod_right]
    exact Nat.mod_eq_of_lt (by omega)
  · rw [Nat.mod_eq_of_lt (by omega)]; omega

theorem ptrSub_self {m : Nat} {a : Ptr} (ha : a.toNat < m) : ptrSub m a a = 0 := by simp [ptrSub_eq ha ha]

/-- Two pointers that fit are equal exactly when their difference is 0. -/
theorem ptrSub_eq_zero {m : Nat} {a b : Ptr} (ha : a.toNat < m) (hb : b.toNat < m) : ptrSub m a b = 0 ↔ a = b := by
  rw [ptrSub_eq ha hb]
  constructor
  · intro h
    apply BitVec.eq_of_toNat_eq
    split at h <;> omega
  · rintro rfl; simp

/-- Advancing the front pointer by n adds n, short of a full turn. -/
theorem ptrSub_ptrAdd_left {m : Nat} (hM : m ≤ 65536) {a b : Ptr} {n : Nat} (ha : a.toNat < m) (hb : b.toNat < m)
    (h : ptrSub m a b + n < m) : ptrSub m (ptrAdd m a n) b = ptrSub m a b + n := by
  have hm : 0 < m := by omega
  have hlt := ptrAdd_lt hm hM a n
  rw [ptrSub_eq hlt hb, ptrAdd_toNat hm hM]
  rw [ptrSub_eq ha hb] at h ⊢
  by_cases hw : a.toNat + n < m
  · rw [Nat.mod_eq_of_lt hw]
    split at h <;> (try split) <;> omega
  · have : (a.toNat + n) % m = a.toNat + n - m := by
      rw [Nat.mod_eq_sub_mod (by omega)]
      exact Nat.mod_eq_of_lt (by split at h <;> omega)
    rw [this]
    split at h <;> (try split) <;> omega

/-- Advancing the rear pointer by n, no further than the front one, takes n away. -/
theorem ptrSub_ptrAdd_right {m : Nat} (hM : m ≤ 65536) {a b : Ptr} {n : Nat} (ha : a.toNat < m) (hb : b.toNat < m)
    (h : n ≤ ptrSub m a b) : ptrSub m a (ptrAdd m b n) = ptrSub m a b - n := by
  have hm : 0 < m := by omega
  have hlt := ptrAdd_lt hm hM b n
  rw [ptrSub_eq ha hlt, ptrAdd_toNat hm hM]
  rw [ptrSub_eq ha hb] at h ⊢
  by_cases hw : b.toNat + n < m
  · rw [Nat.mod_eq_of_lt hw]
    split at h <;> (try split) <;> omega
  · have : (b.toNat + n) % m = b.toNat + n - m := by
      rw [Nat.mod_eq_sub_mod (by omega)]
      exact Nat.mod_eq_of_lt (by split at h <;> omega)
    rw [this]
    split at h <;> (try split) <;> omega

/-- Distances along a chain of pointers add up, short of a full turn. -/
theorem ptrSub_add_ptrSub {m : Nat} {a b c : Ptr} (ha : a.toNat < m) (hb : b.toNat < m) (hc : c.toNat < m)
    (h : ptrSub m a b + ptrSub m b c < m) : ptrSub m a b + ptrSub m b c = ptrSub m a c := by
  rw [ptrSub_eq ha hb, ptrSub_eq hb hc] at h
  rw [ptrSub_eq ha hb, ptrSub_eq hb hc, ptrSub_eq ha hc]
  by_cases h1 : b.toNat ≤ a.toNat <;> by_cases h2 : c.toNat ≤ b.toNat <;> by_cases h3 : c.toNat ≤ a.toNat <;>
    simp only [h1, h2, h3, if_true, if_false] at h ⊢ <;> omega

/-- The index stays below the capacity. -/
theorem ptrIdx_lt (aw : Nat) (p : Ptr) : ptrIdx aw p < 2 ^ aw := Nat.mod_lt _ (Nat.two_pow_pos aw)

/-- The index after an advance (20_memory.md R61). -/
theorem ptrIdx_ptrAdd {aw : Nat} (h : aw + 1 ≤ 16) (p : Ptr) (n : Nat) :
    ptrIdx aw (ptrAdd (2 ^ (aw + 1)) p n) = (ptrIdx aw p + n) % 2 ^ aw := by
  have hM : 2 ^ (aw + 1) ≤ 65536 := Nat.pow_le_pow_right (by omega) h
  rw [ptrIdx, ptrAdd_toNat (Nat.two_pow_pos _) hM, ptrIdx, Nat.mod_add_mod]
  exact Nat.mod_mod_of_dvd _ (Nat.pow_dvd_pow 2 (by omega))

/-- What PUBLISH does: it stays at its pointer, or takes one step with its Gray image (45_cdc.md R220). -/
theorem publish_cases (m : Nat) (p : Ptr) (pub : Publisher) :
    (pub.b = p ∧ publish m p pub = pub) ∨
      (pub.b ≠ p ∧ publish m p pub = ⟨ptrAdd m pub.b 1, bin2gray (ptrAdd m pub.b 1)⟩) := by
  simp only [publish]
  split <;> simp_all

/-- PUBLISH keeps the Gray register the image of the binary one. -/
theorem publish_image {m : Nat} {p : Ptr} {pub : Publisher} (h : pub.g = bin2gray pub.b) :
    (publish m p pub).g = bin2gray (publish m p pub).b := by
  rcases publish_cases m p pub with ⟨-, he⟩ | ⟨-, he⟩ <;> simp [he, h]

/-! ## Legal capacities (00_scope.md R7) -/

theorem legalCapacity_spec {c : Nat} (h : legalCapacity c = true) : 2 ≤ c ∧ c ≤ 32768 ∧ 2 ^ Nat.log2 c = c := by
  simp only [legalCapacity, Bool.and_eq_true, decide_eq_true_eq, beq_iff_eq] at h
  exact ⟨h.1.1, h.1.2, h.2⟩

theorem Params.legal_spec {p : Params} (h : p.legal = true) (f : Fifo) :
    2 ≤ p.cap f ∧ p.cap f ≤ 32768 ∧ 2 ^ p.aw f = p.cap f ∧ 2 ^ p.pw f = 2 * p.cap f ∧ p.aw f + 1 ≤ 16 := by
  simp only [Params.legal, Bool.and_eq_true] at h
  have hc : legalCapacity (p.cap f) = true := by cases f; exacts [h.1.1, h.1.2]
  obtain ⟨h1, h2, h3⟩ := legalCapacity_spec hc
  refine ⟨h1, h2, h3, ?_, ?_⟩
  · rw [Params.pw, Nat.pow_succ, Nat.mul_comm]; exact congrArg (2 * ·) h3
  · have : p.aw f < 16 := (Nat.pow_lt_pow_iff_right (a := 2) (by omega)).mp (by
      rw [show 2 ^ p.aw f = p.cap f from h3]; omega)
    omega

/-- CEIL ≥ 1 and CEIL < MPS. -/
theorem Params.legal_ceil {p : Params} (h : p.legal = true) : 1 ≤ p.ceil ∧ p.ceil < p.mps := by
  simp only [Params.legal, legalCeiling, Bool.and_eq_true, decide_eq_true_eq] at h
  exact h.2

/-- With legal parameters the modulus of a pointer is twice the capacity, within 16 bits. -/
theorem modulus_spec {s : State} (h : s.cfg.legal = true) (f : Fifo) :
    2 ≤ s.cap f ∧ s.cap f ≤ 32768 ∧ s.modulus f = 2 * s.cap f ∧ 0 < s.modulus f ∧ s.modulus f ≤ 65536 := by
  obtain ⟨h1, h2, -, h4, -⟩ := Params.legal_spec h f
  simp only [State.cap, State.modulus]
  omega

/-- With legal parameters an index lies inside the array, and its span is at least 1 (40_ringbuffer.md R107). -/
theorem idx_lt {s : State} (h : s.cfg.legal = true) (f : Fifo) (p : Ptr) :
    s.idx f p < s.cap f ∧ 1 ≤ s.span f (s.idx f p) := by
  obtain ⟨-, -, h3, -, -⟩ := Params.legal_spec h f
  have : s.idx f p < s.cap f := by rw [State.cap, ← h3]; exact ptrIdx_lt _ _
  exact ⟨this, by simp only [State.span]; omega⟩

/-- The index after an advance, with legal parameters. -/
theorem idx_ptrAdd {s : State} (h : s.cfg.legal = true) (f : Fifo) (p : Ptr) (n : Nat) :
    s.idx f (ptrAdd (s.modulus f) p n) = (s.idx f p + n) % s.cap f := by
  obtain ⟨-, -, h3, -, h5⟩ := Params.legal_spec h f
  have := ptrIdx_ptrAdd h5 p n
  rw [h3] at this
  exact this

end Sys2Proof.Machine
end

