-- ==== Sys2Proof/Laws/State.lean ====
section
/-! SUPPORT. One lemma per field for each named update of the state, so that no later proof unfolds an update. -/

namespace Sys2Proof.Machine

/-! ## `emit` -/

@[simp] theorem emit_cfg (e : OutEvent) (s : State) : (s.emit e).cfg = s.cfg := rfl

@[simp] theorem emit_fg (e : OutEvent) (s : State) : (s.emit e).fg = s.fg := rfl

@[simp] theorem emit_ev (e : OutEvent) (s : State) : (s.emit e).ev = s.ev := rfl

@[simp] theorem emit_memRx (e : OutEvent) (s : State) : (s.emit e).memRx = s.memRx := rfl

@[simp] theorem emit_memTx (e : OutEvent) (s : State) : (s.emit e).memTx = s.memTx := rfl

@[simp] theorem emit_out (e : OutEvent) (s : State) : (s.emit e).out = s.out ++ [e] := rfl

@[simp] theorem emit_faultPre (e : OutEvent) (s : State) : (s.emit e).faultPre = s.faultPre := rfl

@[simp] theorem emit_refused (e : OutEvent) (s : State) : (s.emit e).refused = s.refused := rfl

@[simp] theorem emit_port (e : OutEvent) (s : State) : (s.emit e).port = s.port := rfl

@[simp] theorem emit_dev (e : OutEvent) (s : State) : (s.emit e).dev = s.dev := rfl

@[simp] theorem emit_devEvent (e : OutEvent) (s : State) : (s.emit e).devEvent = s.devEvent := rfl

@[simp] theorem emit_devOwes (e : OutEvent) (s : State) : (s.emit e).devOwes = s.devOwes := rfl

@[simp] theorem emit_sched (e : OutEvent) (s : State) : (s.emit e).sched = s.sched := rfl

@[simp] theorem emit_draws (e : OutEvent) (s : State) : (s.emit e).draws = s.draws := rfl

/-! ## `failPrecondition` -/

@[simp] theorem failPrecondition_cfg (s : State) : (s.failPrecondition).cfg = s.cfg := rfl

@[simp] theorem failPrecondition_fg (s : State) : (s.failPrecondition).fg = s.fg := rfl

@[simp] theorem failPrecondition_ev (s : State) : (s.failPrecondition).ev = s.ev := rfl

@[simp] theorem failPrecondition_memRx (s : State) : (s.failPrecondition).memRx = s.memRx := rfl

@[simp] theorem failPrecondition_memTx (s : State) : (s.failPrecondition).memTx = s.memTx := rfl

@[simp] theorem failPrecondition_out (s : State) : (s.failPrecondition).out = s.out := rfl

@[simp] theorem failPrecondition_faultPre (s : State) : (s.failPrecondition).faultPre = true := rfl

@[simp] theorem failPrecondition_refused (s : State) : (s.failPrecondition).refused = s.refused := rfl

@[simp] theorem failPrecondition_port (s : State) : (s.failPrecondition).port = s.port := rfl

@[simp] theorem failPrecondition_dev (s : State) : (s.failPrecondition).dev = s.dev := rfl

@[simp] theorem failPrecondition_devEvent (s : State) : (s.failPrecondition).devEvent = s.devEvent := rfl

@[simp] theorem failPrecondition_devOwes (s : State) : (s.failPrecondition).devOwes = s.devOwes := rfl

@[simp] theorem failPrecondition_sched (s : State) : (s.failPrecondition).sched = s.sched := rfl

@[simp] theorem failPrecondition_draws (s : State) : (s.failPrecondition).draws = s.draws := rfl

/-! ## `setProducer` -/

@[simp] theorem setProducer_rx_cfg (c : List Host.Cell) (p : Ptr) (s : State) : (s.setProducer .rx c p).cfg = s.cfg := rfl

@[simp] theorem setProducer_rx_fg (c : List Host.Cell) (p : Ptr) (s : State) : (s.setProducer .rx c p).fg = s.fg := rfl

@[simp] theorem setProducer_rx_ev (c : List Host.Cell) (p : Ptr) (s : State) : (s.setProducer .rx c p).ev = { s.ev with wptrRx := p } := rfl

@[simp] theorem setProducer_rx_memRx (c : List Host.Cell) (p : Ptr) (s : State) : (s.setProducer .rx c p).memRx = c := rfl

@[simp] theorem setProducer_rx_memTx (c : List Host.Cell) (p : Ptr) (s : State) : (s.setProducer .rx c p).memTx = s.memTx := rfl

@[simp] theorem setProducer_rx_out (c : List Host.Cell) (p : Ptr) (s : State) : (s.setProducer .rx c p).out = s.out := rfl

@[simp] theorem setProducer_rx_faultPre (c : List Host.Cell) (p : Ptr) (s : State) : (s.setProducer .rx c p).faultPre = s.faultPre := rfl

@[simp] theorem setProducer_rx_refused (c : List Host.Cell) (p : Ptr) (s : State) : (s.setProducer .rx c p).refused = s.refused := rfl

@[simp] theorem setProducer_rx_port (c : List Host.Cell) (p : Ptr) (s : State) : (s.setProducer .rx c p).port = s.port := rfl

@[simp] theorem setProducer_rx_dev (c : List Host.Cell) (p : Ptr) (s : State) : (s.setProducer .rx c p).dev = s.dev := rfl

@[simp] theorem setProducer_rx_devEvent (c : List Host.Cell) (p : Ptr) (s : State) : (s.setProducer .rx c p).devEvent = s.devEvent := rfl

@[simp] theorem setProducer_rx_devOwes (c : List Host.Cell) (p : Ptr) (s : State) : (s.setProducer .rx c p).devOwes = s.devOwes := rfl

@[simp] theorem setProducer_rx_sched (c : List Host.Cell) (p : Ptr) (s : State) : (s.setProducer .rx c p).sched = s.sched := rfl

@[simp] theorem setProducer_rx_draws (c : List Host.Cell) (p : Ptr) (s : State) : (s.setProducer .rx c p).draws = s.draws := rfl

/-! ## `setProducer`, TX -/

@[simp] theorem setProducer_tx_cfg (c : List Host.Cell) (p : Ptr) (s : State) : (s.setProducer .tx c p).cfg = s.cfg := rfl

@[simp] theorem setProducer_tx_fg (c : List Host.Cell) (p : Ptr) (s : State) : (s.setProducer .tx c p).fg = { s.fg with wptrTx := p } := rfl

@[simp] theorem setProducer_tx_ev (c : List Host.Cell) (p : Ptr) (s : State) : (s.setProducer .tx c p).ev = s.ev := rfl

@[simp] theorem setProducer_tx_memRx (c : List Host.Cell) (p : Ptr) (s : State) : (s.setProducer .tx c p).memRx = s.memRx := rfl

@[simp] theorem setProducer_tx_memTx (c : List Host.Cell) (p : Ptr) (s : State) : (s.setProducer .tx c p).memTx = c := rfl

@[simp] theorem setProducer_tx_out (c : List Host.Cell) (p : Ptr) (s : State) : (s.setProducer .tx c p).out = s.out := rfl

@[simp] theorem setProducer_tx_faultPre (c : List Host.Cell) (p : Ptr) (s : State) : (s.setProducer .tx c p).faultPre = s.faultPre := rfl

@[simp] theorem setProducer_tx_refused (c : List Host.Cell) (p : Ptr) (s : State) : (s.setProducer .tx c p).refused = s.refused := rfl

@[simp] theorem setProducer_tx_port (c : List Host.Cell) (p : Ptr) (s : State) : (s.setProducer .tx c p).port = s.port := rfl

@[simp] theorem setProducer_tx_dev (c : List Host.Cell) (p : Ptr) (s : State) : (s.setProducer .tx c p).dev = s.dev := rfl

@[simp] theorem setProducer_tx_devEvent (c : List Host.Cell) (p : Ptr) (s : State) : (s.setProducer .tx c p).devEvent = s.devEvent := rfl

@[simp] theorem setProducer_tx_devOwes (c : List Host.Cell) (p : Ptr) (s : State) : (s.setProducer .tx c p).devOwes = s.devOwes := rfl

@[simp] theorem setProducer_tx_sched (c : List Host.Cell) (p : Ptr) (s : State) : (s.setProducer .tx c p).sched = s.sched := rfl

@[simp] theorem setProducer_tx_draws (c : List Host.Cell) (p : Ptr) (s : State) : (s.setProducer .tx c p).draws = s.draws := rfl

/-! ## `setRptr` -/

@[simp] theorem setRptr_rx_cfg (p : Ptr) (s : State) : (s.setRptr .rx p).cfg = s.cfg := rfl

@[simp] theorem setRptr_rx_fg (p : Ptr) (s : State) : (s.setRptr .rx p).fg = { s.fg with rptrRx := p } := rfl

@[simp] theorem setRptr_rx_ev (p : Ptr) (s : State) : (s.setRptr .rx p).ev = s.ev := rfl

@[simp] theorem setRptr_rx_memRx (p : Ptr) (s : State) : (s.setRptr .rx p).memRx = s.memRx := rfl

@[simp] theorem setRptr_rx_memTx (p : Ptr) (s : State) : (s.setRptr .rx p).memTx = s.memTx := rfl

@[simp] theorem setRptr_rx_out (p : Ptr) (s : State) : (s.setRptr .rx p).out = s.out := rfl

@[simp] theorem setRptr_rx_faultPre (p : Ptr) (s : State) : (s.setRptr .rx p).faultPre = s.faultPre := rfl

@[simp] theorem setRptr_rx_refused (p : Ptr) (s : State) : (s.setRptr .rx p).refused = s.refused := rfl

@[simp] theorem setRptr_rx_port (p : Ptr) (s : State) : (s.setRptr .rx p).port = s.port := rfl

@[simp] theorem setRptr_rx_dev (p : Ptr) (s : State) : (s.setRptr .rx p).dev = s.dev := rfl

@[simp] theorem setRptr_rx_devEvent (p : Ptr) (s : State) : (s.setRptr .rx p).devEvent = s.devEvent := rfl

@[simp] theorem setRptr_rx_devOwes (p : Ptr) (s : State) : (s.setRptr .rx p).devOwes = s.devOwes := rfl

@[simp] theorem setRptr_rx_sched (p : Ptr) (s : State) : (s.setRptr .rx p).sched = s.sched := rfl

@[simp] theorem setRptr_rx_draws (p : Ptr) (s : State) : (s.setRptr .rx p).draws = s.draws := rfl

/-! ## `setRptr`, TX -/

@[simp] theorem setRptr_tx_cfg (p : Ptr) (s : State) : (s.setRptr .tx p).cfg = s.cfg := rfl

@[simp] theorem setRptr_tx_fg (p : Ptr) (s : State) : (s.setRptr .tx p).fg = s.fg := rfl

@[simp] theorem setRptr_tx_ev (p : Ptr) (s : State) : (s.setRptr .tx p).ev = { s.ev with rptrTx := p } := rfl

@[simp] theorem setRptr_tx_memRx (p : Ptr) (s : State) : (s.setRptr .tx p).memRx = s.memRx := rfl

@[simp] theorem setRptr_tx_memTx (p : Ptr) (s : State) : (s.setRptr .tx p).memTx = s.memTx := rfl

@[simp] theorem setRptr_tx_out (p : Ptr) (s : State) : (s.setRptr .tx p).out = s.out := rfl

@[simp] theorem setRptr_tx_faultPre (p : Ptr) (s : State) : (s.setRptr .tx p).faultPre = s.faultPre := rfl

@[simp] theorem setRptr_tx_refused (p : Ptr) (s : State) : (s.setRptr .tx p).refused = s.refused := rfl

@[simp] theorem setRptr_tx_port (p : Ptr) (s : State) : (s.setRptr .tx p).port = s.port := rfl

@[simp] theorem setRptr_tx_dev (p : Ptr) (s : State) : (s.setRptr .tx p).dev = s.dev := rfl

@[simp] theorem setRptr_tx_devEvent (p : Ptr) (s : State) : (s.setRptr .tx p).devEvent = s.devEvent := rfl

@[simp] theorem setRptr_tx_devOwes (p : Ptr) (s : State) : (s.setRptr .tx p).devOwes = s.devOwes := rfl

@[simp] theorem setRptr_tx_sched (p : Ptr) (s : State) : (s.setRptr .tx p).sched = s.sched := rfl

@[simp] theorem setRptr_tx_draws (p : Ptr) (s : State) : (s.setRptr .tx p).draws = s.draws := rfl

/-! ## `finishHeld` -/

@[simp] theorem finishHeld_cfg (w : Word) (l : List Byte) (s : State) : (s.finishHeld w l).cfg = s.cfg := rfl

@[simp] theorem finishHeld_fg (w : Word) (l : List Byte) (s : State) : (s.finishHeld w l).fg = { s.fg with state := if s.fg.resume then .flushWait else .idle, resume := false } := rfl

@[simp] theorem finishHeld_ev (w : Word) (l : List Byte) (s : State) : (s.finishHeld w l).ev = s.ev := rfl

@[simp] theorem finishHeld_memRx (w : Word) (l : List Byte) (s : State) : (s.finishHeld w l).memRx = s.memRx := rfl

@[simp] theorem finishHeld_memTx (w : Word) (l : List Byte) (s : State) : (s.finishHeld w l).memTx = s.memTx := rfl

@[simp] theorem finishHeld_out (w : Word) (l : List Byte) (s : State) : (s.finishHeld w l).out = s.out ++ [.rsp w l] := rfl

@[simp] theorem finishHeld_faultPre (w : Word) (l : List Byte) (s : State) : (s.finishHeld w l).faultPre = s.faultPre := rfl

@[simp] theorem finishHeld_refused (w : Word) (l : List Byte) (s : State) : (s.finishHeld w l).refused = s.refused := rfl

@[simp] theorem finishHeld_port (w : Word) (l : List Byte) (s : State) : (s.finishHeld w l).port = s.port := rfl

@[simp] theorem finishHeld_dev (w : Word) (l : List Byte) (s : State) : (s.finishHeld w l).dev = s.dev := rfl

@[simp] theorem finishHeld_devEvent (w : Word) (l : List Byte) (s : State) : (s.finishHeld w l).devEvent = s.devEvent := rfl

@[simp] theorem finishHeld_devOwes (w : Word) (l : List Byte) (s : State) : (s.finishHeld w l).devOwes = s.devOwes := rfl

@[simp] theorem finishHeld_sched (w : Word) (l : List Byte) (s : State) : (s.finishHeld w l).sched = s.sched := rfl

@[simp] theorem finishHeld_draws (w : Word) (l : List Byte) (s : State) : (s.finishHeld w l).draws = s.draws := rfl

/-! ## `acceptWrite` -/

@[simp] theorem acceptWrite_cfg (n : Nat) (l : List Byte) (s : State) : (s.acceptWrite n l).cfg = s.cfg := rfl

@[simp] theorem acceptWrite_ev (n : Nat) (l : List Byte) (s : State) : (s.acceptWrite n l).ev = s.ev := rfl

@[simp] theorem acceptWrite_memRx (n : Nat) (l : List Byte) (s : State) : (s.acceptWrite n l).memRx = s.memRx := rfl

@[simp] theorem acceptWrite_memTx (n : Nat) (l : List Byte) (s : State) : (s.acceptWrite n l).memTx = s.memTx := rfl

@[simp] theorem acceptWrite_out (n : Nat) (l : List Byte) (s : State) : (s.acceptWrite n l).out = s.out := rfl

@[simp] theorem acceptWrite_faultPre (n : Nat) (l : List Byte) (s : State) : (s.acceptWrite n l).faultPre = s.faultPre := rfl

@[simp] theorem acceptWrite_refused (n : Nat) (l : List Byte) (s : State) : (s.acceptWrite n l).refused = s.refused := rfl

@[simp] theorem acceptWrite_port (n : Nat) (l : List Byte) (s : State) : (s.acceptWrite n l).port = s.port := rfl

@[simp] theorem acceptWrite_dev (n : Nat) (l : List Byte) (s : State) : (s.acceptWrite n l).dev = s.dev := rfl

@[simp] theorem acceptWrite_devEvent (n : Nat) (l : List Byte) (s : State) : (s.acceptWrite n l).devEvent = s.devEvent := rfl

@[simp] theorem acceptWrite_devOwes (n : Nat) (l : List Byte) (s : State) : (s.acceptWrite n l).devOwes = s.devOwes := rfl

@[simp] theorem acceptWrite_sched (n : Nat) (l : List Byte) (s : State) : (s.acceptWrite n l).sched = s.sched := rfl

@[simp] theorem acceptWrite_draws (n : Nat) (l : List Byte) (s : State) : (s.acceptWrite n l).draws = s.draws := rfl

@[simp] theorem acceptWrite_fg_rptrRx (n : Nat) (l : List Byte) (s : State) :
    (s.acceptWrite n l).fg.rptrRx = s.fg.rptrRx := rfl

@[simp] theorem acceptWrite_fg_wptrTx (n : Nat) (l : List Byte) (s : State) :
    (s.acceptWrite n l).fg.wptrTx = s.fg.wptrTx := rfl

@[simp] theorem acceptWrite_fg_rpubRx (n : Nat) (l : List Byte) (s : State) :
    (s.acceptWrite n l).fg.rpubRx = s.fg.rpubRx := rfl

@[simp] theorem acceptWrite_fg_wpubTx (n : Nat) (l : List Byte) (s : State) :
    (s.acceptWrite n l).fg.wpubTx = s.fg.wpubTx := rfl

@[simp] theorem acceptWrite_fg_wsyncRx (n : Nat) (l : List Byte) (s : State) :
    (s.acceptWrite n l).fg.wsyncRx = s.fg.wsyncRx := rfl

@[simp] theorem acceptWrite_fg_rsyncTx (n : Nat) (l : List Byte) (s : State) :
    (s.acceptWrite n l).fg.rsyncTx = s.fg.rsyncTx := rfl

@[simp] theorem acceptWrite_fg_accBin (n : Nat) (l : List Byte) (s : State) :
    (s.acceptWrite n l).fg.accBin = s.fg.accBin + BitVec.ofNat 32 n := rfl

@[simp] theorem acceptWrite_fg_accReq (n : Nat) (l : List Byte) (s : State) :
    (s.acceptWrite n l).fg.accReq = !s.fg.accReq := rfl

@[simp] theorem acceptWrite_fg_ack (n : Nat) (l : List Byte) (s : State) :
    (s.acceptWrite n l).fg.ack = s.fg.ack := rfl

@[simp] theorem acceptWrite_fg_busy (n : Nat) (l : List Byte) (s : State) :
    (s.acceptWrite n l).fg.busy = s.fg.busy := rfl

@[simp] theorem acceptWrite_fg_gate (n : Nat) (l : List Byte) (s : State) :
    (s.acceptWrite n l).fg.gate = s.fg.gate := rfl

@[simp] theorem acceptWrite_fg_ddone (n : Nat) (l : List Byte) (s : State) :
    (s.acceptWrite n l).fg.ddone = s.fg.ddone := rfl

@[simp] theorem acceptWrite_fg_ctrl (n : Nat) (l : List Byte) (s : State) :
    (s.acceptWrite n l).fg.ctrl = s.fg.ctrl := rfl

@[simp] theorem acceptWrite_fg_status (n : Nat) (l : List Byte) (s : State) :
    (s.acceptWrite n l).fg.status = s.fg.status := rfl

@[simp] theorem acceptWrite_fg_shadow (n : Nat) (l : List Byte) (s : State) :
    (s.acceptWrite n l).fg.shadow = s.fg.shadow := rfl

@[simp] theorem acceptWrite_fg_state (n : Nat) (l : List Byte) (s : State) :
    (s.acceptWrite n l).fg.state = .waitAck := rfl

@[simp] theorem acceptWrite_fg_word (n : Nat) (l : List Byte) (s : State) :
    (s.acceptWrite n l).fg.word = s.port.cmd := rfl

@[simp] theorem acceptWrite_fg_acc (n : Nat) (l : List Byte) (s : State) :
    (s.acceptWrite n l).fg.acc = BitVec.ofNat 16 n := rfl

@[simp] theorem acceptWrite_fg_rem (n : Nat) (l : List Byte) (s : State) :
    (s.acceptWrite n l).fg.rem = BitVec.ofNat 16 n := rfl

@[simp] theorem acceptWrite_fg_src (n : Nat) (l : List Byte) (s : State) :
    (s.acceptWrite n l).fg.src = l.take n := rfl

@[simp] theorem acceptWrite_fg_resume (n : Nat) (l : List Byte) (s : State) :
    (s.acceptWrite n l).fg.resume = (s.fg.resume || decide (s.fg.state = .flushWait)) := rfl

/-! ## `portTaken` -/

@[simp] theorem portTaken_cfg (s : State) : (s.portTaken).cfg = s.cfg := rfl

@[simp] theorem portTaken_fg (s : State) : (s.portTaken).fg = s.fg := rfl

@[simp] theorem portTaken_ev (s : State) : (s.portTaken).ev = s.ev := rfl

@[simp] theorem portTaken_memRx (s : State) : (s.portTaken).memRx = s.memRx := rfl

@[simp] theorem portTaken_memTx (s : State) : (s.portTaken).memTx = s.memTx := rfl

@[simp] theorem portTaken_out (s : State) : (s.portTaken).out = s.out := rfl

@[simp] theorem portTaken_faultPre (s : State) : (s.portTaken).faultPre = s.faultPre := rfl

@[simp] theorem portTaken_refused (s : State) : (s.portTaken).refused = s.refused := rfl

@[simp] theorem portTaken_port (s : State) : (s.portTaken).port = { s.port with valid := false } := rfl

@[simp] theorem portTaken_dev (s : State) : (s.portTaken).dev = s.dev := rfl

@[simp] theorem portTaken_devEvent (s : State) : (s.portTaken).devEvent = s.devEvent := rfl

@[simp] theorem portTaken_devOwes (s : State) : (s.portTaken).devOwes = s.devOwes := rfl

@[simp] theorem portTaken_sched (s : State) : (s.portTaken).sched = s.sched := rfl

@[simp] theorem portTaken_draws (s : State) : (s.portTaken).draws = s.draws := rfl

/-! ## `moveTaken` -/

@[simp] theorem moveTaken_cfg (s : State) : (s.moveTaken).cfg = s.cfg := rfl

@[simp] theorem moveTaken_fg (s : State) : (s.moveTaken).fg = s.fg := rfl

@[simp] theorem moveTaken_ev (s : State) : (s.moveTaken).ev = s.ev := rfl

@[simp] theorem moveTaken_memRx (s : State) : (s.moveTaken).memRx = s.memRx := rfl

@[simp] theorem moveTaken_memTx (s : State) : (s.moveTaken).memTx = s.memTx := rfl

@[simp] theorem moveTaken_out (s : State) : (s.moveTaken).out = s.out := rfl

@[simp] theorem moveTaken_faultPre (s : State) : (s.moveTaken).faultPre = s.faultPre := rfl

@[simp] theorem moveTaken_refused (s : State) : (s.moveTaken).refused = s.refused := rfl

@[simp] theorem moveTaken_port (s : State) : (s.moveTaken).port = s.port := rfl

@[simp] theorem moveTaken_dev (s : State) : (s.moveTaken).dev = s.dev := rfl

@[simp] theorem moveTaken_devEvent (s : State) : (s.moveTaken).devEvent = s.devEvent := rfl

@[simp] theorem moveTaken_devOwes (s : State) : (s.moveTaken).devOwes = s.devOwes := rfl

@[simp] theorem moveTaken_sched (s : State) : (s.moveTaken).sched = s.sched.tail := rfl

@[simp] theorem moveTaken_draws (s : State) : (s.moveTaken).draws = s.draws + 1 := rfl

/-! ## `fgCrossings` -/

@[simp] theorem fgCrossings_cfg (copy : LineState) (s t : State) : (State.fgCrossings copy s t).cfg = t.cfg := rfl

@[simp] theorem fgCrossings_ev (copy : LineState) (s t : State) : (State.fgCrossings copy s t).ev = t.ev := rfl

@[simp] theorem fgCrossings_memRx (copy : LineState) (s t : State) : (State.fgCrossings copy s t).memRx = t.memRx := rfl

@[simp] theorem fgCrossings_memTx (copy : LineState) (s t : State) : (State.fgCrossings copy s t).memTx = t.memTx := rfl

@[simp] theorem fgCrossings_out (copy : LineState) (s t : State) : (State.fgCrossings copy s t).out = t.out := rfl

@[simp] theorem fgCrossings_faultPre (copy : LineState) (s t : State) : (State.fgCrossings copy s t).faultPre = t.faultPre := rfl

@[simp] theorem fgCrossings_refused (copy : LineState) (s t : State) : (State.fgCrossings copy s t).refused = t.refused := rfl

@[simp] theorem fgCrossings_port (copy : LineState) (s t : State) : (State.fgCrossings copy s t).port = t.port := rfl

@[simp] theorem fgCrossings_dev (copy : LineState) (s t : State) : (State.fgCrossings copy s t).dev = t.dev := rfl

@[simp] theorem fgCrossings_devEvent (copy : LineState) (s t : State) : (State.fgCrossings copy s t).devEvent = t.devEvent := rfl

@[simp] theorem fgCrossings_devOwes (copy : LineState) (s t : State) : (State.fgCrossings copy s t).devOwes = t.devOwes := rfl

@[simp] theorem fgCrossings_sched (copy : LineState) (s t : State) : (State.fgCrossings copy s t).sched = t.sched := rfl

@[simp] theorem fgCrossings_draws (copy : LineState) (s t : State) : (State.fgCrossings copy s t).draws = t.draws := rfl

@[simp] theorem fgCrossings_fg_rptrRx (copy : LineState) (s t : State) :
    (State.fgCrossings copy s t).fg.rptrRx = t.fg.rptrRx := rfl

@[simp] theorem fgCrossings_fg_wptrTx (copy : LineState) (s t : State) :
    (State.fgCrossings copy s t).fg.wptrTx = t.fg.wptrTx := rfl

@[simp] theorem fgCrossings_fg_rpubRx (copy : LineState) (s t : State) :
    (State.fgCrossings copy s t).fg.rpubRx = publish (s.modulus .rx) s.fg.rptrRx s.fg.rpubRx := rfl

@[simp] theorem fgCrossings_fg_wpubTx (copy : LineState) (s t : State) :
    (State.fgCrossings copy s t).fg.wpubTx = publish (s.modulus .tx) s.fg.wptrTx s.fg.wpubTx := rfl

@[simp] theorem fgCrossings_fg_wsyncRx (copy : LineState) (s t : State) :
    (State.fgCrossings copy s t).fg.wsyncRx = syncShift s.fg.wsyncRx s.ev.wpubRx.g := rfl

@[simp] theorem fgCrossings_fg_rsyncTx (copy : LineState) (s t : State) :
    (State.fgCrossings copy s t).fg.rsyncTx = syncShift s.fg.rsyncTx s.ev.rpubTx.g := rfl

@[simp] theorem fgCrossings_fg_accBin (copy : LineState) (s t : State) :
    (State.fgCrossings copy s t).fg.accBin = t.fg.accBin := rfl

@[simp] theorem fgCrossings_fg_accReq (copy : LineState) (s t : State) :
    (State.fgCrossings copy s t).fg.accReq = t.fg.accReq := rfl

@[simp] theorem fgCrossings_fg_ack (copy : LineState) (s t : State) :
    (State.fgCrossings copy s t).fg.ack = syncShift s.fg.ack s.ev.accAck := rfl

@[simp] theorem fgCrossings_fg_busy (copy : LineState) (s t : State) :
    (State.fgCrossings copy s t).fg.busy = syncShift s.fg.busy s.ev.busyEv := rfl

@[simp] theorem fgCrossings_fg_gate (copy : LineState) (s t : State) :
    (State.fgCrossings copy s t).fg.gate = syncShift s.fg.gate s.ev.gateEv := rfl

@[simp] theorem fgCrossings_fg_ddone (copy : LineState) (s t : State) :
    (State.fgCrossings copy s t).fg.ddone = syncShift s.fg.ddone s.dev.done := rfl

@[simp] theorem fgCrossings_fg_ctrl (copy : LineState) (s t : State) :
    (State.fgCrossings copy s t).fg.ctrl = t.fg.ctrl := rfl

@[simp] theorem fgCrossings_fg_status (copy : LineState) (s t : State) :
    (State.fgCrossings copy s t).fg.status = t.fg.status := rfl

@[simp] theorem fgCrossings_fg_shadow (copy : LineState) (s t : State) :
    (State.fgCrossings copy s t).fg.shadow = lineSync copy s.fg.shadow s.dev.line := rfl

@[simp] theorem fgCrossings_fg_state (copy : LineState) (s t : State) :
    (State.fgCrossings copy s t).fg.state = t.fg.state := rfl

@[simp] theorem fgCrossings_fg_word (copy : LineState) (s t : State) :
    (State.fgCrossings copy s t).fg.word = t.fg.word := rfl

@[simp] theorem fgCrossings_fg_acc (copy : LineState) (s t : State) :
    (State.fgCrossings copy s t).fg.acc = t.fg.acc := rfl

@[simp] theorem fgCrossings_fg_rem (copy : LineState) (s t : State) :
    (State.fgCrossings copy s t).fg.rem = t.fg.rem := rfl

@[simp] theorem fgCrossings_fg_src (copy : LineState) (s t : State) :
    (State.fgCrossings copy s t).fg.src = t.fg.src := rfl

@[simp] theorem fgCrossings_fg_resume (copy : LineState) (s t : State) :
    (State.fgCrossings copy s t).fg.resume = t.fg.resume := rfl

/-! ## `evCrossings` -/

@[simp] theorem evCrossings_cfg (s t : State) : (State.evCrossings s t).cfg = t.cfg := rfl

@[simp] theorem evCrossings_fg (s t : State) : (State.evCrossings s t).fg = t.fg := rfl

@[simp] theorem evCrossings_memRx (s t : State) : (State.evCrossings s t).memRx = t.memRx := rfl

@[simp] theorem evCrossings_memTx (s t : State) : (State.evCrossings s t).memTx = t.memTx := rfl

@[simp] theorem evCrossings_out (s t : State) : (State.evCrossings s t).out = t.out := rfl

@[simp] theorem evCrossings_faultPre (s t : State) : (State.evCrossings s t).faultPre = t.faultPre := rfl

@[simp] theorem evCrossings_refused (s t : State) : (State.evCrossings s t).refused = t.refused := rfl

@[simp] theorem evCrossings_port (s t : State) : (State.evCrossings s t).port = t.port := rfl

@[simp] theorem evCrossings_dev (s t : State) : (State.evCrossings s t).dev = t.dev := rfl

@[simp] theorem evCrossings_devEvent (s t : State) : (State.evCrossings s t).devEvent = t.devEvent := rfl

@[simp] theorem evCrossings_devOwes (s t : State) : (State.evCrossings s t).devOwes = t.devOwes := rfl

@[simp] theorem evCrossings_sched (s t : State) : (State.evCrossings s t).sched = t.sched := rfl

@[simp] theorem evCrossings_draws (s t : State) : (State.evCrossings s t).draws = t.draws := rfl

@[simp] theorem evCrossings_ev_wptrRx (s t : State) :
    (State.evCrossings s t).ev.wptrRx = t.ev.wptrRx := rfl

@[simp] theorem evCrossings_ev_rptrTx (s t : State) :
    (State.evCrossings s t).ev.rptrTx = t.ev.rptrTx := rfl

@[simp] theorem evCrossings_ev_wpubRx (s t : State) :
    (State.evCrossings s t).ev.wpubRx = publish (s.modulus .rx) s.ev.wptrRx s.ev.wpubRx := rfl

@[simp] theorem evCrossings_ev_rpubTx (s t : State) :
    (State.evCrossings s t).ev.rpubTx = publish (s.modulus .tx) s.ev.rptrTx s.ev.rpubTx := rfl

@[simp] theorem evCrossings_ev_rsyncRx (s t : State) :
    (State.evCrossings s t).ev.rsyncRx = syncShift s.ev.rsyncRx s.fg.rpubRx.g := rfl

@[simp] theorem evCrossings_ev_wsyncTx (s t : State) :
    (State.evCrossings s t).ev.wsyncTx = syncShift s.ev.wsyncTx s.fg.wpubTx.g := rfl

@[simp] theorem evCrossings_ev_txSize (s t : State) :
    (State.evCrossings s t).ev.txSize = t.ev.txSize := rfl

@[simp] theorem evCrossings_ev_accEv (s t : State) :
    (State.evCrossings s t).ev.accEv = if s.ackEnabled then s.fg.accBin else s.ev.accEv := rfl

@[simp] theorem evCrossings_ev_accAck (s t : State) :
    (State.evCrossings s t).ev.accAck = if s.ackEnabled then s.ev.req.s2 else s.ev.accAck := rfl

@[simp] theorem evCrossings_ev_req (s t : State) :
    (State.evCrossings s t).ev.req = syncShift s.ev.req s.fg.accReq := rfl

@[simp] theorem evCrossings_ev_txCompleted (s t : State) :
    (State.evCrossings s t).ev.txCompleted = t.ev.txCompleted := rfl

@[simp] theorem evCrossings_ev_busyEv (s t : State) :
    (State.evCrossings s t).ev.busyEv = decide (t.ev.txSize ≠ 0) := rfl

@[simp] theorem evCrossings_ev_gateEv (s t : State) :
    (State.evCrossings s t).ev.gateEv = gateOpen s.dev := rfl

@[simp] theorem evCrossings_ev_rxn (s t : State) :
    (State.evCrossings s t).ev.rxn = syncShift s.ev.rxn (ctrlRxne s.fg.ctrl) := rfl

@[simp] theorem evCrossings_ev_txn (s t : State) :
    (State.evCrossings s t).ev.txn = syncShift s.ev.txn (ctrlTxne s.fg.ctrl) := rfl

@[simp] theorem evCrossings_ev_state (s t : State) :
    (State.evCrossings s t).ev.state = t.ev.state := rfl

@[simp] theorem evCrossings_ev_mask (s t : State) :
    (State.evCrossings s t).ev.mask = t.ev.mask := rfl

@[simp] theorem evCrossings_ev_rxTotal (s t : State) :
    (State.evCrossings s t).ev.rxTotal = t.ev.rxTotal := rfl

@[simp] theorem evCrossings_ev_rxWasEmpty (s t : State) :
    (State.evCrossings s t).ev.rxWasEmpty = t.ev.rxWasEmpty := rfl

@[simp] theorem syncShift_s1 {α : Type} (x : Sync2 α) (v : α) : (syncShift x v).s1 = v := rfl

@[simp] theorem syncShift_s2 {α : Type} (x : Sync2 α) (v : α) : (syncShift x v).s2 = x.s1 := rfl

/-! ## `evRound` -/

@[simp] theorem evRound_cfg (m : BitVec 2) (s : State) : (s.evRound m).cfg = s.cfg := rfl

@[simp] theorem evRound_fg (m : BitVec 2) (s : State) : (s.evRound m).fg = s.fg := rfl

@[simp] theorem evRound_memRx (m : BitVec 2) (s : State) : (s.evRound m).memRx = s.memRx := rfl

@[simp] theorem evRound_memTx (m : BitVec 2) (s : State) : (s.evRound m).memTx = s.memTx := rfl

@[simp] theorem evRound_out (m : BitVec 2) (s : State) : (s.evRound m).out = s.out := rfl

@[simp] theorem evRound_faultPre (m : BitVec 2) (s : State) : (s.evRound m).faultPre = s.faultPre := rfl

@[simp] theorem evRound_refused (m : BitVec 2) (s : State) : (s.evRound m).refused = s.refused := rfl

@[simp] theorem evRound_port (m : BitVec 2) (s : State) : (s.evRound m).port = s.port := rfl

@[simp] theorem evRound_dev (m : BitVec 2) (s : State) : (s.evRound m).dev = s.dev := rfl

@[simp] theorem evRound_devEvent (m : BitVec 2) (s : State) : (s.evRound m).devEvent = none := rfl

@[simp] theorem evRound_devOwes (m : BitVec 2) (s : State) : (s.evRound m).devOwes = s.devOwes := rfl

@[simp] theorem evRound_sched (m : BitVec 2) (s : State) : (s.evRound m).sched = s.sched := rfl

@[simp] theorem evRound_draws (m : BitVec 2) (s : State) : (s.evRound m).draws = s.draws := rfl

@[simp] theorem evRound_ev_wptrRx (m : BitVec 2) (s : State) :
    (s.evRound m).ev.wptrRx = s.ev.wptrRx := rfl

@[simp] theorem evRound_ev_rptrTx (m : BitVec 2) (s : State) :
    (s.evRound m).ev.rptrTx = s.ev.rptrTx := rfl

@[simp] theorem evRound_ev_wpubRx (m : BitVec 2) (s : State) :
    (s.evRound m).ev.wpubRx = s.ev.wpubRx := rfl

@[simp] theorem evRound_ev_rpubTx (m : BitVec 2) (s : State) :
    (s.evRound m).ev.rpubTx = s.ev.rpubTx := rfl

@[simp] theorem evRound_ev_rsyncRx (m : BitVec 2) (s : State) :
    (s.evRound m).ev.rsyncRx = s.ev.rsyncRx := rfl

@[simp] theorem evRound_ev_wsyncTx (m : BitVec 2) (s : State) :
    (s.evRound m).ev.wsyncTx = s.ev.wsyncTx := rfl

@[simp] theorem evRound_ev_txSize (m : BitVec 2) (s : State) :
    (s.evRound m).ev.txSize = s.ev.txSize := rfl

@[simp] theorem evRound_ev_accEv (m : BitVec 2) (s : State) :
    (s.evRound m).ev.accEv = s.ev.accEv := rfl

@[simp] theorem evRound_ev_accAck (m : BitVec 2) (s : State) :
    (s.evRound m).ev.accAck = s.ev.accAck := rfl

@[simp] theorem evRound_ev_req (m : BitVec 2) (s : State) :
    (s.evRound m).ev.req = s.ev.req := rfl

@[simp] theorem evRound_ev_txCompleted (m : BitVec 2) (s : State) :
    (s.evRound m).ev.txCompleted = s.ev.txCompleted := rfl

@[simp] theorem evRound_ev_busyEv (m : BitVec 2) (s : State) :
    (s.evRound m).ev.busyEv = s.ev.busyEv := rfl

@[simp] theorem evRound_ev_gateEv (m : BitVec 2) (s : State) :
    (s.evRound m).ev.gateEv = s.ev.gateEv := rfl

@[simp] theorem evRound_ev_rxn (m : BitVec 2) (s : State) :
    (s.evRound m).ev.rxn = s.ev.rxn := rfl

@[simp] theorem evRound_ev_txn (m : BitVec 2) (s : State) :
    (s.evRound m).ev.txn = s.ev.txn := rfl

@[simp] theorem evRound_ev_state (m : BitVec 2) (s : State) :
    (s.evRound m).ev.state = if m.getLsbD 0 then .rxDrain else if m.getLsbD 1 then .txDone else .idle := rfl

@[simp] theorem evRound_ev_mask (m : BitVec 2) (s : State) :
    (s.evRound m).ev.mask = m := rfl

@[simp] theorem evRound_ev_rxTotal (m : BitVec 2) (s : State) :
    (s.evRound m).ev.rxTotal = 0 := rfl

@[simp] theorem evRound_ev_rxWasEmpty (m : BitVec 2) (s : State) :
    (s.evRound m).ev.rxWasEmpty = decide (s.prodView .rx = 0) := rfl

/-! ## `txLaunch` -/

@[simp] theorem txLaunch_cfg (s : State) : (s.txLaunch).cfg = s.cfg := rfl

@[simp] theorem txLaunch_fg (s : State) : (s.txLaunch).fg = s.fg := rfl

@[simp] theorem txLaunch_ev (s : State) : (s.txLaunch).ev = { s.ev with txSize := BitVec.ofNat 16 s.clampMux } := rfl

@[simp] theorem txLaunch_memRx (s : State) : (s.txLaunch).memRx = s.memRx := rfl

@[simp] theorem txLaunch_memTx (s : State) : (s.txLaunch).memTx = s.memTx := rfl

@[simp] theorem txLaunch_out (s : State) : (s.txLaunch).out = s.out ++ [.tx (s.ringRead .tx (s.idx .tx (s.rptr .tx)) s.clampMux)] := rfl

@[simp] theorem txLaunch_faultPre (s : State) : (s.txLaunch).faultPre = s.faultPre := rfl

@[simp] theorem txLaunch_refused (s : State) : (s.txLaunch).refused = s.refused := rfl

@[simp] theorem txLaunch_port (s : State) : (s.txLaunch).port = s.port := rfl

@[simp] theorem txLaunch_dev (s : State) : (s.txLaunch).dev = s.dev := rfl

@[simp] theorem txLaunch_devEvent (s : State) : (s.txLaunch).devEvent = s.devEvent := rfl

@[simp] theorem txLaunch_devOwes (s : State) : (s.txLaunch).devOwes = true := rfl

@[simp] theorem txLaunch_sched (s : State) : (s.txLaunch).sched = s.sched := rfl

@[simp] theorem txLaunch_draws (s : State) : (s.txLaunch).draws = s.draws := rfl

/-! ## `hostPresent` -/

@[simp] theorem hostPresent_cfg (p : Option HostCmd) (s : State) : (s.hostPresent p).cfg = s.cfg := by
  cases p <;> simp only [State.hostPresent]; split <;> rfl

@[simp] theorem hostPresent_fg (p : Option HostCmd) (s : State) : (s.hostPresent p).fg = s.fg := by
  cases p <;> simp only [State.hostPresent]; split <;> rfl

@[simp] theorem hostPresent_ev (p : Option HostCmd) (s : State) : (s.hostPresent p).ev = s.ev := by
  cases p <;> simp only [State.hostPresent]; split <;> rfl

@[simp] theorem hostPresent_memRx (p : Option HostCmd) (s : State) : (s.hostPresent p).memRx = s.memRx := by
  cases p <;> simp only [State.hostPresent]; split <;> rfl

@[simp] theorem hostPresent_memTx (p : Option HostCmd) (s : State) : (s.hostPresent p).memTx = s.memTx := by
  cases p <;> simp only [State.hostPresent]; split <;> rfl

@[simp] theorem hostPresent_out (p : Option HostCmd) (s : State) : (s.hostPresent p).out = s.out := by
  cases p <;> simp only [State.hostPresent]; split <;> rfl

@[simp] theorem hostPresent_faultPre (p : Option HostCmd) (s : State) : (s.hostPresent p).faultPre = s.faultPre := by
  cases p <;> simp only [State.hostPresent]; split <;> rfl

@[simp] theorem hostPresent_refused (p : Option HostCmd) (s : State) : (s.hostPresent p).refused = s.refused := by
  cases p <;> simp only [State.hostPresent]; split <;> rfl

@[simp] theorem hostPresent_dev (p : Option HostCmd) (s : State) : (s.hostPresent p).dev = s.dev := by
  cases p <;> simp only [State.hostPresent]; split <;> rfl

@[simp] theorem hostPresent_devEvent (p : Option HostCmd) (s : State) : (s.hostPresent p).devEvent = s.devEvent := by
  cases p <;> simp only [State.hostPresent]; split <;> rfl

@[simp] theorem hostPresent_devOwes (p : Option HostCmd) (s : State) : (s.hostPresent p).devOwes = s.devOwes := by
  cases p <;> simp only [State.hostPresent]; split <;> rfl

@[simp] theorem hostPresent_sched (p : Option HostCmd) (s : State) : (s.hostPresent p).sched = s.sched := by
  cases p <;> simp only [State.hostPresent]; split <;> rfl

@[simp] theorem hostPresent_draws (p : Option HostCmd) (s : State) : (s.hostPresent p).draws = s.draws := by
  cases p <;> simp only [State.hostPresent]; split <;> rfl

@[simp] theorem hostPresent_none (s : State) : s.hostPresent none = s := rfl

/-! ## `devStep` -/

@[simp] theorem devStep_cfg (d : DevSignals) (e : Option (BitVec 2)) (s : State) : (s.devStep d e).cfg = s.cfg := by
  simp only [State.devStep, State.devPresent]; split <;> rfl

@[simp] theorem devStep_fg (d : DevSignals) (e : Option (BitVec 2)) (s : State) : (s.devStep d e).fg = s.fg := by
  simp only [State.devStep, State.devPresent]; split <;> rfl

@[simp] theorem devStep_ev (d : DevSignals) (e : Option (BitVec 2)) (s : State) : (s.devStep d e).ev = s.ev := by
  simp only [State.devStep, State.devPresent]; split <;> rfl

@[simp] theorem devStep_memRx (d : DevSignals) (e : Option (BitVec 2)) (s : State) : (s.devStep d e).memRx = s.memRx := by
  simp only [State.devStep, State.devPresent]; split <;> rfl

@[simp] theorem devStep_memTx (d : DevSignals) (e : Option (BitVec 2)) (s : State) : (s.devStep d e).memTx = s.memTx := by
  simp only [State.devStep, State.devPresent]; split <;> rfl

@[simp] theorem devStep_out (d : DevSignals) (e : Option (BitVec 2)) (s : State) : (s.devStep d e).out = s.out := by
  simp only [State.devStep, State.devPresent]; split <;> rfl

@[simp] theorem devStep_faultPre (d : DevSignals) (e : Option (BitVec 2)) (s : State) : (s.devStep d e).faultPre = s.faultPre := by
  simp only [State.devStep, State.devPresent]; split <;> rfl

@[simp] theorem devStep_refused (d : DevSignals) (e : Option (BitVec 2)) (s : State) : (s.devStep d e).refused = s.refused := by
  simp only [State.devStep, State.devPresent]; split <;> rfl

@[simp] theorem devStep_port (d : DevSignals) (e : Option (BitVec 2)) (s : State) : (s.devStep d e).port = s.port := by
  simp only [State.devStep, State.devPresent]; split <;> rfl

@[simp] theorem devStep_dev (d : DevSignals) (e : Option (BitVec 2)) (s : State) : (s.devStep d e).dev = d := rfl

@[simp] theorem devStep_sched (d : DevSignals) (e : Option (BitVec 2)) (s : State) : (s.devStep d e).sched = s.sched := by
  simp only [State.devStep, State.devPresent]; split <;> rfl

@[simp] theorem devStep_draws (d : DevSignals) (e : Option (BitVec 2)) (s : State) : (s.devStep d e).draws = s.draws := by
  simp only [State.devStep, State.devPresent]; split <;> rfl

/-! ## `finishTaken` -/

@[simp] theorem finishTaken_cfg (w : Word) (l : List Byte) (s : State) : (s.finishTaken w l).cfg = s.cfg := by
  simp only [State.finishTaken]; split <;> rfl

@[simp] theorem finishTaken_ev (w : Word) (l : List Byte) (s : State) : (s.finishTaken w l).ev = s.ev := by
  simp only [State.finishTaken]; split <;> rfl

@[simp] theorem finishTaken_memRx (w : Word) (l : List Byte) (s : State) : (s.finishTaken w l).memRx = s.memRx := by
  simp only [State.finishTaken]; split <;> rfl

@[simp] theorem finishTaken_memTx (w : Word) (l : List Byte) (s : State) : (s.finishTaken w l).memTx = s.memTx := by
  simp only [State.finishTaken]; split <;> rfl

@[simp] theorem finishTaken_out (w : Word) (l : List Byte) (s : State) : (s.finishTaken w l).out = s.out ++ [.rsp w l] := by
  simp only [State.finishTaken]; split <;> rfl

@[simp] theorem finishTaken_faultPre (w : Word) (l : List Byte) (s : State) : (s.finishTaken w l).faultPre = s.faultPre := by
  simp only [State.finishTaken]; split <;> rfl

@[simp] theorem finishTaken_refused (w : Word) (l : List Byte) (s : State) : (s.finishTaken w l).refused = s.refused := by
  simp only [State.finishTaken]; split <;> rfl

@[simp] theorem finishTaken_port (w : Word) (l : List Byte) (s : State) : (s.finishTaken w l).port = s.port := by
  simp only [State.finishTaken]; split <;> rfl

@[simp] theorem finishTaken_dev (w : Word) (l : List Byte) (s : State) : (s.finishTaken w l).dev = s.dev := by
  simp only [State.finishTaken]; split <;> rfl

@[simp] theorem finishTaken_devEvent (w : Word) (l : List Byte) (s : State) : (s.finishTaken w l).devEvent = s.devEvent := by
  simp only [State.finishTaken]; split <;> rfl

@[simp] theorem finishTaken_devOwes (w : Word) (l : List Byte) (s : State) : (s.finishTaken w l).devOwes = s.devOwes := by
  simp only [State.finishTaken]; split <;> rfl

@[simp] theorem finishTaken_sched (w : Word) (l : List Byte) (s : State) : (s.finishTaken w l).sched = s.sched := by
  simp only [State.finishTaken]; split <;> rfl

@[simp] theorem finishTaken_draws (w : Word) (l : List Byte) (s : State) : (s.finishTaken w l).draws = s.draws := by
  simp only [State.finishTaken]; split <;> rfl

@[simp] theorem finishTaken_fg_rptrRx (w : Word) (l : List Byte) (s : State) : (s.finishTaken w l).fg.rptrRx = s.fg.rptrRx := by
  simp only [State.finishTaken]; split <;> rfl

@[simp] theorem finishTaken_fg_wptrTx (w : Word) (l : List Byte) (s : State) : (s.finishTaken w l).fg.wptrTx = s.fg.wptrTx := by
  simp only [State.finishTaken]; split <;> rfl

@[simp] theorem finishTaken_fg_rpubRx (w : Word) (l : List Byte) (s : State) : (s.finishTaken w l).fg.rpubRx = s.fg.rpubRx := by
  simp only [State.finishTaken]; split <;> rfl

@[simp] theorem finishTaken_fg_wpubTx (w : Word) (l : List Byte) (s : State) : (s.finishTaken w l).fg.wpubTx = s.fg.wpubTx := by
  simp only [State.finishTaken]; split <;> rfl

@[simp] theorem finishTaken_fg_wsyncRx (w : Word) (l : List Byte) (s : State) : (s.finishTaken w l).fg.wsyncRx = s.fg.wsyncRx := by
  simp only [State.finishTaken]; split <;> rfl

@[simp] theorem finishTaken_fg_rsyncTx (w : Word) (l : List Byte) (s : State) : (s.finishTaken w l).fg.rsyncTx = s.fg.rsyncTx := by
  simp only [State.finishTaken]; split <;> rfl

@[simp] theorem finishTaken_fg_accBin (w : Word) (l : List Byte) (s : State) : (s.finishTaken w l).fg.accBin = s.fg.accBin := by
  simp only [State.finishTaken]; split <;> rfl

@[simp] theorem finishTaken_fg_accReq (w : Word) (l : List Byte) (s : State) : (s.finishTaken w l).fg.accReq = s.fg.accReq := by
  simp only [State.finishTaken]; split <;> rfl

@[simp] theorem finishTaken_fg_ack (w : Word) (l : List Byte) (s : State) : (s.finishTaken w l).fg.ack = s.fg.ack := by
  simp only [State.finishTaken]; split <;> rfl

@[simp] theorem finishTaken_fg_busy (w : Word) (l : List Byte) (s : State) : (s.finishTaken w l).fg.busy = s.fg.busy := by
  simp only [State.finishTaken]; split <;> rfl

@[simp] theorem finishTaken_fg_gate (w : Word) (l : List Byte) (s : State) : (s.finishTaken w l).fg.gate = s.fg.gate := by
  simp only [State.finishTaken]; split <;> rfl

@[simp] theorem finishTaken_fg_ddone (w : Word) (l : List Byte) (s : State) : (s.finishTaken w l).fg.ddone = s.fg.ddone := by
  simp only [State.finishTaken]; split <;> rfl

@[simp] theorem finishTaken_fg_ctrl (w : Word) (l : List Byte) (s : State) : (s.finishTaken w l).fg.ctrl = s.fg.ctrl := by
  simp only [State.finishTaken]; split <;> rfl

@[simp] theorem finishTaken_fg_status (w : Word) (l : List Byte) (s : State) : (s.finishTaken w l).fg.status = s.fg.status := by
  simp only [State.finishTaken]; split <;> rfl

@[simp] theorem finishTaken_fg_shadow (w : Word) (l : List Byte) (s : State) : (s.finishTaken w l).fg.shadow = s.fg.shadow := by
  simp only [State.finishTaken]; split <;> rfl

@[simp] theorem finishTaken_fg_word (w : Word) (l : List Byte) (s : State) : (s.finishTaken w l).fg.word = s.fg.word := by
  simp only [State.finishTaken]; split <;> rfl

@[simp] theorem finishTaken_fg_acc (w : Word) (l : List Byte) (s : State) : (s.finishTaken w l).fg.acc = s.fg.acc := by
  simp only [State.finishTaken]; split <;> rfl

@[simp] theorem finishTaken_fg_rem (w : Word) (l : List Byte) (s : State) : (s.finishTaken w l).fg.rem = s.fg.rem := by
  simp only [State.finishTaken]; split <;> rfl

@[simp] theorem finishTaken_fg_src (w : Word) (l : List Byte) (s : State) : (s.finishTaken w l).fg.src = s.fg.src := by
  simp only [State.finishTaken]; split <;> rfl

end Sys2Proof.Machine
end

