-- ==== Sys2Proof/Laws/Ops.lean ====
section
/-! SUPPORT. For each shared operation one lemma that says once everything it can do; later proofs cite it instead of
unfolding the operation. -/

namespace Sys2Proof.Machine

/-! ## Completion (41_transmit.md R120) -/

/-- With no preempting write pending in IDLE, `done(w)` at the edge that takes a command changes the output alone. -/
theorem finishTaken_eq_emit {s : State} (h : s.fg.state = .idle → s.fg.resume = false) (w : Word) (l : List Byte) :
    s.finishTaken w l = s.emit (.rsp w l) := by
  simp only [State.finishTaken]
  split
  · rename_i hi
    have hr := h hi
    obtain ⟨cfg, fg, ev, memRx, memTx, out, fp, rf, port, dev, de, dow, sched, draws⟩ := s
    obtain ⟨r, wp, rp, wpb, ws, rs, ab, ar, ak, bu, ga, dd, ct, st, sh, fs, wo, ac, re, sr, rsm⟩ := fg
    cases hi
    cases hr
    rfl
  · rfl

/-- A completion at the taking edge, in general: IDLE with `fg_resume` cleared and the sequencer where `fg_resume`
says, or the held command's registers untouched. -/
theorem finishTaken_cases (s : State) (w : Word) (l : List Byte) :
    (s.fg.state = .idle ∧ s.finishTaken w l = s.finishHeld w l) ∨
      (s.fg.state ≠ .idle ∧ s.finishTaken w l = s.emit (.rsp w l)) := by
  simp only [State.finishTaken]
  split
  · exact .inl ⟨‹_›, rfl⟩
  · exact .inr ⟨‹_›, rfl⟩

/-! ## The primitives (40_ringbuffer.md R103 to R106) -/

theorem canPush_iff (f : Fifo) (src : List Byte) (n : Nat) (s : State) :
    s.canPush f src n = true ↔
      n ≤ s.availableToWrite f ∧ n ≤ s.span f (s.idx f (s.wptr f)) ∧ n ≤ src.length := by
  simp [State.canPush, and_assoc]

theorem canPop_iff (f : Fifo) (n : Nat) (s : State) :
    s.canPop f n = true ↔ n ≤ s.availableToRead f ∧ n ≤ s.span f (s.idx f (s.rptr f)) := by
  simp [State.canPop]

/-- A push writes its bytes and advances, or records the model fault. -/
theorem pushChunk_cases (f : Fifo) (src : List Byte) (n : Nat) (s : State) :
    (s.canPush f src n = true ∧
      s.pushChunk f src n =
        s.setProducer f (memWrite (s.cap f) (s.mem f) (s.idx f (s.wptr f)) (src.take n))
          (ptrAdd (s.modulus f) (s.wptr f) n)) ∨
      (s.canPush f src n = false ∧ s.pushChunk f src n = s.failPrecondition) := by
  simp only [State.pushChunk]
  split
  · exact .inl ⟨‹_›, rfl⟩
  · rename_i h; exact .inr ⟨Bool.eq_false_iff.mpr h, rfl⟩

/-- A pop gives its bytes and advances, or records the model fault. -/
theorem popChunk_cases (f : Fifo) (n : Nat) (s : State) :
    (s.canPop f n = true ∧
      s.popChunk f n =
        (s.ringRead f (s.idx f (s.rptr f)) n, s.setRptr f (ptrAdd (s.modulus f) (s.rptr f) n))) ∨
      (s.canPop f n = false ∧ s.popChunk f n = ([], s.failPrecondition)) := by
  simp only [State.popChunk]
  split
  · exact .inl ⟨‹_›, rfl⟩
  · rename_i h; exact .inr ⟨Bool.eq_false_iff.mpr h, rfl⟩

/-- PEEK's byte, if the view shows one. -/
theorem peekByte_cases (f : Fifo) (s : State) :
    (s.consView f = 0 ∧ s.peekByte f = none) ∨
      (s.consView f ≠ 0 ∧ s.peekByte f = some (cellRead (s.mem f) (s.idx f (s.rptr f)))) := by
  simp only [State.peekByte, State.availableToRead]
  by_cases h : s.consView f = 0 <;> simp [h]

/-- A byte as a result word is never NODATA (42_receive.md R152). -/
theorem byteWord_ne_noData (b : Byte) : byteWord b ≠ noData := by
  intro h
  have := congrArg BitVec.toNat h
  simp only [byteWord, noData, BitVec.truncate_eq_setWidth, BitVec.toNat_setWidth] at this
  have := b.isLt
  rw [Nat.mod_eq_of_lt (by omega)] at *
  simp at *
  omega

/-! ## Fetch and dispatch -/

@[simp] theorem sourceBytes_length (s : State) : s.sourceBytes.length = sourceLength s.port.cmd := by
  simp only [State.sourceBytes, List.length_append, List.length_take, List.length_map, List.length_range]
  omega

/-- With its source bytes at hand every word decodes (30_encoding.md R88). -/
theorem decode_total (w : Word) (data : List Byte) (h : sourceLength w ≤ data.length) :
    ∃ i, decode w data = .ok i := by
  have hop : ∃ i, cmdRsv w = 0 → decodeOp w data = .ok i := by
    by_cases hr : cmdRsv w = 0
    · by_cases h7 : cmdOp w = 7
      · have hs : (cmdSize w).toNat ≤ data.length := by simpa [sourceLength, hr, h7] using h
        exact ⟨.writeb (cmdCtx w) (cmdSize w) (data.take (cmdSize w).toNat), fun _ => by simp [decodeOp, h7, hs]⟩
      · have h7' : (cmdOp w).toNat ≠ 7 := fun hh => h7 (BitVec.eq_of_toNat_eq hh)
        simp only [decodeOp]
        split <;> first | contradiction | exact ⟨_, fun _ => rfl⟩
    · exact ⟨.nop, fun h => absurd h hr⟩
  obtain ⟨i, hi⟩ := hop
  simp only [decode]
  split
  · rename_i h0
    exact ⟨i, hi (BitVec.eq_of_toNat_eq h0)⟩
  all_goals exact ⟨_, rfl⟩

/-- The fetch never lacks a source byte: the refusal `sourceShort` is unreachable. -/
theorem fetch_ok (s : State) : ∃ i, s.fetch = .ok i := decode_total _ _ (by simp)

/-- Every command's meaning answers a next state. -/
theorem exec_next (i : Instr) (s : State) : ∃ t, exec i s = .next t := by
  cases i
  case read => simp only [exec, execRead]; split <;> exact ⟨_, rfl⟩
  case flush ctx => cases ctx <;> exact ⟨_, rfl⟩
  all_goals exact ⟨_, rfl⟩

/-! ## The writes (41_transmit.md R123 to R126) -/

/-- The begin operation answers 0 or accepts a positive number of bytes. -/
theorem beginWrite_cases (ctx : Bool) (size : Count) (source : List Byte) (s : State) :
    ((s.fg.gate.s2 = false ∨ s.acceptedCount ctx size = 0) ∧ s.beginWrite ctx size source = s.finishTaken 0 []) ∨
      (s.fg.gate.s2 = true ∧ 0 < s.acceptedCount ctx size ∧
        s.beginWrite ctx size source = s.acceptWrite (s.acceptedCount ctx size) source) := by
  simp only [State.beginWrite]
  split
  · exact .inl ⟨.inl ‹_›, rfl⟩
  · split
    · exact .inl ⟨.inr ‹_›, rfl⟩
    · rename_i hg _; exact .inr ⟨by simpa using hg, by omega, rfl⟩

/-- The accepted count is at most SIZE, so it fits its 16-bit register. -/
theorem acceptedCount_le (ctx : Bool) (size : Count) (s : State) : s.acceptedCount ctx size ≤ size.toNat := by
  simp only [State.acceptedCount]
  split
  · exact Nat.min_le_left _ _
  · exact Nat.le_refl _

/-- The acknowledge wait goes to PUSH or stays. -/
theorem waitAckStep_cases (s : State) :
    (s.fg.ack.s2 = s.fg.accReq ∧ s.waitAckStep = { s with fg := { s.fg with state := .push } }) ∨
      (s.fg.ack.s2 ≠ s.fg.accReq ∧ s.waitAckStep = s) := by
  simp only [State.waitAckStep]
  split
  · exact .inl ⟨‹_›, rfl⟩
  · exact .inr ⟨‹_›, rfl⟩

/-- A push edge holds, or pushes one span and goes on, or pushes the last span and completes. -/
theorem pushStep_cases (s : State) :
    let t := s.pushChunk .tx s.fg.src s.pushLength
    let rem := s.fg.rem - BitVec.ofNat 16 s.pushLength
    let u := { t with fg := { t.fg with src := s.fg.src.drop s.pushLength, rem := rem } }
    (s.availableToWrite .tx = 0 ∧ s.pushStep = s) ∨
      (s.availableToWrite .tx ≠ 0 ∧ rem ≠ 0 ∧ s.pushStep = u) ∨
      (s.availableToWrite .tx ≠ 0 ∧ rem = 0 ∧ s.pushStep = u.finishHeld (countWord s.fg.acc.toNat) []) := by
  simp only [State.pushStep]
  split
  · exact .inl ⟨‹_›, rfl⟩
  · split
    · exact .inr (.inr ⟨‹_›, ‹_›, rfl⟩)
    · exact .inr (.inl ⟨‹_›, ‹_›, rfl⟩)

/-- A push edge passes its primitive no more than the remaining bytes, the free space and the span (40_ringbuffer.md
R106). -/
theorem pushLength_le (s : State) :
    s.pushLength ≤ s.fg.rem.toNat ∧ s.pushLength ≤ s.availableToWrite .tx ∧
      s.pushLength ≤ s.span .tx (s.idx .tx (s.wptr .tx)) := by
  simp only [State.pushLength]; omega

/-- The flush wait ends or stays. -/
theorem flushWaitStep_cases (s : State) :
    (s.prodView .tx = 0 ∧ s.fg.ddone.s2 = true ∧ s.flushWaitStep = s.finishHeld 0 []) ∨
      (¬(s.prodView .tx = 0 ∧ s.fg.ddone.s2 = true) ∧ s.flushWaitStep = s) := by
  simp only [State.flushWaitStep]
  split
  · rename_i h; exact .inl ⟨h.1, h.2, rfl⟩
  · exact .inr ⟨‹_›, rfl⟩

/-! ## The EV sequencer -/

/-- The packet length is at most the view, the span and the ceiling (41_transmit.md R131). -/
theorem clampMux_le (s : State) :
    s.clampMux ≤ s.consView .tx ∧ s.clampMux ≤ s.span .tx (s.idx .tx (s.rptr .tx)) ∧ s.clampMux ≤ s.cfg.ceil := by
  simp only [State.clampMux]; omega

/-- A receive request asks for no more than the free space, the span and the quota (42_receive.md R155). -/
theorem rxCap_le (s : State) :
    s.rxCap ≤ s.availableToWrite .rx ∧ s.rxCap ≤ s.span .rx (s.idx .rx (s.wptr .rx)) ∧
      s.rxCap ≤ s.cap .rx - s.ev.rxTotal.toNat := by
  simp only [State.rxCap]; omega

/-- The end of the RX phase: a notification if one is due, then the next EV state. -/
theorem endRxPhase_cases (total : Count) (s : State) :
    let t := { s with ev := { s.ev with state := if s.ev.mask.getLsbD 1 then .txDone else .idle } }
    (s.ev.rxWasEmpty = true ∧ total ≠ 0 ∧ s.ev.rxn.s2 = true ∧ s.endRxPhase total = t.emit (.ntfRx total)) ∨
      (¬(s.ev.rxWasEmpty = true ∧ total ≠ 0 ∧ s.ev.rxn.s2 = true) ∧ s.endRxPhase total = t) := by
  simp only [State.endRxPhase]
  by_cases h : (s.ev.rxWasEmpty && decide (total ≠ 0) && s.ev.rxn.s2) = true
  · rw [if_pos h]
    simp only [Bool.and_eq_true, decide_eq_true_eq] at h
    exact .inl ⟨h.1.1, h.1.2, h.2, rfl⟩
  · rw [if_neg h]
    simp only [Bool.and_eq_true, decide_eq_true_eq, and_assoc] at h
    exact .inr ⟨h, rfl⟩

/-- A drain iteration ends the phase without a request, or makes a request, queues the answer and ends the phase if
it was empty. -/
theorem rxIter_cases (answer : List Byte) (s : State) :
    let bytes := answer.take s.rxCap
    let t := (s.emit (.rxReq (BitVec.ofNat 16 s.rxCap))).pushChunk .rx bytes bytes.length
    let total := s.ev.rxTotal + BitVec.ofNat 16 bytes.length
    let u := { t with ev := { t.ev with rxTotal := total } }
    ((s.availableToWrite .rx = 0 ∨ s.cap .rx - s.ev.rxTotal.toNat = 0) ∧
        s.rxIter answer = s.endRxPhase s.ev.rxTotal) ∨
      (s.availableToWrite .rx ≠ 0 ∧ s.cap .rx - s.ev.rxTotal.toNat ≠ 0 ∧ bytes.length = 0 ∧
        s.rxIter answer = u.endRxPhase total) ∨
      (s.availableToWrite .rx ≠ 0 ∧ s.cap .rx - s.ev.rxTotal.toNat ≠ 0 ∧ bytes.length ≠ 0 ∧ s.rxIter answer = u) := by
  simp only [State.rxIter]
  split
  · exact .inl ⟨‹_›, rfl⟩
  · rename_i h
    have h1 : s.availableToWrite .rx ≠ 0 := fun hh => h (.inl hh)
    have h2 : s.cap .rx - s.ev.rxTotal.toNat ≠ 0 := fun hh => h (.inr hh)
    split
    · exact .inr (.inl ⟨h1, h2, ‹_›, rfl⟩)
    · exact .inr (.inr ⟨h1, h2, ‹_›, rfl⟩)

/-- A completion with no packet in flight changes only `ev_state`; with one it pops the packet, counts it and may
notify. -/
theorem txComplete_cases (s : State) :
    let n := s.ev.txSize.toNat
    let t := (s.popChunk .tx n).2
    let u := if s.allSent n then t.emit .ntfTx else t
    (s.ev.txSize = 0 ∧ s.txComplete = { s with ev := { s.ev with state := .idle } }) ∨
      (s.ev.txSize ≠ 0 ∧
        s.txComplete =
          { u with ev :=
            { u.ev with txCompleted := s.ev.txCompleted + BitVec.ofNat 32 n, txSize := 0, state := .idle } }) := by
  simp only [State.txComplete]
  split
  · exact .inl ⟨‹_›, rfl⟩
  · exact .inr ⟨‹_›, rfl⟩

theorem launchEn_iff (s : State) :
    s.launchEn = true ↔ s.ev.state = .idle ∧ s.ev.txSize = 0 ∧ 0 < s.consView .tx := by
  simp [State.launchEn, and_assoc]

/-- An idle EV edge launches, starts a round or does nothing, in this order (43_event_dispatch.md R180). -/
theorem evIdle_cases (s : State) :
    (s.launchEn = true ∧ s.evIdle = s.txLaunch) ∨
      (s.launchEn = false ∧ ∃ m, s.devEvent = some m ∧ s.evIdle = s.evRound m) ∨
      (s.launchEn = false ∧ s.devEvent = none ∧ s.evIdle = s) := by
  simp only [State.evIdle]
  cases h : s.launchEn
  · cases hd : s.devEvent
    · exact .inr (.inr ⟨rfl, rfl, by simp⟩)
    · exact .inr (.inl ⟨rfl, _, rfl, by simp⟩)
  · exact .inl ⟨rfl, by simp⟩

/-- The EV sequencer, by state (60_exceptions.md R253). -/
theorem evSequencer_cases (answer : List Byte) (s : State) :
    (s.ev.state = .idle ∧ s.evSequencer answer = s.evIdle) ∨
      (s.ev.state = .rxDrain ∧ s.evSequencer answer = s.rxIter answer) ∨
      (s.ev.state = .txDone ∧ s.evSequencer answer = s.txComplete) := by
  simp only [State.evSequencer]
  cases s.ev.state <;> simp

/-! ## Edges and steps -/

theorem preemptOk_iff (s : State) :
    s.preemptOk = true ↔
      cmdCtx s.port.cmd = true ∧ s.fg.resume = false ∧
        ((s.fg.state = .push ∧ s.availableToWrite .tx = 0) ∨ s.fg.state = .flushWait) := by
  simp [State.preemptOk, and_assoc]

/-- The FG sequencer takes and runs the command on the port, or continues the held one (60_exceptions.md R252). -/
theorem fgSequencer_cases {s t : State} (h : s.fgSequencer = .next t) :
    (s.takesCommand = true ∧ ∃ i, s.fetch = .ok i ∧ exec i s.portTaken = .next t) ∨
      (s.takesCommand = false ∧ t = s.fgContinue) := by
  simp only [State.fgSequencer] at h
  cases hk : s.takesCommand
  · simp only [hk] at h
    exact .inr ⟨rfl, by simpa using h.symm⟩
  · simp only [hk, if_true] at h
    obtain ⟨i, hi⟩ := fetch_ok s
    simp only [State.takeCommand, hi] at h
    exact .inl ⟨rfl, i, hi, h⟩

/-- The FG sequencer always answers a next state. -/
theorem fgSequencer_next (s : State) : ∃ t, s.fgSequencer = .next t := by
  simp only [State.fgSequencer]
  split
  · obtain ⟨i, hi⟩ := fetch_ok s
    simp only [State.takeCommand, hi]
    exact exec_next _ _
  · exact ⟨_, rfl⟩

/-- One FG edge: the host presents, the sequencer moves, and the crossings read pre-edge values. -/
theorem fgEdge_cases {s t : State} {present : Option HostCmd} {copy : LineState}
    (h : s.fgEdge present copy = .next t) :
    ∃ u, (s.hostPresent present).fgSequencer = .next u ∧
      t = State.fgCrossings copy (s.hostPresent present) u := by
  simp only [State.fgEdge] at h
  split at h
  · rename_i u hu
    exact ⟨u, hu, by simpa using h.symm⟩
  · cases h
  · cases h

/-- An FG edge always answers a next state. -/
theorem fgEdge_next (s : State) (present : Option HostCmd) (copy : LineState) :
    ∃ t, s.fgEdge present copy = .next t := by
  obtain ⟨u, hu⟩ := fgSequencer_next (s.hostPresent present)
  exact ⟨State.fgCrossings copy (s.hostPresent present) u, by simp only [State.fgEdge, hu]⟩

/-- Everything a step can do: one agent makes the next move. -/
theorem step_cases {s t : State} (h : step s = .next t) :
    s.refused = false ∧ s.faultPre = false ∧
      ((∃ present copy, s.nextMove = .fgEdge present copy ∧ s.moveTaken.fgEdge present copy = .next t) ∨
        (∃ answer, s.nextMove = .evEdge answer ∧ t = s.moveTaken.evEdge answer) ∨
        (∃ signals event, s.nextMove = .devStep signals event ∧ t = s.moveTaken.devStep signals event)) := by
  simp only [step, State.stepOnce] at h
  split at h
  · cases h
  · split at h
    · cases h
    · rename_i h1 h2
      refine ⟨by simpa using h1, by simpa using h2, ?_⟩
      simp only [State.runMove] at h
      split at h
      · rename_i hm; exact .inl ⟨_, _, hm, h⟩
      · rename_i hm; exact .inr (.inl ⟨_, hm, by simpa using h.symm⟩)
      · rename_i hm; exact .inr (.inr ⟨_, _, hm, by simpa using h.symm⟩)

/-- A step answers a next state exactly where no stop is recorded. -/
theorem step_next_iff (s : State) : (∃ t, step s = .next t) ↔ s.refused = false ∧ s.faultPre = false := by
  constructor
  · rintro ⟨t, h⟩; exact ⟨(step_cases h).1, (step_cases h).2.1⟩
  · rintro ⟨h1, h2⟩
    simp only [step, State.stepOnce, h1, h2]
    cases hm : s.nextMove with
    | fgEdge p c => simpa [State.runMove] using fgEdge_next _ p c
    | evEdge a => exact ⟨_, rfl⟩
    | devStep d e => exact ⟨_, rfl⟩

/-! ## Views under updates that leave the pointers -/

@[simp] theorem emit_prodView (e : OutEvent) (s : State) (f : Fifo) : (s.emit e).prodView f = s.prodView f := by
  cases f <;> rfl

@[simp] theorem emit_consView (e : OutEvent) (s : State) (f : Fifo) : (s.emit e).consView f = s.consView f := by
  cases f <;> rfl

@[simp] theorem emit_count (e : OutEvent) (s : State) (f : Fifo) : (s.emit e).count f = s.count f := by
  cases f <;> rfl

@[simp] theorem portTaken_prodView (s : State) (f : Fifo) : s.portTaken.prodView f = s.prodView f := by
  cases f <;> rfl

@[simp] theorem portTaken_consView (s : State) (f : Fifo) : s.portTaken.consView f = s.consView f := by
  cases f <;> rfl

@[simp] theorem portTaken_count (s : State) (f : Fifo) : s.portTaken.count f = s.count f := by cases f <;> rfl

@[simp] theorem moveTaken_prodView (s : State) (f : Fifo) : s.moveTaken.prodView f = s.prodView f := by
  cases f <;> rfl

@[simp] theorem moveTaken_consView (s : State) (f : Fifo) : s.moveTaken.consView f = s.consView f := by
  cases f <;> rfl

@[simp] theorem moveTaken_count (s : State) (f : Fifo) : s.moveTaken.count f = s.count f := by cases f <;> rfl

end Sys2Proof.Machine
end

