-- ==== Sys2Proof/Laws/PerInstr.lean ====
section
/-! SUPPORT. The per-instruction family: the word of each command fits the command's row of spec/opcode_table.json. -/

namespace Sys2Proof

/-- The encoded word of the command matches the mask and the value of its row (30_encoding.md R81, R86, R87). -/
def Laws.WordFitsRow.Statement (i : Instr) : Prop := i.row.fits (encodeWord i) = true

/-- The mask of the legal rows keeps OP and RSV and clears the rest. -/
theorem Laws.cmdWord_and_opMask (op : BitVec 4) (ctx : Bool) (rsv : BitVec 3) (d : Byte) (sz : Count) :
    cmdWord op ctx rsv d sz &&& 0xF7000000 = cmdWord op false rsv 0 0 := by
  apply BitVec.eq_of_getLsbD_eq
  intro k hk
  have hm : ∀ k : Fin 32, (0xF7000000 : Word).getLsbD k =
      (decide (28 ≤ k.val) || (decide (24 ≤ k.val) && decide (k.val < 27))) := by decide
  have := hm ⟨k, hk⟩
  simp only at this
  simp only [cmdWord, BitVec.getLsbD_and, BitVec.getLsbD_append, this]
  by_cases h1 : k < 16
  · simp [h1]; omega
  by_cases h2 : k < 24
  · have : k - 16 < 8 := by omega
    simp [h1, this]; omega
  by_cases h3 : k < 27
  · simp [h1, h3, show ¬ (k - 16 < 8) by omega, show k - 16 - 8 < 3 by omega, show 24 ≤ k by omega]
  by_cases h4 : k < 28
  · have : k = 27 := by omega
    subst this; simp
  · simp [h1, show ¬ (k - 16 < 8) by omega, show ¬ k - 16 - 8 < 3 by omega,
      show ¬ k - 16 - 8 - 3 < 1 by omega, show 28 ≤ k by omega]

theorem Laws.WordFitsRow.nop : Laws.WordFitsRow.Statement .nop := by unfold Laws.WordFitsRow.Statement; decide

theorem Laws.WordFitsRow.avail : Laws.WordFitsRow.Statement .avail := by unfold Laws.WordFitsRow.Statement; decide

theorem Laws.WordFitsRow.availw : Laws.WordFitsRow.Statement .availw := by unfold Laws.WordFitsRow.Statement; decide

theorem Laws.WordFitsRow.peek : Laws.WordFitsRow.Statement .peek := by unfold Laws.WordFitsRow.Statement; decide

theorem Laws.WordFitsRow.read : Laws.WordFitsRow.Statement .read := by unfold Laws.WordFitsRow.Statement; decide

theorem Laws.WordFitsRow.readb (size : Count) : Laws.WordFitsRow.Statement (.readb size) := by
  simp only [Laws.WordFitsRow.Statement, TableRow.fits, Instr.row, encodeWord, Laws.cmdWord_and_opMask]; decide

theorem Laws.WordFitsRow.write1 (ctx : Bool) (data : Byte) : Laws.WordFitsRow.Statement (.write1 ctx data) := by
  simp only [Laws.WordFitsRow.Statement, TableRow.fits, Instr.row, encodeWord, Laws.cmdWord_and_opMask]; decide

theorem Laws.WordFitsRow.writeb (ctx : Bool) (size : Count) (source : List Byte) :
    Laws.WordFitsRow.Statement (.writeb ctx size source) := by
  simp only [Laws.WordFitsRow.Statement, TableRow.fits, Instr.row, encodeWord, Laws.cmdWord_and_opMask]; decide

theorem Laws.WordFitsRow.flush (ctx : Bool) : Laws.WordFitsRow.Statement (.flush ctx) := by
  simp only [Laws.WordFitsRow.Statement, TableRow.fits, Instr.row, encodeWord, Laws.cmdWord_and_opMask]; decide

theorem Laws.WordFitsRow.done : Laws.WordFitsRow.Statement .done := by unfold Laws.WordFitsRow.Statement; decide

theorem Laws.WordFitsRow.connected : Laws.WordFitsRow.Statement .connected := by unfold Laws.WordFitsRow.Statement; decide

theorem Laws.WordFitsRow.baud : Laws.WordFitsRow.Statement .baud := by unfold Laws.WordFitsRow.Statement; decide

theorem Laws.WordFitsRow.linefmt : Laws.WordFitsRow.Statement .linefmt := by unfold Laws.WordFitsRow.Statement; decide

theorem Laws.WordFitsRow.getctrl : Laws.WordFitsRow.Statement .getctrl := by unfold Laws.WordFitsRow.Statement; decide

theorem Laws.WordFitsRow.setctrl (data : Byte) : Laws.WordFitsRow.Statement (.setctrl data) := by
  simp only [Laws.WordFitsRow.Statement, TableRow.fits, Instr.row, encodeWord, Laws.cmdWord_and_opMask]; decide

theorem Laws.WordFitsRow.illegalOp : Laws.WordFitsRow.Statement .illegalOp := by unfold Laws.WordFitsRow.Statement; decide

theorem Laws.WordFitsRow.illegalRsv1 : Laws.WordFitsRow.Statement .illegalRsv1 := by unfold Laws.WordFitsRow.Statement; decide

theorem Laws.WordFitsRow.illegalRsv2 : Laws.WordFitsRow.Statement .illegalRsv2 := by unfold Laws.WordFitsRow.Statement; decide

theorem Laws.WordFitsRow.illegalRsv3 : Laws.WordFitsRow.Statement .illegalRsv3 := by unfold Laws.WordFitsRow.Statement; decide

theorem Laws.WordFitsRow.illegalRsv4 : Laws.WordFitsRow.Statement .illegalRsv4 := by unfold Laws.WordFitsRow.Statement; decide

theorem Laws.WordFitsRow.illegalRsv5 : Laws.WordFitsRow.Statement .illegalRsv5 := by unfold Laws.WordFitsRow.Statement; decide

theorem Laws.WordFitsRow.illegalRsv6 : Laws.WordFitsRow.Statement .illegalRsv6 := by unfold Laws.WordFitsRow.Statement; decide

theorem Laws.WordFitsRow.illegalRsv7 : Laws.WordFitsRow.Statement .illegalRsv7 := by unfold Laws.WordFitsRow.Statement; decide

end Sys2Proof
end

