-- ==== Sys2Proof/Laws/Runs.lean ====
section
/-! SUPPORT. Laws of runs: what a step by a given move can do, and induction along a run, once for every invariant. -/

namespace Sys2Proof.Machine

/-! ## Lining up a move -/

@[simp] theorem lineUp_cfg (m : Move) (s : State) : (s.lineUp m).cfg = s.cfg := rfl

@[simp] theorem lineUp_fg (m : Move) (s : State) : (s.lineUp m).fg = s.fg := rfl

@[simp] theorem lineUp_ev (m : Move) (s : State) : (s.lineUp m).ev = s.ev := rfl

@[simp] theorem lineUp_memRx (m : Move) (s : State) : (s.lineUp m).memRx = s.memRx := rfl

@[simp] theorem lineUp_memTx (m : Move) (s : State) : (s.lineUp m).memTx = s.memTx := rfl

@[simp] theorem lineUp_out (m : Move) (s : State) : (s.lineUp m).out = s.out := rfl

@[simp] theorem lineUp_faultPre (m : Move) (s : State) : (s.lineUp m).faultPre = s.faultPre := rfl

@[simp] theorem lineUp_refused (m : Move) (s : State) : (s.lineUp m).refused = s.refused := rfl

@[simp] theorem lineUp_port (m : Move) (s : State) : (s.lineUp m).port = s.port := rfl

@[simp] theorem lineUp_dev (m : Move) (s : State) : (s.lineUp m).dev = s.dev := rfl

@[simp] theorem lineUp_devEvent (m : Move) (s : State) : (s.lineUp m).devEvent = s.devEvent := rfl

@[simp] theorem lineUp_devOwes (m : Move) (s : State) : (s.lineUp m).devOwes = s.devOwes := rfl

@[simp] theorem lineUp_sched (m : Move) (s : State) : (s.lineUp m).sched = m :: s.sched := rfl

@[simp] theorem lineUp_draws (m : Move) (s : State) : (s.lineUp m).draws = s.draws := rfl

@[simp] theorem lineUp_nextMove (m : Move) (s : State) : (s.lineUp m).nextMove = m := rfl

/-- The state a lined-up move runs in. -/
@[simp] theorem lineUp_moveTaken (m : Move) (s : State) :
    (s.lineUp m).moveTaken = { s with draws := s.draws + 1 } := rfl

/-- A step by the move `m` runs that move, where no stop is recorded. -/
theorem stepsTo_iff (m : Move) (s t : State) :
    s.StepsTo m t ↔ s.refused = false ∧ s.faultPre = false ∧
      ({ s with draws := s.draws + 1 } : State).runMove m = .next t := by
  have h : step (s.lineUp m) =
      if s.refused then .refused .illegalConfig
      else if s.faultPre then .fault .precondition
      else ({ s with draws := s.draws + 1 } : State).runMove m := rfl
  rw [State.StepsTo, h]
  generalize ({ s with draws := s.draws + 1 } : State).runMove m = o
  by_cases h1 : s.refused = true <;> by_cases h2 : s.faultPre = true <;> simp [h1, h2]

/-! ## Runs -/

/-- Runs are put together end to end. -/
theorem FiniteRun_append {l l' : List Move} {s t u : State} (h : FiniteRun l s t) (h' : FiniteRun l' t u) :
    FiniteRun (l ++ l') s u := by
  induction l generalizing s with
  | nil => cases h; exact h'
  | cons m rest ih =>
    obtain ⟨v, hv, hr⟩ := h
    exact ⟨v, hv, ih hr⟩

/-- What every step keeps holds at the end of a finite run that starts with it. -/
theorem FiniteRun_keeps {Inv : State → Prop} (hstep : ∀ m s t, Inv s → s.StepsTo m t → Inv t) {l : List Move}
    {s t : State} (h : FiniteRun l s t) (hs : Inv s) : Inv t := by
  induction l generalizing s with
  | nil => cases h; exact hs
  | cons m rest ih =>
    obtain ⟨v, hv, hr⟩ := h
    exact ih hr (hstep m s v hs hv)

/-- What every step keeps holds all along an infinite sequence of steps, from where it first holds. -/
theorem InfinitePath_keeps {Inv : State → Prop} (hstep : ∀ m s t, Inv s → s.StepsTo m t → Inv t)
    {states : Nat → State} {moves : Nat → Move} (h : InfinitePath states moves) {n : Nat} (hn : Inv (states n)) :
    ∀ k, n ≤ k → Inv (states k) := by
  intro k hk
  induction k, hk using Nat.le_induction with
  | base => exact hn
  | succ k _ ih => exact hstep _ _ _ ih (h k)

/-- What holds after reset and is kept by every step holds in every reachable state. -/
theorem Reachable_keeps {Inv : State → Prop} (hreset : ∀ p dev, Inv (State.resetWith p dev))
    (hstep : ∀ m s t, Inv s → s.StepsTo m t → Inv t) {t : State} (h : t.Reachable) : Inv t := by
  obtain ⟨p, dev, l, hl⟩ := h
  exact FiniteRun_keeps hstep hl (hreset p dev)

/-- The states of an infinite run are reachable. -/
theorem InfiniteRun_reachable {states : Nat → State} {moves : Nat → Move} (h : InfiniteRun states moves) (n : Nat) :
    (states n).Reachable := by
  obtain ⟨⟨p, dev, h0⟩, hp, -⟩ := h
  refine ⟨p, dev, (List.range n).map moves, ?_⟩
  rw [← h0]
  induction n with
  | zero => rfl
  | succ n ih =>
    rw [List.range_succ, List.map_append]
    exact FiniteRun_append ih ⟨_, hp n, rfl⟩

/-- An end state records no model fault and no refusal (60_exceptions.md R258). -/
theorem EndState_clean {p : Params} {dev : DevSignals} {moves : List Move} {t : State} (h : EndState p dev moves t) :
    t.faultPre = false ∧ t.refused = false := by
  have := h.2
  simp only [State.quiescent, Bool.and_eq_true, Bool.not_eq_true'] at this
  exact ⟨this.1.1.1.1.1.1.1, this.1.1.1.1.1.1.2⟩

/-- Copying a value over itself, whatever the mask, leaves it. -/
@[simp] theorem copyBits_self {n : Nat} (mask x : BitVec n) : copyBits mask x x = x := by
  ext i
  simp [copyBits]
  cases x[i] <;> cases mask[i] <;> rfl

/-- A shadow that equals the DEV signals stays so at every LINE_SYNC (44_line_state_ctrl.md R208). -/
@[simp] theorem lineSync_self (copy x : LineState) : lineSync copy x x = x := by
  simp [lineSync]

/-- What an FG edge leaves in the line shadow: the LINE_SYNC of the values before the edge (60_exceptions.md R252). -/
theorem fgEdge_shadow {present : Option HostCmd} {copy : LineState} {s t : State}
    (h : s.fgEdge present copy = .next t) : t.fg.shadow = lineSync copy s.fg.shadow s.dev.line := by
  simp only [State.fgEdge] at h
  split at h
  · cases h
    simp [State.fgCrossings]
  · cases h
  · cases h

/-- In the acknowledge wait the port takes no command (41_transmit.md R141). -/
theorem takesCommand_waitAck {s : State} (h : s.fg.state = .waitAck) : s.takesCommand = false := by
  simp [State.takesCommand, State.cmdReady, State.preemptOk, h]

/-- No command's first operation writes the port. -/
theorem exec_port {i : Instr} {s t : State} (h : exec i s = .next t) : t.port = s.port := by
  have hset : ∀ (f : Fifo) (n : Nat) (u : State), (u.popChunk f n).2.port = u.port := by
    intro f n u
    rcases popChunk_cases f n u with ⟨-, e⟩ | ⟨-, e⟩ <;> rw [e]
    · cases f <;> rfl
    · rfl
  have hwrite : ∀ (ctx : Bool) (size : Count) (source : List Byte), (s.beginWrite ctx size source).port = s.port := by
    intro ctx size source
    rcases beginWrite_cases ctx size source s with ⟨-, e⟩ | ⟨-, -, e⟩ <;> simp [e]
  cases i
  case read =>
    simp only [exec, execRead] at h
    split at h <;> cases h <;> simp [hset]
  case readb size => simp only [exec, execReadb] at h; cases h; simp [hset]
  case write1 ctx data => simp only [exec, execWrite1] at h; cases h; exact hwrite _ _ _
  case writeb ctx size source => simp only [exec, execWriteb] at h; cases h; exact hwrite _ _ _
  case flush ctx => cases ctx <;> cases h <;> first | rfl | simp
  all_goals (cases h; first | rfl | simp | simp [State.takeIllegal])

end Sys2Proof.Machine
end

