-- ==== Sys2Proof/Tests/Slice0.lean ====
section
/-! SUPPORT. The model's own tests. The expected results are those of spec/95_test_vectors.md (its vector is named in
each comment) or read from the rule named. Then, for each statement with hypotheses, a witness that meets them. -/

namespace Sys2Proof.Tests

open Sys2Proof.Machine

/-! ## Decoding (30_encoding.md R81, R86 to R88; T-DEC, and variants of its words). The third byte of the
write data is not taken; the WRITEB word is T-DEC's 0x78FFFFFF with SIZE shortened to 2 (R81, R83). -/

theorem test_decode_nop : decode 0x00000000 [7, 8, 9] = .ok .nop := by decide

theorem test_decode_avail : decode 0x10000000 [7, 8, 9] = .ok .avail := by decide

theorem test_decode_availw : decode 0x20000000 [7, 8, 9] = .ok .availw := by decide

theorem test_decode_peek : decode 0x30000000 [7, 8, 9] = .ok .peek := by decide

theorem test_decode_read : decode 0x40000000 [7, 8, 9] = .ok .read := by decide

theorem test_decode_readb : decode 0x50000010 [7, 8, 9] = .ok (.readb 16) := by decide

theorem test_decode_write1 : decode 0x68410000 [7, 8, 9] = .ok (.write1 true 0x41) := by decide

theorem test_decode_writeb : decode 0x78FF0002 [7, 8, 9] = .ok (.writeb true 2 [7, 8]) := by decide

theorem test_decode_flush : decode 0x88000000 [7, 8, 9] = .ok (.flush true) := by decide

theorem test_decode_done : decode 0x90000000 [7, 8, 9] = .ok .done := by decide

theorem test_decode_connected : decode 0xA0000000 [7, 8, 9] = .ok .connected := by decide

theorem test_decode_baud : decode 0xB0000000 [7, 8, 9] = .ok .baud := by decide

theorem test_decode_linefmt : decode 0xC0000000 [7, 8, 9] = .ok .linefmt := by decide

theorem test_decode_getctrl : decode 0xD0000000 [7, 8, 9] = .ok .getctrl := by decide

theorem test_decode_setctrl : decode 0xE0050000 [7, 8, 9] = .ok (.setctrl 0x05) := by decide

theorem test_decode_illegalOp : decode 0xF0000000 [7, 8, 9] = .ok .illegalOp := by decide

theorem test_decode_illegalRsv1 : decode 0x11000000 [7, 8, 9] = .ok .illegalRsv1 := by decide

theorem test_decode_illegalRsv2 : decode 0x02000000 [7, 8, 9] = .ok .illegalRsv2 := by decide

theorem test_decode_illegalRsv3 : decode 0x63000000 [7, 8, 9] = .ok .illegalRsv3 := by decide

theorem test_decode_illegalRsv4 : decode 0x74000005 [7, 8, 9] = .ok .illegalRsv4 := by decide

theorem test_decode_illegalRsv5 : decode 0xF5000000 [7, 8, 9] = .ok .illegalRsv5 := by decide

theorem test_decode_illegalRsv6 : decode 0x0E000000 [7, 8, 9] = .ok .illegalRsv6 := by decide

theorem test_decode_illegalRsv7 : decode 0x7FFFFFFF [7, 8, 9] = .ok .illegalRsv7 := by decide

/-- T-DEC: CTX, DATA and SIZE are ignored where a command does not use them. -/
theorem test_decode_ignored_fields :
    decode 0x18000000 [] = .ok .avail ∧ decode 0x10123456 [] = .ok .avail ∧ decode 0x5000FFFF [] = .ok (.readb 0xFFFF) ∧
      decode 0x60410000 [] = .ok (.write1 false 0x41) ∧ decode 0x80000000 [] = .ok (.flush false) ∧
      decode 0xE0FF0000 [] = .ok (.setctrl 0xFF) ∧ decode 0xF8000000 [] = .ok .illegalOp := by decide

/-- A WRITEB whose source bytes are missing is refused by name (60_exceptions.md R251). -/
theorem test_decode_source_short : decode 0x70000002 [7] = .error .sourceShort := by decide

/-- The words of 30_encoding.md R93, written by the encoder. -/
theorem test_encode_words :
    encode (.readb 16) = (0x50000010, []) ∧ encode (.write1 true 0x41) = (0x68410000, []) ∧
      encode (.writeb true 2 [7, 8]) = (0x78000002, [7, 8]) ∧ encode (.flush true) = (0x88000000, []) ∧
      encode (.setctrl 0x06) = (0xE0060000, []) := by decide

/-- The table word of a WRITEB brings zero bytes. -/
theorem test_table_word :
    decodeTableWord 32 0x70000002 = some (.writeb false 2 [0, 0]) ∧ decodeTableWord 32 0xD0000000 = some .getctrl := by
  decide

/-! ## Well-formedness: an ill-formed term for each check -/

theorem test_wf_writeb_needs_size_bytes :
    Instr.wellFormed (.writeb false 2 [1]) = false ∧ Instr.wellFormed (.writeb false 1 [1, 2]) = false ∧
      Instr.wellFormed (.writeb false 2 [1, 2]) = true := by decide

theorem test_wf_capacity :
    legalCapacity 1 = false ∧ legalCapacity 48 = false ∧ legalCapacity 65536 = false ∧ legalCapacity 2 = true ∧
      legalCapacity 32768 = true := by decide

theorem test_wf_ceiling :
    legalCeiling 64 0 = false ∧ legalCeiling 64 64 = false ∧ legalCeiling 64 63 = true ∧ legalCeiling 2 1 = true := by
  decide

theorem test_wf_params :
    Params.default.legal = true ∧ ({ Params.default with capTx := 63 } : Params).legal = false ∧
      ({ Params.default with ceil := 64 } : Params).legal = false := by decide

/-! ## Small states -/

/-- DEV's signals in S0 (95_test_vectors.md section 0). -/
def devS0 : DevSignals :=
  { state := 0b10, done := true,
    line := { connected := true, ctl := 0b01, baud := 115200, databits := 8, parity := 0, stopbits := 0 } }

/-- S0, the settled start state. -/
def s0 : State :=
  let r := State.resetWith Params.default devS0
  { r with
    fg := { r.fg with gate := ⟨true, true⟩, ddone := ⟨true, true⟩, shadow := devS0.line }
    ev := { r.ev with gateEv := true } }

/-- The RX pointers at `r` and `w`, every copy settled. -/
def rxAt (r w : Ptr) (cells : List Host.Cell) (s : State) : State :=
  { s with
    memRx := cells
    fg := { s.fg with rptrRx := r, rpubRx := ⟨r, bin2gray r⟩, wsyncRx := ⟨bin2gray w, bin2gray w⟩ }
    ev := { s.ev with wptrRx := w, wpubRx := ⟨w, bin2gray w⟩, rsyncRx := ⟨bin2gray r, bin2gray r⟩ } }

/-- The TX pointers at `r` and `w`, every copy settled, the bytes between them accepted. -/
def txAt (r w : Ptr) (cells : List Host.Cell) (s : State) : State :=
  let total : Word := BitVec.ofNat 32 (ptrSub 128 w r)
  { s with
    memTx := cells
    fg := { s.fg with wptrTx := w, wpubTx := ⟨w, bin2gray w⟩, rsyncTx := ⟨bin2gray r, bin2gray r⟩, accBin := total }
    ev := { s.ev with rptrTx := r, rpubTx := ⟨r, bin2gray r⟩, wsyncTx := ⟨bin2gray w, bin2gray w⟩, accEv := total } }

/-- A write of the given bytes in PUSH, acknowledged. -/
def pushing (src : List Byte) (s : State) : State :=
  { s with
    fg :=
      { s.fg with
        state := .push, acc := BitVec.ofNat 16 src.length, rem := BitVec.ofNat 16 src.length, src := src,
        accBin := s.fg.accBin + BitVec.ofNat 32 src.length }
    ev := { s.ev with accEv := s.ev.accEv + BitVec.ofNat 32 src.length } }

/-- The word on the port. -/
def presented (w : Word) (s : State) : State := { s with port := { valid := true, cmd := w, wdata := [0x41, 0x42] } }

/-- The EV state, with the mask of its round. -/
def evIn (e : EvState) (m : BitVec 2) (s : State) : State := { s with ev := { s.ev with state := e, mask := m } }

/-- A packet of `n` bytes in flight, its completion owed. -/
def inFlight (n : Count) (s : State) : State :=
  { s with ev := { s.ev with txSize := n, busyEv := true }, devOwes := true }

/-- The move lined up next. -/
def next (m : Move) (s : State) : State := { s with sched := [m] }

/-- The state a meaning or a step answers. -/
def after (o : Host.Outcome State Fault Refusal) : State :=
  match o with
  | .next t => t
  | .fault _ => State.reset
  | .refused _ => State.reset

/-! ## Pointers and views (20_memory.md) -/

/-- T-GRAY. -/
theorem test_gray :
    bin2gray 40 = 0x3C ∧ bin2gray 64 = 0x60 ∧ bin2gray 100 = 0x56 ∧ bin2gray 127 = 0x40 ∧ gray2bin 0x56 = 100 ∧
      gray2bin 0x41 = 126 := by decide

/-- T-VIEW 2, 3 and 6. -/
theorem test_views :
    (rxAt 0 0x40 [] s0).count .rx = 64 ∧ (rxAt 0x7E 0x02 [] s0).count .rx = 4 ∧
      (rxAt 0x7E 0x02 [] s0).idx .rx 0x7E = 62 ∧ (txAt 90 95 [] s0).consView .tx = 5 := by decide

/-! ## The commands. Each compares the answer and what it may change. -/

theorem test_nop : (after (exec .nop s0)).out = [.rsp 0 []] ∧ (after (exec .nop s0)).fg = s0.fg := by decide

/-- T-VIEW 5. -/
theorem test_avail : (after (exec .avail (rxAt 60 70 [] s0))).out = [.rsp 10 []] := by decide

/-- T-VIEW 4. -/
theorem test_availw : (after (exec .availw (txAt 20 80 [] s0))).out = [.rsp 4 []] := by decide

/-- T-RD 2 and 5. -/
theorem test_peek :
    (after (exec .peek s0)).out = [.rsp 0xFFFFFFFF []] ∧
      (after (exec .peek (rxAt 3 5 [(3, 0xFF)] s0))).out = [.rsp 0x000000FF []] ∧
      (after (exec .peek (rxAt 3 5 [(3, 0xFF)] s0))).fg.rptrRx = 3 := by decide

/-- T-RD 3 and 4. -/
theorem test_read :
    (after (exec .read s0)).out = [.rsp 0xFFFFFFFF []] ∧
      (after (exec .read (rxAt 3 4 [(3, 0x7F)] s0))).out = [.rsp 0x0000007F []] ∧
      (after (exec .read (rxAt 3 4 [(3, 0x7F)] s0))).fg.rptrRx = 4 := by decide

/-- T-RD 7: a READB across the wrap. -/
theorem test_readb_wraps :
    let t := after (exec (.readb 3) (rxAt 0x7F 0x02 [(0, 2), (1, 3), (63, 1)] s0))
    t.out = [.rsp 3 [1, 2, 3]] ∧ t.fg.rptrRx = 2 := by decide

/-- T-RD 8 and 9. -/
theorem test_readb_none :
    (after (exec (.readb 5) s0)).out = [.rsp 0 []] ∧ (after (exec (.readb 0) (rxAt 0 20 [] s0))).out = [.rsp 0 []] := by
  decide

/-- T-WB 10, and T-WB 1 for WRITE1. -/
theorem test_write1 :
    let t := after (exec (.write1 false 0x41) s0)
    t.fg.state = .waitAck ∧ t.fg.accBin = 1 ∧ t.fg.accReq = true ∧ t.fg.src = [0x41] ∧ t.out = [] ∧
      (after (exec (.write1 false 0x41) State.reset)).out = [.rsp 0 []] := by decide

/-- T-WB 8: clamped in interrupt context. -/
theorem test_writeb_clamped :
    let t := after (exec (.writeb true 5 [1, 2, 3, 4, 5]) (txAt 0 60 [] s0))
    t.fg.state = .waitAck ∧ t.fg.acc = 4 ∧ t.fg.src = [1, 2, 3, 4] ∧ t.fg.accBin = 64 := by decide

/-- T-WB 4, 7 and 9. -/
theorem test_writeb_zero :
    let full := txAt 0 64 [] s0
    let nonblocking := { full with fg := { full.fg with ctrl := 0 } }
    (after (exec (.writeb false 2 [1, 2]) nonblocking)).out = [.rsp 0 []] ∧
      (after (exec (.writeb true 2 [1, 2]) full)).out = [.rsp 0 []] ∧
      after (exec (.writeb false 0 []) s0) = { s0 with out := [.rsp 0 []] } := by decide

/-- T-FLUSH 1 and 2. -/
theorem test_flush :
    after (exec (.flush true) s0) = { s0 with out := [.rsp 0 []] } ∧
      (after (exec (.flush false) s0)).fg.state = .flushWait ∧ (after (exec (.flush false) s0)).out = [] := by decide

/-- T-DONE 1 to 3. -/
theorem test_done :
    (after (exec .done s0)).out = [.rsp 1 []] ∧
      (after (exec .done { s0 with fg := { s0.fg with busy := ⟨false, true⟩ } })).out = [.rsp 0 []] ∧
      (after (exec .done (txAt 0 3 [] s0))).out = [.rsp 0 []] := by decide

/-- T-PASS. -/
theorem test_connected_baud :
    (after (exec .connected s0)).out = [.rsp 1 []] ∧ (after (exec .baud s0)).out = [.rsp 0x0001C200 []] := by decide

/-- T-PASS: the first and the third LINEFMT row. -/
theorem test_linefmt :
    (after (exec .linefmt s0)).out = [.rsp 0x01000008 []] ∧
      (after (exec .linefmt
        { s0 with fg := { s0.fg with shadow := ⟨true, 0, 115200, 7, 2, 2⟩ } })).out = [.rsp 0x00020207 []] := by decide

/-- T-CTRL 2 and 5. -/
theorem test_getctrl_after_illegal :
    let t := after (exec .illegalOp s0)
    let u := after (exec (.setctrl 0x06) t)
    t.out = [.rsp 0xFFFFFFFF []] ∧ (after (exec .getctrl u)).out.getLast? = some (.rsp 0x00000106 []) := by decide

/-- T-CTRL 8: the reserved bits stay 0. -/
theorem test_setctrl : (after (exec (.setctrl 0xFF) s0)).fg.ctrl = 0x07 := by decide

/-- R207 for a RSV row: nothing but STATUS and the answer. -/
theorem test_illegal_rsv :
    after (exec .illegalRsv1 s0) = { s0 with fg := { s0.fg with status := 1 }, out := [.rsp 0xFFFFFFFF []] } ∧
      (after (exec .illegalRsv7 s0)).fg.status = 1 := by decide

/-! ## The later edges of a held command -/

/-- T-PUSH 1 and 5. -/
theorem test_push_span :
    let t := (pushing [1, 2, 3, 4, 5, 6, 7, 8, 9, 10] (txAt 60 60 [] s0)).pushStep
    t.fg.rem = 6 ∧ t.fg.state = .push ∧ t.fg.wptrTx = 64 ∧ t.memTx = [(60, 1), (61, 2), (62, 3), (63, 4)] ∧
      (pushing [9] (txAt 63 63 [] s0)).pushStep.out = [.rsp 1 []] := by decide

/-- T-PUSH 4: the blocking hold; T-FLUSH 3 to 5. -/
theorem test_holds :
    (pushing [1, 2] (txAt 0 64 [] s0)).pushStep = pushing [1, 2] (txAt 0 64 [] s0) ∧
      (after (exec (.flush false) s0)).flushWaitStep.out = [.rsp 0 []] ∧
      (after (exec (.flush false) (txAt 0 5 [] s0))).flushWaitStep.out = [] := by decide

/-- T-PRE 1, 2, 3, 4 and 7. -/
theorem test_preemption :
    (presented 0x7800000A (pushing [1] (txAt 0 64 [] s0))).takesCommand = true ∧
      (presented 0x7000000A (pushing [1] (txAt 0 64 [] s0))).takesCommand = false ∧
      (presented 0x7800000A (pushing [1] (txAt 0 59 [] s0))).takesCommand = false ∧
      (presented 0x78000002 (after (exec (.write1 false 0x41) s0))).takesCommand = false ∧
      (presented 0x88000000 (after (exec (.flush false) s0))).takesCommand = true := by decide

/-- T-PRE 5: a preempting write in FLUSH_WAIT. -/
theorem test_preempting_write :
    let t := after (presented 0x68410000 (after (exec (.flush false) s0))).takeCommand
    t.fg.state = .waitAck ∧ t.fg.resume = true ∧ t.fg.word = 0x68410000 ∧ t.fg.src = [0x41] := by decide

/-! ## The EV sequencer -/

/-- T-CLAMP 1 to 3 and T-LAUNCH. -/
theorem test_clamp :
    (txAt 0 64 [] s0).clampMux = 63 ∧ (txAt 60 70 [] s0).clampMux = 4 ∧ (txAt 0 1 [] s0).clampMux = 1 ∧
      ((txAt 0 2 [(0, 8), (1, 9)] s0).evEdge []).out = [.tx [8, 9]] ∧
      ((txAt 0 2 [(0, 8), (1, 9)] s0).evEdge []).ev.busyEv = true := by decide

/-- T-CPL 1 and 2, with the listener registered. -/
theorem test_completion :
    let t := (evIn .txDone 2 (inFlight 63 { txAt 0 64 [] s0 with
      ev := { (txAt 0 64 [] s0).ev with txn := ⟨true, true⟩ } })).evEdge []
    let u := (evIn .txDone 2 { t with ev := { t.ev with txSize := 1 } }).evEdge []
    t.ev.rptrTx = 63 ∧ t.ev.txCompleted = 63 ∧ t.ev.txSize = 0 ∧ t.out = [] ∧
      u.ev.rptrTx = 64 ∧ u.ev.txCompleted = 64 ∧ u.out = [.ntfTx] := by decide

/-- T-RX 3 and the phase end of T-NTFRX row 1. -/
theorem test_drain :
    let t := (evIn .rxDrain 1 (rxAt 40 50 [] s0)).evEdge [1, 2]
    let e := evIn .rxDrain 3 (rxAt 0 40 [] s0)
    t.out = [.rxReq 14] ∧ t.ev.wptrRx = 52 ∧ t.ev.rxTotal = 2 ∧ t.memRx = [(50, 1), (51, 2)] ∧
      ({ e with ev := { e.ev with rxTotal := 40, rxWasEmpty := true, rxn := ⟨true, true⟩ } }.evEdge []).out =
        [.rxReq 24, .ntfRx 40] := by decide

/-- T-ROUND: mask 11, and mask 00. -/
theorem test_round :
    let t := ({ s0 with devEvent := some 0b11 } : State).evEdge []
    t.ev.state = .rxDrain ∧ t.ev.rxWasEmpty = true ∧ t.ev.mask = 0b11 ∧ t.devEvent = none ∧
      (({ s0 with devEvent := some 0 } : State).evEdge []).ev.state = .idle := by decide

/-- T-GATE: DTR low, and not ready. -/
theorem test_gate :
    (({ s0 with dev := { devS0 with line := { devS0.line with ctl := 0b10 } } } : State).evEdge []).ev.gateEv = false ∧
      (({ s0 with dev := { devS0 with state := 0b01 } } : State).evEdge []).ev.gateEv = false ∧
      (s0.evEdge []).ev.gateEv = true := by decide

/-! ## Steps -/

/-- The very next step runs a placed word (T-RST: AVAILW answers 64, WRITEB 0). -/
theorem test_placed_word :
    (after (step (State.reset.withFetchWord 32 0x20000000))).out = [.rsp 64 []] ∧
      (after (step (State.reset.withFetchWord 32 0x70000002))).out = [.rsp 0 []] ∧
      (after (step (State.reset.withFetchWord 32 0x70000002))).port.valid = false := by decide

/-- A publisher takes one step an edge and reads the pointer before the edge (45_cdc.md R220). -/
theorem test_publish :
    let s := txAt 0 0 [] s0
    let t := after (step (next (.fgEdge none LineState.zero) { s with fg := { s.fg with wptrTx := 40 } }))
    t.fg.wpubTx = ⟨1, 0x01⟩ ∧ t.fg.wptrTx = 40 := by decide

/-- Duties: DEV holds its event, and presents no completion it does not owe (60_exceptions.md R250). -/
theorem test_duties :
    (s0.devStep devS0 (some 0b11)).devEvent = some 0b01 ∧
      (({ s0 with devEvent := some 0 } : State).devStep devS0 (some 1)).devEvent = some 0 ∧
      ((inFlight 1 s0).devStep devS0 (some 0b10)).devEvent = some 0b10 ∧
      ((inFlight 1 s0).devStep devS0 (some 0b10)).devOwes = false := by decide

/-- A refused configuration has no step, and a recorded model fault is a fault (60_exceptions.md R258). -/
theorem test_stops :
    step (State.resetWith { Params.default with capRx := 3 } devS0) = .refused .illegalConfig ∧
      step { s0 with faultPre := true } = .fault .precondition := ⟨rfl, rfl⟩

/-- No end state: a command still to present, a recorded model fault, a refused configuration (60_exceptions.md R256,
R258). -/
theorem test_not_final :
    (next (.fgEdge (some ⟨0x10000000, []⟩) LineState.zero) s0).quiescent = false ∧
      (presented 0x10000000 s0).quiescent = false ∧ ({ s0 with faultPre := true } : State).quiescent = false ∧
      (State.resetWith { Params.default with capRx := 3 } DevSignals.zero).quiescent = false := by decide

/-- A finite run: the host presents AVAILW in S0 (60_exceptions.md R255). -/
theorem test_finite_run :
    ∃ t, FiniteRun [.fgEdge (some ⟨0x20000000, []⟩) LineState.zero, .evEdge []] s0 t ∧ t.out = [.rsp 64 []] :=
  ⟨_, ⟨_, rfl, _, rfl, rfl⟩, by decide⟩

/-! ## Witnesses: for each statement with hypotheses, a state and operands that meet them all together -/

/-- In IDLE, and preempting a FLUSH; the word with ignored fields set. -/
theorem witness_NopAnswersZero :
    (s0.fg.state = .idle → s0.fg.resume = false) ∧ cmdOp 0x08FFFFFF = 0 ∧ cmdRsv 0x08FFFFFF = 0 ∧
      (let t := after (exec (.flush false) s0);
        t.fg.state = .flushWait ∧ (t.fg.state = .idle → t.fg.resume = false)) := by decide

theorem witness_OccupancyQueriesAnswerTheViews :
    (rxAt 60 70 [] s0).fg.state = .idle ∧ ((rxAt 60 70 [] s0).fg.state = .idle → (rxAt 60 70 [] s0).fg.resume = false) := by decide

theorem witness_DoneAnswersWhetherTxIsIdle :
    (txAt 0 3 [] s0).fg.state = .idle ∧ ((txAt 0 3 [] s0).fg.state = .idle → (txAt 0 3 [] s0).fg.resume = false) := by decide

theorem witness_ConnectedAndBaudAnswerTheShadow :
    s0.fg.state = .idle ∧ (s0.fg.state = .idle → s0.fg.resume = false) := by decide

theorem witness_LinefmtPacksTheLineState :
    s0.fg.state = .idle ∧ (s0.fg.state = .idle → s0.fg.resume = false) := by decide

theorem witness_GetctrlAnswersStatusAndCtrl :
    s0.fg.state = .idle ∧ (s0.fg.state = .idle → s0.fg.resume = false) := by decide

theorem witness_SetctrlWritesTheLowThreeBits :
    s0.fg.state = .idle ∧ (s0.fg.state = .idle → s0.fg.resume = false) := by decide

theorem witness_FlushWaitsOnlyInForeground :
    (txAt 0 3 [] s0).fg.state = .idle ∧ ((txAt 0 3 [] s0).fg.state = .idle → (txAt 0 3 [] s0).fg.resume = false) := by decide

theorem witness_DecodeEncodeRoundTrip :
    Instr.wellFormed (.writeb true 2 [7, 8]) = true ∧ Instr.wellFormed (.readb 0xFFFF) = true := by decide

theorem witness_EncodeDecodeClearsIgnoredBits :
    decode 0x78FF0002 [7, 8, 9] = .ok (.writeb true 2 [7, 8]) ∧ decode 0xFFFFFFFF [7] = .ok .illegalRsv7 := by decide

theorem witness_EveryWordMatchesExactlyOneRow :
    (sourceLength 0x70000002 ≤ [7, 8].length ∧ cmdRsv 0x70000002 = 0 ∧ cmdOp 0x70000002 ≠ 0xF) ∧
      (sourceLength 0x74000005 ≤ 0 ∧ cmdRsv 0x74000005 ≠ 0) ∧
      (sourceLength 0xF8000000 ≤ 0 ∧ cmdRsv 0xF8000000 = 0 ∧ cmdOp 0xF8000000 = 0xF) := by decide

theorem witness_GrayCodeOnPointerBits :
    (1 ≤ 7 ∧ 7 ≤ 16 ∧ (127 : Ptr).toNat < 2 ^ 7) ∧ (1 ≤ 16 ∧ 16 ≤ 16 ∧ (0xFFFF : Ptr).toNat < 2 ^ 16) ∧
      ((0 : Ptr).toNat < 2 ^ 1) := by decide

/-- n = span at the physical end, n = 0, and n < span. -/
theorem witness_PushChunkWritesItsSpan :
    let s := txAt 60 60 [(3, 7)] s0;
    s.MemInv ∧ s.Fits .tx (s.wptr .tx) ∧ s.canPush .tx [1, 2, 3, 4, 5] 4 = true ∧ s.span .tx (s.idx .tx (s.wptr .tx)) = 4 ∧
      s.canPush .tx [] 0 = true ∧ s.canPush .tx [1, 2] 2 = true := by decide

theorem witness_PopChunkReadsItsSpan :
    let s := txAt 62 64 [(62, 0xAA), (63, 0xBB)] s0;
    s.cfg.legal = true ∧ s.Fits .tx (s.rptr .tx) ∧ s.canPop .tx 2 = true ∧ s.canPop .tx 0 = true := by decide

theorem witness_BrokenPreconditionIsAModelFault :
    s0.availableToWrite .tx < 65 ∧ (txAt 60 60 [] s0).span .tx ((txAt 60 60 [] s0).idx .tx 60) < 5 ∧
      s0.availableToRead .tx < 1 ∧
      (({ s0 with faultPre := true } : State).refused = false ∧ ({ s0 with faultPre := true } : State).faultPre = true) := by
  decide

/-- Both clauses: an empty view, and a byte 0xFF. -/
theorem witness_PeekAnswersNextByteOrNoData :
    (s0.fg.state = .idle → s0.fg.resume = false) ∧ s0.consView .rx = 0 ∧ (rxAt 3 4 [(3, 0xFF)] s0).consView .rx ≠ 0 := by
  decide

theorem witness_IllegalWordsSetIllAndNothingElse :
    (s0.fg.state = .idle → s0.fg.resume = false) ∧
      Instr.illegalRsv7 ∈ [Instr.illegalOp, .illegalRsv1, .illegalRsv2, .illegalRsv3, .illegalRsv4, .illegalRsv5,
        .illegalRsv6, .illegalRsv7] := by decide

/-- Both clauses, the second at the index before the wrap. -/
theorem witness_ReadPopsOneByte :
    let s := rxAt 63 64 [(63, 1)] s0;
    s0.cfg.legal = true ∧ s0.consView .rx = 0 ∧ s.cfg.legal = true ∧ (s.fg.state = .idle → s.fg.resume = false) ∧
      s.consView .rx ≠ 0 := by decide

theorem witness_ReadbPopsWhatIsThere :
    let s := rxAt 60 70 [(60, 1)] s0;
    s.cfg.legal = true ∧ s.consView .rx ≤ s.cfg.capRx ∧ (s.fg.state = .idle → s.fg.resume = false) ∧
      s.consView .rx = 10 := by decide

/-- Each clause: the gate closed; no free space in interrupt context; SIZE 0. -/
theorem witness_WritesTurnedAwayAnswerZero :
    (State.reset.fg.state = .idle → State.reset.fg.resume = false) ∧ State.reset.fg.gate.s2 = false ∧
      (let s := txAt 0 64 [] s0;
        s.fg.gate.s2 = true ∧ (s.fg.state = .idle → s.fg.resume = false) ∧ s.cfg.capTx - s.prodView .tx = 0 ∧
          s.fg.ctrl.getLsbD 0 = true) := by decide

/-- Blocking foreground with more bytes than the ring holds, and interrupt context clamped to the last free byte. -/
theorem witness_WritebBeginsWithItsAcceptedCount :
    (s0.fg.gate.s2 = true ∧
      ((false = true ∨ s0.fg.ctrl.getLsbD 0 = false) → 100 = min (100 : Count).toNat (s0.cfg.capTx - s0.prodView .tx)) ∧
      (false = false → s0.fg.ctrl.getLsbD 0 = true → 100 = (100 : Count).toNat) ∧ 0 < 100) ∧
      (let s := txAt 0 63 [] s0;
        s.fg.gate.s2 = true ∧
          ((true = true ∨ s.fg.ctrl.getLsbD 0 = false) → 1 = min (10 : Count).toNat (s.cfg.capTx - s.prodView .tx)) ∧
          (true = false → s.fg.ctrl.getLsbD 0 = true → 1 = (10 : Count).toNat)) := by decide

/-- Blocking foreground with a full ring, and interrupt context with one byte free. -/
theorem witness_WriteOneBeginsTheWriteOfItsByte :
    ((txAt 0 64 [] s0).fg.gate.s2 = true ∧ (txAt 0 64 [] s0).fg.ctrl.getLsbD 0 = true) ∧
      ((txAt 0 63 [] s0).fg.gate.s2 = true ∧ 0 < (txAt 0 63 [] s0).cfg.capTx - (txAt 0 63 [] s0).prodView .tx) := by
  decide

/-- IDLE and the three waits. -/
theorem witness_HeldCommandsWaitForTheirCondition :
    s0.fg.state = .idle ∧ (after (exec (.write1 false 0x41) s0)).fg.state = .waitAck ∧
      (let s := pushing [1] (txAt 0 64 [] s0);
        s.fg.state = .push ∧ s.cfg.capTx - s.prodView .tx = 0) ∧
      (let s := after (exec (.flush false) s0);
        s.fg.state = .flushWait ∧ s.fg.resume = false) := by decide

/-- A push that goes on after the physical end, and one that empties `fg_rem` and resumes a FLUSH. -/
theorem witness_PushEdgeQueuesOneSpan :
    (let s := pushing [1, 2, 3, 4, 5, 6] (txAt 60 60 [] s0);
      s.RingInv ∧ s.MemInv ∧ s.fg.state = .push ∧ 0 < s.cfg.capTx - s.prodView .tx ∧ s.fg.rem ≠ 0) ∧
      (let p := pushing [1] (txAt 0 63 [] s0);
        let s : State := { p with fg := { p.fg with resume := true, word := 0x68010000 } };
        s.RingInv ∧ s.MemInv ∧ s.fg.state = .push ∧ 0 < s.cfg.capTx - s.prodView .tx ∧ s.fg.rem ≠ 0) :=
  ⟨by decide, by decide⟩

/-- The three ways to take a command; a foreground word that waits behind a blocking write; and on an empty port a
second foreground command, one from an interrupt, and one in IDLE. -/
theorem witness_CommandsAreTakenInIdleOrByPreemption :
    ((presented 0x10000000 s0).takesCommand = true ∧
      (presented 0x7800000A (pushing [1] (txAt 0 64 [] s0))).takesCommand = true ∧
      (presented 0x18000000 (after (exec (.flush false) s0))).takesCommand = true) ∧
      (let s := presented 0x10000000 (pushing [1] (txAt 0 64 [] s0));
        s.port.valid = true ∧ s.takesCommand = false ∧ ∃ t, s.fgEdge none devS0.line = .next t) ∧
      (let s := after (exec (.flush false) s0);
        s.port.valid = false ∧ s.fg.state = .flushWait ∧ (0x10000000 : Word).getLsbD 27 = false ∧
          (0x18000000 : Word).getLsbD 27 = true) ∧
      (s0.port.valid = false ∧ s0.fg.state ≠ .flushWait ∧ s0.fg.state ≠ .waitAck ∧ s0.fg.state ≠ .push) :=
  ⟨by decide, ⟨by decide, by decide, _, rfl⟩, by decide, by decide⟩

theorem witness_PreemptingCommandLeavesTheHeldWrite :
    let s := presented 0x7800000A (pushing [1] (txAt 0 64 [] s0));
    s.fg.state = .push ∧ s.cfg.capTx - s.prodView .tx = 0 ∧ s.takesCommand = true := by decide

theorem witness_PreemptingCommandKeepsTheFlush :
    let s := presented 0x68410000 (after (exec (.flush false) s0));
    s.fg.state = .flushWait ∧ s.takesCommand = true := by decide

/-- An FG edge that takes AVAILW, one that takes none while a write pushes, an EV edge, a DEV step, and no move lined
up. -/
theorem witness_StepRunsTheDecodedCommand :
    (let s := State.reset.withFetchWord 32 0x20000000;
      let p := s.moveTaken.hostPresent none;
      s.refused = false ∧ s.faultPre = false ∧ s.sched = .fgEdge none LineState.zero :: [] ∧ p.takesCommand = true ∧
        p.fetch = .ok .availw) ∧
      (let s := next (.fgEdge none LineState.zero) (pushing [1, 2] (txAt 0 0 [] s0));
        s.refused = false ∧ s.faultPre = false ∧ s.sched = .fgEdge none LineState.zero :: [] ∧
          (s.moveTaken.hostPresent none).takesCommand = false ∧
          ∃ t, step s = .next t ∧ t.memTx = [(0, 1), (1, 2)] ∧ t.out = [.rsp 2 []]) ∧
      (next (.evEdge [1]) s0).sched = .evEdge [1] :: [] ∧
      (next (.devStep devS0 none) s0).sched = .devStep devS0 none :: [] ∧ s0.sched = [] :=
  ⟨by decide, ⟨by decide, by decide, rfl, by decide, _, rfl, by decide, by decide⟩, rfl, rfl, rfl⟩

/-- An FG edge from a state whose rings are in order. -/
theorem witness_FgEdgeWritesOnlyItsDomain :
    (presented 0x10000000 s0).RingInv ∧
      ∃ t, (presented 0x10000000 s0).fgEdge (some ⟨0x20000000, []⟩) devS0.line = .next t := ⟨by decide, _, rfl⟩

theorem witness_SynchronisersShiftTheirSources : ∃ t, s0.fgEdge none devS0.line = .next t := ⟨_, rfl⟩

theorem witness_EvEdgeWritesOnlyItsDomain : s0.RingInv := by decide

/-- An event held, and a completion owed and presented. -/
theorem witness_DevStepChangesNoBlockRegister :
    ({ s0 with devEvent := some 1 } : State).devEvent = some 1 ∧
      ((inFlight 1 s0).devEvent = none ∧ ((inFlight 1 s0).devStep devS0 (some 0b10)).devEvent = some 0b10 ∧
        (0b10 : BitVec 2).getLsbD 1 = true) := by decide

/-- A publisher at its pointer, and one behind it, at an FG edge and at an EV edge. -/
theorem witness_PublishersMoveOneStep :
    let s := { s0 with fg := { s0.fg with rptrRx := 3 }, ev := { s0.ev with wptrRx := 3 } };
    s.fg.wpubTx.b = s.fg.wptrTx ∧ s.fg.rpubRx.b ≠ s.fg.rptrRx ∧ s.ev.rpubTx.b = s.ev.rptrTx ∧
      s.ev.wpubRx.b ≠ s.ev.wptrRx ∧ ∃ t, s.fgEdge none LineState.zero = .next t :=
  ⟨rfl, by decide, rfl, by decide, _, rfl⟩

/-- A block out of reset whose DEV is not ready and holds the line state of S0, before and after one copy of it. -/
def lineHeld (n : Nat) : State :=
  let r := State.resetWith Params.default { DevSignals.zero with line := devS0.line }
  { r with fg := { r.fg with shadow := if n = 0 then r.fg.shadow else devS0.line }, draws := n }

/-- FG edges that copy every line-state bit that is 1, and EV edges, in turn. -/
def copying (n : Nat) : Move := if n % 2 = 0 then .fgEdge none devS0.line else .evEdge []

theorem lineHeld_running (n : Nat) : (lineHeld n).refused = false ∧ (lineHeld n).faultPre = false := by
  show (lineHeld 0).refused = false ∧ (lineHeld 0).faultPre = false
  decide

theorem lineHeld_fgEdge (n : Nat) : (lineHeld n).StepsTo (.fgEdge none devS0.line) (lineHeld (n + 1)) := by
  refine (stepsTo_iff _ _ _).2 ⟨(lineHeld_running n).1, (lineHeld_running n).2, ?_⟩
  have hf (m : Nat) : (State.fgCrossings devS0.line (lineHeld m) (lineHeld m)).fg = (lineHeld 1).fg := by
    cases m
    · decide
    · show (State.fgCrossings devS0.line (lineHeld 1) (lineHeld 1)).fg = (lineHeld 1).fg
      decide
  show Host.Outcome.next { lineHeld n with
    fg := (State.fgCrossings devS0.line (lineHeld n) (lineHeld n)).fg, draws := n + 1 } = _
  rw [hf]
  rfl

theorem lineHeld_evEdge (n : Nat) : (lineHeld (n + 1)).StepsTo (.evEdge []) (lineHeld (n + 2)) := by
  refine (stepsTo_iff _ _ _).2 ⟨(lineHeld_running _).1, (lineHeld_running _).2, ?_⟩
  have hl : (lineHeld (n + 2)).launchEn = false := by
    show (lineHeld 1).launchEn = false
    decide
  have hs : (lineHeld (n + 2)).evSequencer [] = lineHeld (n + 2) := by
    show (lineHeld (n + 2)).evIdle = _
    simp only [State.evIdle, hl, Bool.false_eq_true, if_false]
    rfl
  have he : (State.evCrossings (lineHeld (n + 2)) (lineHeld (n + 2))).ev = (lineHeld (n + 2)).ev := by
    show (State.evCrossings (lineHeld 1) (lineHeld 1)).ev = (lineHeld 1).ev
    decide
  show Host.Outcome.next ((lineHeld (n + 2)).evEdge []) = _
  rw [State.evEdge, hs]
  show Host.Outcome.next { lineHeld (n + 2) with
    ev := (State.evCrossings (lineHeld (n + 2)) (lineHeld (n + 2))).ev } = _
  rw [he]

theorem lineHeld_copied {α : Type} (signal : LineState → α) : HeldIsCopied signal lineHeld :=
  fun n _ => ⟨n + 1, by omega, rfl⟩

theorem copying_weaklyFair : WeaklyFair copying :=
  ⟨fun n => ⟨2 * n, by omega, by simp [copying, Move.isFgEdge]⟩,
    fun n => ⟨2 * n + 1, by omega, by simp [copying, Move.isEvEdge, Nat.add_mod]⟩⟩

theorem lineHeld_infiniteRun : InfiniteRun lineHeld copying := by
  refine ⟨⟨_, _, rfl⟩, fun n => ?_, copying_weaklyFair, lineHeld_copied _, lineHeld_copied _, lineHeld_copied _,
    lineHeld_copied _, lineHeld_copied _, lineHeld_copied _⟩
  unfold copying
  split
  · exact lineHeld_fgEdge n
  · cases n with
    | zero => contradiction
    | succ n => exact lineHeld_evEdge n

/-- No infinite run: a line state held for ever and never copied (44_line_state_ctrl.md R208). -/
theorem test_never_copied_is_no_run (moves : Nat → Move) :
    ¬InfiniteRun (fun n => { lineHeld 0 with draws := n }) moves := by
  rintro ⟨-, -, -, -, -, baud, -⟩
  obtain ⟨_, -, h⟩ := baud 0 fun _ _ => rfl
  exact absurd (show (lineHeld 0).fg.shadow.baud = (lineHeld 0).dev.line.baud from h) (by decide)

/-- An FG edge, and the second part with the connection bit old, and DTR, baud rate and data bits DEV's; and an
infinite run in which DEV holds its line state. -/
theorem witness_LineShadowBitsAreOldOrNew :
    (let s : State := State.resetWith Params.default devS0;
    let l : LineState := ⟨false, 0b01, 115200, 8, 0, 0⟩;
    (∃ t, s.fgEdge none devS0.line = .next t) ∧ s.fg.shadow ≠ l ∧ s.dev.line ≠ l ∧
      (l.connected = s.fg.shadow.connected ∨ l.connected = s.dev.line.connected) ∧
      (∀ k, l.ctl.getLsbD k = s.fg.shadow.ctl.getLsbD k ∨ l.ctl.getLsbD k = s.dev.line.ctl.getLsbD k) ∧
      (∀ k, l.baud.getLsbD k = s.fg.shadow.baud.getLsbD k ∨ l.baud.getLsbD k = s.dev.line.baud.getLsbD k) ∧
      (∀ k, l.databits.getLsbD k = s.fg.shadow.databits.getLsbD k ∨
        l.databits.getLsbD k = s.dev.line.databits.getLsbD k) ∧
      (∀ k, l.parity.getLsbD k = s.fg.shadow.parity.getLsbD k ∨ l.parity.getLsbD k = s.dev.line.parity.getLsbD k) ∧
      (∀ k, l.stopbits.getLsbD k = s.fg.shadow.stopbits.getLsbD k ∨
        l.stopbits.getLsbD k = s.dev.line.stopbits.getLsbD k)) ∧
      InfiniteRun lineHeld copying ∧ ∀ k, (lineHeld k).dev.line = (lineHeld 0).dev.line :=
  ⟨⟨⟨_, rfl⟩, by decide, by decide, .inl rfl, fun _ => .inr rfl, fun _ => .inr rfl, fun _ => .inr rfl, fun _ => .inr rfl,
    fun _ => .inr rfl⟩,
    lineHeld_infiniteRun, fun _ => rfl⟩

/-- A request to acknowledge, and none. -/
theorem witness_EvEdgeLoadsLevelsAndAcknowledges :
    ({ s0 with ev := { s0.ev with req := ⟨true, true⟩ } } : State).ev.req.s2 ≠ s0.ev.accAck ∧
      s0.ev.req.s2 = s0.ev.accAck := by decide

/-- The ceiling, the span and the view each the least. -/
theorem witness_LaunchHandsOverTheClampedPacket :
    (let s := txAt 0 64 [] s0;
      s.RingInv ∧ s.ev.state = .idle ∧ s.ev.txSize = 0 ∧ 0 < s.consView .tx) ∧
      (let s := txAt 60 70 [] s0;
        s.RingInv ∧ s.ev.state = .idle ∧ s.ev.txSize = 0 ∧ 0 < s.consView .tx) ∧
      (let s := txAt 0 1 [] s0;
        s.RingInv ∧ s.ev.state = .idle ∧ s.ev.txSize = 0 ∧ 0 < s.consView .tx) :=
  ⟨by decide, by decide, by decide⟩

/-- With bytes left; with none left and the notification due; and with no packet in flight. -/
theorem witness_CompletionRetiresThePacket :
    (let s := evIn .txDone 2 (inFlight 63 (txAt 0 64 [] s0));
      s.RingInv ∧ s.ev.state = .txDone ∧ s.ev.txSize ≠ 0 ∧ s.consView .tx ≠ 63) ∧
      (let p := evIn .txDone 2 (inFlight 4 (txAt 60 64 [] s0));
        let s : State := { p with ev := { p.ev with txn := ⟨true, true⟩ } };
        s.RingInv ∧ s.ev.state = .txDone ∧ s.ev.txSize ≠ 0 ∧ s.consView .tx = 4 ∧
          s.ev.accEv = s.ev.txCompleted + BitVec.ofNat 32 4 ∧ s.ev.txn.s2 = true) ∧
      ((evIn .txDone 2 (txAt 0 1 [] s0)).ev.state = .txDone ∧ (evIn .txDone 2 (txAt 0 1 [] s0)).ev.txSize = 0) :=
  ⟨by decide, by decide, by decide⟩

/-- With a packet in flight, with the EV view of TX empty, and with no event presented. -/
theorem witness_EventRoundStartsWithItsMask :
    (let s : State := { inFlight 1 (txAt 0 1 [] s0) with devEvent := some 0b10 };
      s.ev.state = .idle ∧ s.ev.txSize ≠ 0 ∧ s.devEvent = some 0b10) ∧
      (let s : State := { s0 with devEvent := some 0b11 };
        s.ev.state = .idle ∧ s.consView .tx = 0 ∧ s.devEvent = some 0b11) ∧
      s0.ev.state = .idle ∧ s0.consView .tx = 0 ∧ s0.devEvent = none := by decide

/-- At the start of a round, and with the last free byte and the last of the quota. -/
theorem witness_DrainIterationQueuesTheAnswer :
    (let s := evIn .rxDrain 1 s0;
      s.RingInv ∧ s.MemInv ∧ s.ev.state = .rxDrain ∧ 0 < s.cfg.capRx - s.prodView .rx ∧
        s.ev.rxTotal.toNat < s.cfg.capRx) ∧
      (let p := evIn .rxDrain 3 (rxAt 0 63 [] s0);
        let s : State := { p with ev := { p.ev with rxTotal := 63, rxWasEmpty := true, rxn := ⟨true, true⟩ } };
        s.RingInv ∧ s.MemInv ∧ s.ev.state = .rxDrain ∧ 0 < s.cfg.capRx - s.prodView .rx ∧
          s.ev.rxTotal.toNat < s.cfg.capRx) :=
  ⟨by decide, by decide⟩

/-- A full ring, and a used quota. -/
theorem witness_FullRingEndsTheDrain :
    (let s := evIn .rxDrain 1 (rxAt 0 64 [] s0);
      s.ev.state = .rxDrain ∧ s.cfg.capRx - s.prodView .rx = 0) ∧
      (let p := evIn .rxDrain 1 s0;
        let s : State := { p with ev := { p.ev with rxTotal := 64 } };
        s.ev.state = .rxDrain ∧ s.cfg.capRx - s.ev.rxTotal.toNat = 0) := by decide

theorem witness_SaturatedDrainPullsTwentyFour :
    let s := evIn .rxDrain 1 (rxAt 0 40 [] s0);
    s.cfg.capRx = 64 ∧ s.ev.wptrRx = 40 ∧ s.ev.rsyncRx = ⟨0, 0⟩ ∧ s.ev.state = .rxDrain ∧ s.ev.rxTotal = 0 ∧
      24 ≤ (List.replicate 40 (1 : Byte)).length := by decide

/-- The default parameters, and the least and the greatest legal ones. -/
theorem witness_ResetMeetsTheInvariants :
    Params.default.legal = true ∧ Params.legal ⟨2, 2, 2, 1, false⟩ = true ∧
      Params.legal ⟨32768, 32768, 1024, 1023, true⟩ = true := by decide

theorem witness_IllegalParametersAreRefused : Params.legal ⟨64, 64, 64, 64, true⟩ = false := by decide

/-- A push edge. -/
theorem witness_StepKeepsTheRingsInOrder :
    (next (.fgEdge none devS0.line) (pushing [1, 2, 3, 4, 5, 6] (txAt 60 60 [(3, 1)] s0))).RingInv := by decide

/-- Views that lag: the write pointer published and synchronised in part. -/
theorem witness_ViewsBracketTheOccupancy :
    let s := txAt 90 100 [] s0;
    ({ s with fg := { s.fg with wpubTx := ⟨97, bin2gray 97⟩ },
              ev := { s.ev with wsyncTx := ⟨bin2gray 96, bin2gray 95⟩ } } : State).RingInv := by decide

/-- A begun write: its request not acknowledged. -/
theorem witness_StepKeepsTheTransmitTotals :
    let s := next (.evEdge []) (presented 0x60410000 (after (exec (.write1 false 0x41) s0)));
    s.TotalsInv ∧ s.ev.accAck ≠ s.fg.accReq ∧ ∃ t, step s = .next t := ⟨by decide, by decide, _, rfl⟩

/-- Before and after the acknowledge. -/
theorem witness_OutstandingTotalCountsAcceptedBytes :
    (after (exec (.write1 false 0x41) s0)).TotalsInv ∧
      (after (exec (.write1 false 0x41) s0)).ev.accAck ≠ (after (exec (.write1 false 0x41) s0)).fg.accReq ∧
      (pushing [1, 2] (txAt 0 64 [] s0)).TotalsInv ∧
      (pushing [1, 2] (txAt 0 64 [] s0)).ev.accAck = (pushing [1, 2] (txAt 0 64 [] s0)).fg.accReq :=
  ⟨by decide, by decide, by decide, by decide⟩

/-- The completion presented and about to be taken. -/
theorem witness_StepKeepsTheCompletionDuty :
    let s := next (.evEdge []) { inFlight 1 (txAt 0 1 [] s0) with devEvent := some 0b10, devOwes := false };
    s.DutyInv ∧ s.RingInv ∧ ∃ t, step s = .next t ∧ t.ev.state = .txDone := ⟨by decide, by decide, _, rfl, rfl⟩

/-- DONE would answer 1, and a step queues nothing. -/
theorem witness_DoneIsIdempotent :
    let s := next (.fgEdge (some ⟨0x90000000, []⟩) devS0.line) s0;
    s.DoneInv ∧ s.txDone = true ∧ ∃ t, step s = .next t ∧ t.fg.wptrTx = s.fg.wptrTx :=
  ⟨by decide, by decide, _, rfl, rfl⟩

/-- A step that stores. -/
theorem witness_StepKeepsTheMemoryCanonical :
    let s := next (.evEdge [5, 0, 6]) (evIn .rxDrain 1 (rxAt 0 1 [(0, 1), (2, 2)] s0));
    s.MemInv ∧ ∃ t, step s = .next t ∧ t.memRx = [(0, 1), (1, 5), (3, 6)] := ⟨by decide, _, rfl, by decide⟩

theorem witness_StepKeepsReservedBitsAndIll :
    let s := next (.fgEdge (some ⟨0xE0FF0000, []⟩) devS0.line) { s0 with fg := { s0.fg with status := 1 } };
    s.ReservedZero ∧ s.fg.status.getLsbD 0 = true ∧ ∃ t, step s = .next t := ⟨by decide, by decide, _, rfl⟩

/-- A push, and a launch, which puts queued bytes on the wire. -/
theorem witness_TxBytesLeaveInTheOrderQueued :
    (let s := next (.fgEdge none devS0.line) (pushing [1, 2, 3, 4, 5, 6] (txAt 60 60 [] s0));
      s.RingInv ∧ s.MemInv ∧ ∃ t, step s = .next t ∧ t.fg.wptrTx = 64) ∧
    let s := next (.evEdge []) (txAt 0 2 [(0, 8), (1, 9)] s0);
    s.RingInv ∧ s.MemInv ∧ ∃ t, step s = .next t ∧ wireBytes t.out = [8, 9] :=
  ⟨⟨by decide, by decide, _, rfl, by decide⟩, by decide, by decide, _, rfl, by decide⟩

/-- A drain, and a READ that pops. -/
theorem witness_RxBytesArriveInTheOrderReceived :
    (let s := next (.evEdge [5, 6]) (evIn .rxDrain 1 s0);
      s.RingInv ∧ s.MemInv ∧ (∃ t, step s = .next t) ∧ s.nextMove = .evEdge [5, 6]) ∧
      (let s := next (.fgEdge none devS0.line) (presented 0x40000000 (rxAt 63 65 [(0, 6), (63, 5)] s0));
        s.RingInv ∧ s.MemInv ∧ (∃ t, step s = .next t) ∧ ∀ answer, s.nextMove ≠ .evEdge answer) :=
  ⟨⟨by decide, by decide, ⟨_, rfl⟩, rfl⟩, by decide, by decide, ⟨_, rfl⟩, fun _ => by simp [State.nextMove, next]⟩

/-- A push beside a packet in flight. -/
theorem witness_PacketBytesStayUntilCompletion :
    let s := next (.fgEdge none devS0.line) (pushing [7] (inFlight 2 (txAt 62 64 [(62, 8), (63, 9)] s0)));
    s.RingInv ∧ s.ev.txSize ≠ 0 ∧ ∃ t, step s = .next t ∧ t.ev.txSize ≠ 0 ∧ t.memTx = [(0, 7), (62, 8), (63, 9)] :=
  ⟨by decide, by decide, _, rfl, by decide, by decide⟩

/-- A launch, and a completion. -/
theorem witness_AtMostOnePacketInFlight :
    (let s := next (.evEdge []) (txAt 0 2 [(0, 8), (1, 9)] s0);
      s.RingInv ∧ ∃ t, step s = .next t ∧ OutEvent.tx [8, 9] ∈ t.out.drop s.out.length) ∧
      (let s := next (.evEdge []) (evIn .txDone 2 (inFlight 2 (txAt 0 2 [] s0)));
        s.RingInv ∧ s.ev.txSize ≠ 0 ∧ ∃ t, step s = .next t ∧ t.ev.txSize = 0) :=
  ⟨⟨by decide, _, rfl, by decide⟩, by decide, by decide, _, rfl, rfl⟩

/-- A write of one byte that has its acknowledge, before a full TX ring whose packet DEV does not complete. -/
def acknowledged (state : FgState) (draws : Nat) : State :=
  let p := inFlight 63 (txAt 0 64 [] s0)
  { p with
    fg :=
      { p.fg with
        accBin := 65, accReq := true, ack := ⟨true, true⟩, busy := ⟨true, true⟩, state := state, word := 0x60410000,
        acc := 1, rem := 1, src := [0x41] }
    ev := { p.ev with accEv := 65, accAck := true, req := ⟨true, true⟩ }
    draws := draws }

/-- FG and EV edges in turn. -/
def alternating (n : Nat) : Move := if n % 2 = 0 then .fgEdge none LineState.zero else .evEdge []

/-- With the ring full and the packet in flight neither edge changes more than the number of moves made. -/
theorem acknowledged_evEdge (n : Nat) : (acknowledged .push n).StepsTo (.evEdge []) (acknowledged .push (n + 1)) := by
  with_unfolding_all rfl

/-- Crossings that leave the foreground registers as they were leave the state as it was. -/
theorem fgCrossings_settled (copy : LineState) (s : State) (h : (State.fgCrossings copy s s).fg = s.fg) :
    State.fgCrossings copy s s = s := by
  have hs : State.fgCrossings copy s s = { s with fg := (State.fgCrossings copy s s).fg } := rfl
  rw [hs, h]

theorem acknowledged_fgEdge (n : Nat) :
    (acknowledged .push n).StepsTo (.fgEdge none LineState.zero) (acknowledged .push (n + 1)) := by
  rw [stepsTo_iff]
  refine ⟨rfl, rfl, ?_⟩
  have h : (acknowledged .push (n + 1)).fgContinue = acknowledged .push (n + 1) := by
    have : (acknowledged .push (n + 1)).availableToWrite .tx = 0 := by
      show (acknowledged .push 0).availableToWrite .tx = 0
      decide
    show (acknowledged .push (n + 1)).pushStep = _
    simp only [State.pushStep, this, if_true]
  show (acknowledged .push (n + 1)).fgEdge none LineState.zero = _
  have hk : (acknowledged .push (n + 1)).takesCommand = false := rfl
  simp only [State.fgEdge, hostPresent_none, State.fgSequencer, hk, Bool.false_eq_true, if_false, h]
  have hf : (State.fgCrossings LineState.zero (acknowledged .push (n + 1)) (acknowledged .push (n + 1))).fg =
      (acknowledged .push (n + 1)).fg := by
    show (State.fgCrossings LineState.zero (acknowledged .push 0) (acknowledged .push 0)).fg = (acknowledged .push 0).fg
    decide
  exact congrArg Host.Outcome.next (fgCrossings_settled _ _ hf)

/-- The wait ends, the request is about to be captured, and a weakly fair sequence of steps starts in the wait. -/
theorem witness_AcceptedTotalIsStableInTheWait :
    (let b := after (exec (.write1 false 0x41) s0);
      let s := next (.fgEdge none devS0.line) { b with fg := { b.fg with ack := ⟨true, true⟩ } };
      s.fg.state = .waitAck ∧ ∃ t, step s = .next t ∧ t.fg.state ≠ .waitAck) ∧
      (let b := after (exec (.write1 false 0x41) s0);
        let s : State := { b with ev := { b.ev with req := ⟨true, true⟩ } };
        s.TotalsInv ∧ s.ev.req.s2 ≠ s.ev.accAck) ∧
      ∃ states, InfinitePath states alternating ∧ WeaklyFair alternating ∧ (states 0).TotalsInv ∧
        (states 0).fg.state = .waitAck := by
  refine ⟨⟨by decide, _, rfl, by decide⟩, by decide,
    fun n => acknowledged (if n = 0 then .waitAck else .push) n, ?_, ⟨?_, ?_⟩, by decide, rfl⟩
  · intro n
    rcases n with _ | n
    · exact rfl
    · simp only [alternating, Nat.add_eq_zero_iff, Nat.succ_ne_self, and_false, if_false]
      split
      · exact acknowledged_fgEdge (n + 1)
      · exact acknowledged_evEdge (n + 1)
  · exact fun n => ⟨2 * n, by omega, by simp [alternating, Move.isFgEdge]⟩
  · exact fun n => ⟨2 * n + 1, by omega, by simp [alternating, Move.isEvEdge, Nat.add_mod]⟩

/-- A write that stays in PUSH across the physical end; non-blocking mode in the foreground; and an edge that takes a
WRITE1 in interrupt context with the last free byte, and one that turns it away. -/
theorem witness_FittingWriteNeverHolds :
    (let s := next (.fgEdge none devS0.line) (pushing [1, 2, 3, 4, 5, 6] (txAt 60 60 [(3, 1)] s0));
      s.RingInv ∧ s.writing ∧ s.fg.rem.toNat ≤ s.cfg.capTx - s.prodView .tx ∧ ∃ t, step s = .next t ∧ t.writing) ∧
      ({ s0 with fg := { s0.fg with ctrl := 0 } } : State).fg.ctrl.getLsbD 0 = false ∧
      (let s := txAt 0 63 [] s0;
        let p := s.hostPresent (some ⟨0x68410000, []⟩);
        s.RingInv ∧ p.takesCommand = true ∧ p.fetch = .ok (.write1 true 0x41) ∧
          ∃ t, s.fgEdge (some ⟨0x68410000, []⟩) devS0.line = .next t ∧ t.fg.state = .waitAck) ∧
      (let s := pushing [1] (txAt 0 64 [] s0);
        let p := s.hostPresent (some ⟨0x68410000, []⟩);
        s.RingInv ∧ p.takesCommand = true ∧ p.fetch = .ok (.write1 true 0x41) ∧
          ∃ t, s.fgEdge (some ⟨0x68410000, []⟩) devS0.line = .next t ∧ t.out = [.rsp 0 []]) :=
  ⟨⟨by decide, by decide, by decide, _, rfl, by decide⟩, by decide, ⟨by decide, by decide, by decide, _, rfl, rfl⟩,
    by decide, by decide, by decide, _, rfl, rfl⟩

/-- S0 and the state after reset are quiescent, also with an edge lined up at which the host presents nothing. -/
theorem witness_QuiescentStateIsStill :
    s0.quiescent = true ∧ State.reset.quiescent = true ∧ (next (.fgEdge none devS0.line) s0).quiescent = true ∧
      (next (.evEdge [1]) s0).quiescent = true := by decide

end Sys2Proof.Tests
end

section
/-! The legal parameters (00_scope.md R7) and the refusal of all others (60_exceptions.md R258). -/

namespace Sys2Proof.Machine

/-! ## Legal parameters -/

/-- The capacities of 00_scope.md R7 by their exponent, which is the index width AW. -/
theorem legalCapacity_iff (c : Nat) : legalCapacity c = true ↔ ∃ k, 1 ≤ k ∧ k ≤ 15 ∧ c = 2 ^ k := by
  constructor
  · intro h
    obtain ⟨hmin, hmax, hpow⟩ := legalCapacity_spec h
    have hlow : 2 ^ 1 ≤ 2 ^ Nat.log2 c := by rw [hpow]; exact hmin
    have hhigh : 2 ^ Nat.log2 c ≤ 2 ^ 15 := by rw [hpow]; exact hmax
    exact ⟨Nat.log2 c, (Nat.pow_le_pow_iff_right (by decide)).mp hlow,
      (Nat.pow_le_pow_iff_right (by decide)).mp hhigh, hpow.symm⟩
  · rintro ⟨k, hk1, hk15, rfl⟩
    have hlow : 2 ^ 1 ≤ 2 ^ k := Nat.pow_le_pow_right (by decide) hk1
    have hhigh : 2 ^ k ≤ 2 ^ 15 := Nat.pow_le_pow_right (by decide) hk15
    simpa [legalCapacity, Nat.log2_two_pow] using And.intro hlow hhigh

/-- CEIL ≤ MPS − 1 (00_scope.md R7), without the truncated subtraction. -/
theorem legalCeiling_iff (mps ceil : Nat) : legalCeiling mps ceil = true ↔ 1 ≤ ceil ∧ ceil + 1 ≤ mps := by
  simp [legalCeiling, Nat.succ_le_iff]

theorem Params.legal_iff (p : Params) :
    p.legal = true ↔
      (∃ k, 1 ≤ k ∧ k ≤ 15 ∧ p.capRx = 2 ^ k) ∧ (∃ k, 1 ≤ k ∧ k ≤ 15 ∧ p.capTx = 2 ^ k) ∧
        1 ≤ p.ceil ∧ p.ceil + 1 ≤ p.mps := by
  rw [Params.legal, Bool.and_eq_true, Bool.and_eq_true, and_assoc, legalCapacity_iff, legalCapacity_iff,
    legalCeiling_iff]

/-! ## Refused configurations -/

@[simp] theorem resetWith_refused (p : Params) (dev : DevSignals) :
    (State.resetWith p dev).refused = !p.legal := rfl

/-- A recorded refusal comes before a recorded model fault and before any agent's move. -/
theorem step_of_refused {s : State} (h : s.refused = true) : step s = .refused .illegalConfig := by
  simp only [step, State.stepOnce, h, if_true]

/-- Settles O45: the legal set by the exponents of the capacities; the refusal by the value of `refused` at reset. -/
theorem illegalParametersAreRefused : Obligations.IllegalParametersAreRefused := by
  unfold Obligations.IllegalParametersAreRefused
  refine ⟨Params.legal_iff, fun p dev hillegal => ?_⟩
  have hrefused : (State.resetWith p dev).refused = true := by rw [resetWith_refused, hillegal]; rfl
  exact ⟨hrefused, step_of_refused hrefused⟩

end Sys2Proof.Machine
end

section
/-! What an FG edge and an EV edge can do, said once for each sequencer (60_exceptions.md R252, R253). -/

namespace Sys2Proof.Machine

/-! ## The primitives, as a record update -/

/-- A pop from RX writes `rptr_RX` and the fault bit alone (40_ringbuffer.md R104, R109). -/
theorem popChunk_rx_eq_update (n : Nat) (s : State) :
    ∃ p b, (s.popChunk .rx n).2 = { s with fg := { s.fg with rptrRx := p }, faultPre := b } := by
  rcases popChunk_cases .rx n s with ⟨-, h⟩ | ⟨-, h⟩ <;> rw [h]
  · exact ⟨_, _, rfl⟩
  · exact ⟨_, _, rfl⟩

/-- A pop from TX writes `rptr_TX` and the fault bit alone (40_ringbuffer.md R104, R109). -/
theorem popChunk_tx_eq_update (n : Nat) (s : State) :
    ∃ p b, (s.popChunk .tx n).2 = { s with ev := { s.ev with rptrTx := p }, faultPre := b } := by
  rcases popChunk_cases .tx n s with ⟨-, h⟩ | ⟨-, h⟩ <;> rw [h]
  · exact ⟨_, _, rfl⟩
  · exact ⟨_, _, rfl⟩

/-- A push into RX writes `mem_RX`, `wptr_RX` and the fault bit alone (40_ringbuffer.md R103, R109). -/
theorem pushChunk_rx_eq_update (src : List Byte) (n : Nat) (s : State) :
    ∃ cells p b, s.pushChunk .rx src n =
      { s with memRx := cells, ev := { s.ev with wptrRx := p }, faultPre := b } := by
  rcases pushChunk_cases .rx src n s with ⟨-, h⟩ | ⟨-, h⟩ <;> rw [h]
  · exact ⟨_, _, _, rfl⟩
  · exact ⟨_, _, _, rfl⟩

/-- A push into TX writes `mem_TX`, `wptr_TX` and the fault bit alone (40_ringbuffer.md R103, R109). -/
theorem pushChunk_tx_eq_update (src : List Byte) (n : Nat) (s : State) :
    ∃ cells p b, s.pushChunk .tx src n =
      { s with memTx := cells, fg := { s.fg with wptrTx := p }, faultPre := b } := by
  rcases pushChunk_cases .tx src n s with ⟨-, h⟩ | ⟨-, h⟩ <;> rw [h]
  · exact ⟨_, _, _, rfl⟩
  · exact ⟨_, _, _, rfl⟩

/-- A pop within its precondition records no model fault (40_ringbuffer.md R106). -/
theorem popChunk_faultPre {f : Fifo} {n : Nat} {s : State} (h : s.canPop f n = true) :
    (s.popChunk f n).2.faultPre = s.faultPre := by
  rcases popChunk_cases f n s with ⟨-, e⟩ | ⟨hfail, -⟩
  · rw [e]; cases f <;> rfl
  · rw [h] at hfail; cases hfail

/-- A push within its precondition records no model fault (40_ringbuffer.md R106). -/
theorem pushChunk_faultPre {f : Fifo} {src : List Byte} {n : Nat} {s : State} (h : s.canPush f src n = true) :
    (s.pushChunk f src n).faultPre = s.faultPre := by
  rcases pushChunk_cases f src n s with ⟨-, e⟩ | ⟨hfail, -⟩
  · rw [e]; cases f <;> rfl
  · rw [h] at hfail; cases hfail

/-! ## A taken command -/

/-- READB's first span (42_receive.md R154). -/
def State.firstSpan (k : Nat) (s : State) : Nat := min k (s.span .rx (s.idx .rx (s.rptr .rx)))

/-- What a taken command that answers at its edge has done before it answers. -/
inductive State.Prepares (s : State) : State → Prop where
  /-- Nothing: a query, NOP, a write turned away, an interrupt-context FLUSH. -/
  | query : s.Prepares s
  /-- SETCTRL (44_line_state_ctrl.md R206). -/
  | setctrl (data : Byte) : s.Prepares { s with fg := { s.fg with ctrl := ctrlValue data } }
  /-- An illegal word (44_line_state_ctrl.md R207). -/
  | illegal : s.Prepares { s with fg := { s.fg with status := setIll s.fg.status } }
  /-- READ, where the view shows a byte (42_receive.md R153). -/
  | read (h : s.consView .rx ≠ 0) : s.Prepares (s.popChunk .rx 1).2
  /-- READB: two spans (42_receive.md R154). -/
  | readb (k : Nat) (h : k ≤ s.consView .rx) :
    s.Prepares ((s.popChunk .rx (s.firstSpan k)).2.popChunk .rx (k - s.firstSpan k)).2

/-- A begun write answers 0 or is accepted. -/
theorem beginWrite_forms (ctx : Bool) (size : Count) (source : List Byte) (s : State) :
    (∃ u w bytes, s.Prepares u ∧ s.beginWrite ctx size source = u.finishTaken w bytes) ∨
      ∃ n, s.beginWrite ctx size source = s.acceptWrite n source := by
  rcases beginWrite_cases ctx size source s with ⟨-, h⟩ | ⟨-, -, h⟩
  · exact .inl ⟨s, _, _, .query, h⟩
  · exact .inr ⟨_, h⟩

/-- The first operation of a command answers, or accepts a write, or begins a flush wait. -/
theorem exec_cases {i : Instr} {s t : State} (h : exec i s = .next t) :
    (∃ u w bytes, s.Prepares u ∧ t = u.finishTaken w bytes) ∨
      (∃ n source, t = s.acceptWrite n source) ∨
      t = { s with fg := { s.fg with state := .flushWait } } := by
  have hwrite : ∀ ctx size source, t = s.beginWrite ctx size source →
      (∃ u w bytes, s.Prepares u ∧ t = u.finishTaken w bytes) ∨ (∃ n source, t = s.acceptWrite n source) ∨
        t = { s with fg := { s.fg with state := .flushWait } } := by
    rintro ctx size source rfl
    rcases beginWrite_forms ctx size source s with hanswer | ⟨n, haccept⟩
    · exact .inl hanswer
    · exact .inr (.inl ⟨n, source, haccept⟩)
  cases i
  case read =>
    simp only [exec, execRead] at h
    split at h <;> cases h
    · exact .inl ⟨_, _, _, .query, rfl⟩
    · exact .inl ⟨_, _, _, .read ‹_›, rfl⟩
  case readb size => cases h; exact .inl ⟨_, _, _, .readb _ (Nat.min_le_right _ _), rfl⟩
  case write1 ctx data => cases h; exact hwrite ctx 1 [data] rfl
  case writeb ctx size source => cases h; exact hwrite ctx size source rfl
  case flush ctx =>
    cases ctx <;> cases h
    · exact .inr (.inr rfl)
    · exact .inl ⟨_, _, _, .query, rfl⟩
  case setctrl data => cases h; exact .inl ⟨_, _, _, .setctrl data, rfl⟩
  case illegalOp | illegalRsv1 | illegalRsv2 | illegalRsv3 | illegalRsv4 | illegalRsv5 | illegalRsv6 | illegalRsv7 =>
    cases h; exact .inl ⟨_, _, _, .illegal, rfl⟩
  all_goals cases h; exact .inl ⟨_, _, _, .query, rfl⟩

/-! ## A held command -/

/-- The state after a push edge has moved its span, before the completion (41_transmit.md R125). -/
def State.pushed (s : State) : State :=
  let t := s.pushChunk .tx s.fg.src s.pushLength
  { t with fg :=
      { t.fg with src := s.fg.src.drop s.pushLength, rem := s.fg.rem - BitVec.ofNat 16 s.pushLength } }

/-- A held command waits, goes to PUSH, pushes a span, or completes with or without one (41_transmit.md R124 to R127,
R136). -/
theorem fgContinue_cases (s : State) :
    s.fgContinue = s ∨ s.fgContinue = { s with fg := { s.fg with state := .push } } ∨
      s.fgContinue = s.finishHeld 0 [] ∨ s.fgContinue = s.pushed ∨
      ∃ w, s.fgContinue = s.pushed.finishHeld w [] := by
  cases hstate : s.fg.state with
  | idle => exact .inl (by simp only [State.fgContinue, hstate])
  | waitAck =>
    have e : s.fgContinue = s.waitAckStep := by simp only [State.fgContinue, hstate]
    rw [e]
    rcases waitAckStep_cases s with ⟨-, h⟩ | ⟨-, h⟩
    · exact .inr (.inl h)
    · exact .inl h
  | push =>
    have e : s.fgContinue = s.pushStep := by simp only [State.fgContinue, hstate]
    rw [e]
    rcases pushStep_cases s with ⟨-, h⟩ | ⟨-, -, h⟩ | ⟨-, -, h⟩
    · exact .inl h
    · exact .inr (.inr (.inr (.inl h)))
    · exact .inr (.inr (.inr (.inr ⟨_, h⟩)))
  | flushWait =>
    have e : s.fgContinue = s.flushWaitStep := by simp only [State.fgContinue, hstate]
    rw [e]
    rcases flushWaitStep_cases s with ⟨-, -, h⟩ | ⟨-, h⟩
    · exact .inr (.inr (.inl h))
    · exact .inl h

/-- The host's presentation writes the port alone (60_exceptions.md R255). -/
theorem hostPresent_eq_update (present : Option HostCmd) (s : State) :
    ∃ port, s.hostPresent present = { s with port := port } := by
  cases present with
  | none => exact ⟨_, rfl⟩
  | some c =>
    simp only [State.hostPresent]
    split
    · exact ⟨_, rfl⟩
    · exact ⟨_, rfl⟩

end Sys2Proof.Machine
end

section
/-! What the edges of each domain write and leave unchanged (10_state.md R20, 40_ringbuffer.md R109). -/

namespace Sys2Proof.Machine

/-! ## What FG operations write -/

/-- At most FG registers, `mem_TX`, the port, the output and the fault bit differ. -/
def State.FgWrites (s t : State) : Prop :=
  t = { s with fg := t.fg, memTx := t.memTx, port := t.port, out := t.out, faultPre := t.faultPre }

theorem State.FgWrites.refl (s : State) : s.FgWrites s := rfl

theorem State.FgWrites.trans {s t u : State} (hst : s.FgWrites t) (htu : t.FgWrites u) : s.FgWrites u := by
  unfold State.FgWrites at *
  rw [hst] at htu
  exact htu

theorem fgWrites_fg (fg : FgDomain) (s : State) : s.FgWrites { s with fg := fg } := rfl

theorem fgWrites_port (port : FgPort) (s : State) : s.FgWrites { s with port := port } := rfl

theorem fgWrites_finishHeld (w : Word) (bytes : List Byte) (s : State) : s.FgWrites (s.finishHeld w bytes) := rfl

theorem fgWrites_finishTaken (w : Word) (bytes : List Byte) (s : State) : s.FgWrites (s.finishTaken w bytes) := by
  rcases finishTaken_cases s w bytes with ⟨-, h⟩ | ⟨-, h⟩ <;> rw [h]
  · exact fgWrites_finishHeld w bytes s
  · rfl

theorem fgWrites_fgCrossings (copy : LineState) (pre s : State) : s.FgWrites (State.fgCrossings copy pre s) := rfl

theorem fgWrites_popChunk (n : Nat) (s : State) : s.FgWrites (s.popChunk .rx n).2 := by
  obtain ⟨p, b, h⟩ := popChunk_rx_eq_update n s
  rw [h]; rfl

theorem fgWrites_pushed (s : State) : s.FgWrites s.pushed := by
  obtain ⟨cells, p, b, h⟩ := pushChunk_tx_eq_update s.fg.src s.pushLength s
  simp only [State.pushed, h]; rfl

theorem State.Prepares.fgWrites {s u : State} (h : s.Prepares u) : s.FgWrites u := by
  cases h with
  | query => exact State.FgWrites.refl s
  | setctrl => exact fgWrites_fg _ s
  | illegal => exact fgWrites_fg _ s
  | read => exact fgWrites_popChunk 1 s
  | readb => exact (fgWrites_popChunk _ s).trans (fgWrites_popChunk _ _)

theorem exec_fgWrites {i : Instr} {s t : State} (h : exec i s = .next t) : s.FgWrites t := by
  rcases exec_cases h with ⟨u, w, bytes, hu, rfl⟩ | ⟨n, source, rfl⟩ | rfl
  · exact hu.fgWrites.trans (fgWrites_finishTaken w bytes u)
  · exact fgWrites_fg _ s
  · exact fgWrites_fg _ s

theorem fgContinue_fgWrites (s : State) : s.FgWrites s.fgContinue := by
  rcases fgContinue_cases s with h | h | h | h | ⟨w, h⟩ <;> rw [h]
  · exact State.FgWrites.refl s
  · exact fgWrites_fg _ s
  · exact fgWrites_finishHeld 0 [] s
  · exact fgWrites_pushed s
  · exact (fgWrites_pushed s).trans (fgWrites_finishHeld w [] _)

theorem fgEdge_fgWrites {present : Option HostCmd} {copy : LineState} {s t : State}
    (h : s.fgEdge present copy = .next t) : s.FgWrites t := by
  obtain ⟨u, hseq, rfl⟩ := fgEdge_cases h
  obtain ⟨port, hpresent⟩ := hostPresent_eq_update present s
  have hpre : s.FgWrites (s.hostPresent present) := by rw [hpresent]; exact fgWrites_port port s
  have hpost : (s.hostPresent present).FgWrites u := by
    rcases fgSequencer_cases hseq with ⟨-, i, -, hexec⟩ | ⟨-, rfl⟩
    · exact (fgWrites_port _ _).trans (exec_fgWrites hexec)
    · exact fgContinue_fgWrites _
  exact (hpre.trans hpost).trans (fgWrites_fgCrossings copy _ u)

/-! ## What FG operations answer -/

/-- The output grows by at most one event, an answer (60_exceptions.md R252). -/
def State.AnswersAtMostOnce (s t : State) : Prop :=
  t.out = s.out ∨ ∃ w bytes, t.out = s.out ++ [.rsp w bytes]

theorem popChunk_out (f : Fifo) (n : Nat) (s : State) : (s.popChunk f n).2.out = s.out := by
  rcases popChunk_cases f n s with ⟨-, h⟩ | ⟨-, h⟩ <;> rw [h]
  · cases f <;> rfl
  · rfl

theorem pushChunk_out (f : Fifo) (src : List Byte) (n : Nat) (s : State) : (s.pushChunk f src n).out = s.out := by
  rcases pushChunk_cases f src n s with ⟨-, h⟩ | ⟨-, h⟩ <;> rw [h]
  · cases f <;> rfl
  · rfl

theorem pushed_out (s : State) : s.pushed.out = s.out := pushChunk_out .tx s.fg.src s.pushLength s

theorem State.Prepares.out_eq {s u : State} (h : s.Prepares u) : u.out = s.out := by
  cases h with
  | query | setctrl | illegal => rfl
  | read => exact popChunk_out .rx 1 s
  | readb => rw [popChunk_out, popChunk_out]

theorem exec_answersAtMostOnce {i : Instr} {s t : State} (h : exec i s = .next t) : s.AnswersAtMostOnce t := by
  rcases exec_cases h with ⟨u, w, bytes, hu, rfl⟩ | ⟨n, source, rfl⟩ | rfl
  · exact .inr ⟨w, bytes, by rw [finishTaken_out, hu.out_eq]⟩
  · exact .inl rfl
  · exact .inl rfl

theorem fgContinue_answersAtMostOnce (s : State) : s.AnswersAtMostOnce s.fgContinue := by
  rcases fgContinue_cases s with h | h | h | h | ⟨w, h⟩ <;> rw [h]
  · exact .inl rfl
  · exact .inl rfl
  · exact .inr ⟨0, [], rfl⟩
  · exact .inl (pushed_out s)
  · exact .inr ⟨w, [], by rw [finishHeld_out, pushed_out]⟩

theorem fgEdge_answersAtMostOnce {present : Option HostCmd} {copy : LineState} {s t : State}
    (h : s.fgEdge present copy = .next t) : s.AnswersAtMostOnce t := by
  obtain ⟨u, hseq, rfl⟩ := fgEdge_cases h
  have hpost : (s.hostPresent present).AnswersAtMostOnce u := by
    rcases fgSequencer_cases hseq with ⟨-, i, -, hexec⟩ | ⟨-, rfl⟩
    · exact exec_answersAtMostOnce (s := (s.hostPresent present).portTaken) hexec
    · exact fgContinue_answersAtMostOnce _
  simpa [State.AnswersAtMostOnce] using hpost

/-! ## What EV operations write and emit -/

/-- At most EV registers, `mem_RX`, the output, the fault bit and DEV's handshakes differ, and the output grows by
events that are no answers. -/
structure State.EvWrites (s t : State) : Prop where
  frame : t = { s with
    ev := t.ev, memRx := t.memRx, out := t.out, faultPre := t.faultPre, devEvent := t.devEvent,
    devOwes := t.devOwes }
  output : ∃ l, t.out = s.out ++ l ∧ ∀ w bytes, OutEvent.rsp w bytes ∉ l

/-- An operation that leaves the output alone. -/
theorem State.EvWrites.of_silent {s t : State}
    (frame : t = { s with
      ev := t.ev, memRx := t.memRx, faultPre := t.faultPre, devEvent := t.devEvent, devOwes := t.devOwes }) :
    s.EvWrites t := by
  rw [frame]
  exact ⟨rfl, [], by simp⟩

theorem State.EvWrites.refl (s : State) : s.EvWrites s := .of_silent rfl

theorem State.EvWrites.trans {s t u : State} (hst : s.EvWrites t) (htu : t.EvWrites u) : s.EvWrites u := by
  obtain ⟨hframe, l, hl, hnl⟩ := hst
  obtain ⟨hframe', l', hl', hnl'⟩ := htu
  refine ⟨?_, l ++ l', by rw [hl', hl, List.append_assoc], by simp [hnl, hnl']⟩
  rw [hframe] at hframe'
  exact hframe'

theorem evWrites_ev (ev : EvDomain) (s : State) : s.EvWrites { s with ev := ev } := .of_silent rfl

theorem evWrites_emit {e : OutEvent} (s : State) (he : ∀ w bytes, e ≠ .rsp w bytes) : s.EvWrites (s.emit e) :=
  ⟨rfl, [e], rfl, fun w bytes hmem => he w bytes (List.mem_singleton.mp hmem).symm⟩

theorem evWrites_popChunk (n : Nat) (s : State) : s.EvWrites (s.popChunk .tx n).2 := by
  obtain ⟨p, b, h⟩ := popChunk_tx_eq_update n s
  rw [h]; exact .of_silent rfl

theorem evWrites_pushChunk (src : List Byte) (n : Nat) (s : State) : s.EvWrites (s.pushChunk .rx src n) := by
  obtain ⟨cells, p, b, h⟩ := pushChunk_rx_eq_update src n s
  rw [h]; exact .of_silent rfl

theorem evWrites_evCrossings (pre s : State) : s.EvWrites (State.evCrossings pre s) := evWrites_ev _ s

theorem evWrites_endRxPhase (total : Count) (s : State) : s.EvWrites (s.endRxPhase total) := by
  rcases endRxPhase_cases total s with ⟨-, -, -, h⟩ | ⟨-, h⟩ <;> rw [h]
  · exact (evWrites_ev _ s).trans (evWrites_emit _ (by simp))
  · exact evWrites_ev _ s

theorem evWrites_txComplete (s : State) : s.EvWrites s.txComplete := by
  rcases txComplete_cases s with ⟨-, h⟩ | ⟨-, h⟩ <;> rw [h]
  · exact evWrites_ev _ s
  · refine State.EvWrites.trans ?_ (evWrites_ev _ _)
    split
    · exact (evWrites_popChunk _ s).trans (evWrites_emit _ (by simp))
    · exact evWrites_popChunk _ s

/-- The state after a drain iteration has queued DEV's answer, before the phase may end (42_receive.md R155). -/
def State.drained (answer : List Byte) (s : State) : State :=
  let bytes := answer.take s.rxCap
  let t := (s.emit (.rxReq (BitVec.ofNat 16 s.rxCap))).pushChunk .rx bytes bytes.length
  { t with ev := { t.ev with rxTotal := s.ev.rxTotal + BitVec.ofNat 16 bytes.length } }

/-- A drain iteration queues an answer or not, and ends the phase or not. -/
theorem rxIter_forms (answer : List Byte) (s : State) :
    (∃ total, s.rxIter answer = s.endRxPhase total) ∨
      (∃ total, s.rxIter answer = (s.drained answer).endRxPhase total) ∨ s.rxIter answer = s.drained answer := by
  rcases rxIter_cases answer s with ⟨-, h⟩ | ⟨-, -, -, h⟩ | ⟨-, -, -, h⟩
  · exact .inl ⟨_, h⟩
  · exact .inr (.inl ⟨_, h⟩)
  · exact .inr (.inr h)

theorem evWrites_drained (answer : List Byte) (s : State) : s.EvWrites (s.drained answer) :=
  ((evWrites_emit s (by simp)).trans (evWrites_pushChunk _ _ _)).trans (evWrites_ev _ _)

theorem evWrites_rxIter (answer : List Byte) (s : State) : s.EvWrites (s.rxIter answer) := by
  rcases rxIter_forms answer s with ⟨total, h⟩ | ⟨total, h⟩ | h <;> rw [h]
  · exact evWrites_endRxPhase total s
  · exact (evWrites_drained answer s).trans (evWrites_endRxPhase total _)
  · exact evWrites_drained answer s

theorem evWrites_evIdle (s : State) : s.EvWrites s.evIdle := by
  rcases evIdle_cases s with ⟨-, h⟩ | ⟨-, m, -, h⟩ | ⟨-, -, h⟩ <;> rw [h]
  · exact (evWrites_emit s (by simp)).trans (.of_silent rfl)
  · exact .of_silent rfl
  · exact State.EvWrites.refl s

theorem evWrites_evSequencer (answer : List Byte) (s : State) : s.EvWrites (s.evSequencer answer) := by
  rcases evSequencer_cases answer s with ⟨-, h⟩ | ⟨-, h⟩ | ⟨-, h⟩ <;> rw [h]
  · exact evWrites_evIdle s
  · exact evWrites_rxIter answer s
  · exact evWrites_txComplete s

theorem evWrites_evEdge (answer : List Byte) (s : State) : s.EvWrites (s.evEdge answer) :=
  (evWrites_evSequencer answer s).trans (evWrites_evCrossings s _)

end Sys2Proof.Machine
end

section
/-! Where the rings are in order, no edge records a model fault (40_ringbuffer.md R106). -/

namespace Sys2Proof.Machine

/-! ## The views -/

/-- One doubling of the Gray decoder keeps the width of a pointer. -/
theorem xor_ushiftRight_lt {k : Nat} {p : Ptr} (n : Nat) (h : p.toNat < 2 ^ k) : (p ^^^ (p >>> n)).toNat < 2 ^ k := by
  rw [BitVec.toNat_xor, BitVec.toNat_ushiftRight]
  exact Nat.xor_lt_two_pow h (Nat.lt_of_le_of_lt (Nat.shiftRight_le _ _) h)

/-- A pointer and its Gray code have the same width (20_memory.md R63). -/
theorem gray2bin_lt {k : Nat} {p : Ptr} (h : p.toNat < 2 ^ k) : (gray2bin p).toNat < 2 ^ k :=
  xor_ushiftRight_lt 8 (xor_ushiftRight_lt 4 (xor_ushiftRight_lt 2 (xor_ushiftRight_lt 1 h)))

/-- The consumer's view is a part of the chain of copies, so it is at most the capacity (20_memory.md R66). -/
theorem consView_le_cap {f : Fifo} {s : State} (h : s.FifoInv f) : s.consView f ≤ s.cap f := by
  obtain ⟨-, -, hchain⟩ := h
  simp only [State.chainLength, State.gap] at hchain
  simp only [State.consView]
  omega

/-- A pop takes its bytes from the RX view (40_ringbuffer.md R104). -/
theorem consView_setRptr_rx {s : State} (hlegal : s.cfg.legal = true) (hfit : s.PointersFit .rx) {n : Nat}
    (hn : n ≤ s.consView .rx) :
    (s.setRptr .rx (ptrAdd (s.modulus .rx) (s.rptr .rx) n)).consView .rx = s.consView .rx - n := by
  obtain ⟨-, hrptr, -, -, -, hsync, -, -⟩ := hfit
  obtain ⟨-, -, -, -, hmod⟩ := modulus_spec hlegal .rx
  exact ptrSub_ptrAdd_right hmod (gray2bin_lt hsync) hrptr hn

/-! ## Foreground -/

/-- READB's second span starts at index 0 and lies within the view that is left, if it is not empty. -/
theorem canPop_secondSpan {s : State} (hlegal : s.cfg.legal = true) (hfifo : s.FifoInv .rx) {k : Nat}
    (hk : k ≤ s.consView .rx) :
    (s.setRptr .rx (ptrAdd (s.modulus .rx) (s.rptr .rx) (s.firstSpan k))).canPop .rx (k - s.firstSpan k) = true := by
  have hfirst : s.firstSpan k ≤ k := Nat.min_le_left _ _
  have hcap := consView_le_cap hfifo
  obtain ⟨hidx, -⟩ := idx_lt hlegal .rx (s.rptr .rx)
  rw [canPop_iff]
  constructor
  · rw [State.availableToRead, consView_setRptr_rx hlegal hfifo.1 (hfirst.trans hk)]
    omega
  · change _ ≤ s.cap .rx - s.idx .rx (ptrAdd (s.modulus .rx) (s.rptr .rx) (s.firstSpan k))
    rw [idx_ptrAdd hlegal]
    by_cases hone : k ≤ s.span .rx (s.idx .rx (s.rptr .rx))
    · rw [State.firstSpan, Nat.min_eq_left hone]; omega
    · have hwrap : s.idx .rx (s.rptr .rx) + s.firstSpan k = s.cap .rx := by
        simp only [State.firstSpan, State.span] at hone ⊢; omega
      rw [hwrap, Nat.mod_self]; omega

theorem State.Prepares.faultPre_eq {s u : State} (hring : s.RingInv) (h : s.Prepares u) : u.faultPre = false := by
  obtain ⟨hlegal, -, hfault, hrx, -, -, -, -⟩ := hring
  cases h with
  | query | setctrl | illegal => exact hfault
  | read hview =>
    have hpop : s.canPop .rx 1 = true :=
      (canPop_iff ..).mpr ⟨Nat.pos_of_ne_zero hview, (idx_lt hlegal .rx _).2⟩
    rw [popChunk_faultPre hpop, hfault]
  | readb k hk =>
    have hpop : s.canPop .rx (s.firstSpan k) = true :=
      (canPop_iff ..).mpr ⟨(Nat.min_le_left _ _).trans hk, Nat.min_le_right _ _⟩
    rcases popChunk_cases .rx (s.firstSpan k) s with ⟨-, h⟩ | ⟨hfail, -⟩
    · rw [h, popChunk_faultPre (canPop_secondSpan hlegal hrx hk), setRptr_rx_faultPre, hfault]
    · rw [hpop] at hfail; cases hfail

theorem exec_faultPre {i : Instr} {s t : State} (hring : s.RingInv) (h : exec i s = .next t) : t.faultPre = false := by
  have ⟨_, _, hfault, _⟩ := hring
  rcases exec_cases h with ⟨u, w, bytes, hu, rfl⟩ | ⟨n, source, rfl⟩ | rfl
  · rw [finishTaken_faultPre, hu.faultPre_eq hring]
  · exact hfault
  · exact hfault

/-- `fg_src` has the `fg_rem` bytes that a push edge may take (10_state.md R37). -/
theorem pushed_faultPre {s : State} (hring : s.RingInv) : s.pushed.faultPre = false := by
  obtain ⟨-, -, hfault, -, -, -, hsrc, -⟩ := hring
  obtain ⟨hrem, hfree, hspan⟩ := pushLength_le s
  have hpush : s.canPush .tx s.fg.src s.pushLength = true :=
    (canPush_iff ..).mpr ⟨hfree, hspan, by rw [hsrc]; exact hrem⟩
  simp only [State.pushed, pushChunk_faultPre hpush, hfault]

theorem fgContinue_faultPre {s : State} (hring : s.RingInv) : s.fgContinue.faultPre = false := by
  have ⟨_, _, hfault, _⟩ := hring
  rcases fgContinue_cases s with h | h | h | h | ⟨w, h⟩ <;> rw [h]
  · exact hfault
  · exact hfault
  · exact hfault
  · exact pushed_faultPre hring
  · rw [finishHeld_faultPre, pushed_faultPre hring]

/-- The invariant of the rings does not speak of the port. -/
theorem ringInv_hostPresent {present : Option HostCmd} {s : State} (hring : s.RingInv) :
    (s.hostPresent present).RingInv := by
  obtain ⟨port, h⟩ := hostPresent_eq_update present s
  rw [h]; exact hring

theorem fgEdge_faultPre {present : Option HostCmd} {copy : LineState} {s t : State} (hring : s.RingInv)
    (h : s.fgEdge present copy = .next t) : t.faultPre = false := by
  obtain ⟨u, hseq, rfl⟩ := fgEdge_cases h
  have hpre : (s.hostPresent present).RingInv := ringInv_hostPresent hring
  rw [fgCrossings_faultPre]
  rcases fgSequencer_cases hseq with ⟨-, i, -, hexec⟩ | ⟨-, rfl⟩
  · exact exec_faultPre (s := (s.hostPresent present).portTaken) hpre hexec
  · exact fgContinue_faultPre hpre

/-! ## Event domain -/

theorem endRxPhase_faultPre (total : Count) (s : State) : (s.endRxPhase total).faultPre = s.faultPre := by
  rcases endRxPhase_cases total s with ⟨-, -, -, h⟩ | ⟨-, h⟩
  · rw [h]; rfl
  · rw [h]

/-- A drain iteration queues no more than its request asked for, which the ring takes (42_receive.md R155). -/
theorem drained_faultPre (answer : List Byte) (s : State) : (s.drained answer).faultPre = s.faultPre := by
  obtain ⟨hfree, hspan, -⟩ := rxCap_le s
  have hlen : (answer.take s.rxCap).length ≤ s.rxCap := List.length_take_le _ _
  have hpush : (s.emit (.rxReq (BitVec.ofNat 16 s.rxCap))).canPush .rx (answer.take s.rxCap)
      (answer.take s.rxCap).length = true :=
    (canPush_iff ..).mpr ⟨hlen.trans hfree, hlen.trans hspan, Nat.le_refl _⟩
  simp only [State.drained, pushChunk_faultPre hpush, emit_faultPre]

theorem rxIter_faultPre (answer : List Byte) (s : State) : (s.rxIter answer).faultPre = s.faultPre := by
  rcases rxIter_forms answer s with ⟨total, h⟩ | ⟨total, h⟩ | h <;> rw [h]
  · exact endRxPhase_faultPre total s
  · rw [endRxPhase_faultPre, drained_faultPre]
  · exact drained_faultPre answer s

/-- The packet in flight is covered by the view and does not wrap (41_transmit.md R133). -/
theorem txComplete_faultPre {s : State} (hflight : s.FlightInv) : s.txComplete.faultPre = s.faultPre := by
  obtain ⟨hview, hspan, -⟩ := hflight
  have hpop : (s.popChunk .tx s.ev.txSize.toNat).2.faultPre = s.faultPre :=
    popChunk_faultPre ((canPop_iff ..).mpr ⟨hview, hspan⟩)
  rcases txComplete_cases s with ⟨-, h⟩ | ⟨-, h⟩ <;> rw [h]
  split
  · exact hpop
  · exact hpop

theorem evIdle_faultPre (s : State) : s.evIdle.faultPre = s.faultPre := by
  rcases evIdle_cases s with ⟨-, h⟩ | ⟨-, m, -, h⟩ | ⟨-, -, h⟩ <;> rw [h]
  · rfl
  · rfl

theorem evEdge_faultPre {s : State} (answer : List Byte) (hflight : s.FlightInv) :
    (s.evEdge answer).faultPre = s.faultPre := by
  rw [State.evEdge, evCrossings_faultPre]
  rcases evSequencer_cases answer s with ⟨-, h⟩ | ⟨-, h⟩ | ⟨-, h⟩ <;> rw [h]
  · exact evIdle_faultPre s
  · exact rxIter_faultPre answer s
  · exact txComplete_faultPre hflight

/-! ## The two domains (10_state.md R20) -/

/-- Settles O30: the frame and the answers by the cases of the FG sequencer; no fault because each pop and push stays
within the view, the span and the source list. -/
theorem fgEdgeWritesOnlyItsDomain : Obligations.FgEdgeWritesOnlyItsDomain := by
  unfold Obligations.FgEdgeWritesOnlyItsDomain
  intro s t present copy h
  exact ⟨fgEdge_fgWrites h, fun hring => fgEdge_faultPre hring h, fgEdge_answersAtMostOnce h⟩

/-- Settles O31: the frame and the events by the cases of the EV sequencer; no fault because the drain and the
completion stay within the view and the span. -/
theorem evEdgeWritesOnlyItsDomain : Obligations.EvEdgeWritesOnlyItsDomain := by
  unfold Obligations.EvEdgeWritesOnlyItsDomain
  intro s answer
  obtain ⟨hframe, houtput⟩ := evWrites_evEdge answer s
  refine ⟨hframe, fun hring => ?_, houtput⟩
  obtain ⟨-, -, hfault, -, -, hflight, -, -⟩ := hring
  exact (evEdge_faultPre answer hflight).trans hfault

end Sys2Proof.Machine
end

section
/-! Every step keeps the storage canonical (20_memory.md R60) and the reserved control bits (10_state.md R33, R34). -/

namespace Sys2Proof.Machine

/-! ## The storage arrays -/

/-- The canonical form speaks of the parameters and the two arrays alone. -/
theorem memInv_of_eq {s t : State} (hcfg : t.cfg = s.cfg) (hrx : t.memRx = s.memRx) (htx : t.memTx = s.memTx)
    (h : s.MemInv) : t.MemInv := by
  simpa only [State.MemInv, State.cap, hcfg, hrx, htx] using h

theorem memInv_fg (fg : FgDomain) {s : State} (h : s.MemInv) : ({ s with fg := fg } : State).MemInv := h

theorem memInv_ev (ev : EvDomain) {s : State} (h : s.MemInv) : ({ s with ev := ev } : State).MemInv := h

/-- A push writes its array by `memWrite`, the pop and the failed primitive write none (40_ringbuffer.md R103, R106). -/
theorem pushChunk_memInv (f : Fifo) (src : List Byte) (n : Nat) {s : State} (h : s.MemInv) :
    (s.pushChunk f src n).MemInv := by
  obtain ⟨hlegal, hrx, htx⟩ := h
  have hcap (g : Fifo) : 0 < s.cap g := Nat.lt_of_lt_of_le (by decide) (modulus_spec hlegal g).1
  rcases pushChunk_cases f src n s with ⟨-, h⟩ | ⟨-, h⟩ <;> rw [h]
  · cases f with
    | rx => exact ⟨hlegal, cellsWf_memWrite _ _ (hcap .rx) hrx, htx⟩
    | tx => exact ⟨hlegal, hrx, cellsWf_memWrite _ _ (hcap .tx) htx⟩
  · exact ⟨hlegal, hrx, htx⟩

theorem popChunk_memInv (f : Fifo) (n : Nat) {s : State} (h : s.MemInv) : (s.popChunk f n).2.MemInv := by
  rcases popChunk_cases f n s with ⟨-, e⟩ | ⟨-, e⟩ <;> rw [e]
  · cases f <;> exact h
  · exact h

theorem finishTaken_memInv (w : Word) (bytes : List Byte) {s : State} (h : s.MemInv) :
    (s.finishTaken w bytes).MemInv :=
  memInv_of_eq (finishTaken_cfg ..) (finishTaken_memRx ..) (finishTaken_memTx ..) h

theorem finishHeld_memInv (w : Word) (bytes : List Byte) {s : State} (h : s.MemInv) :
    (s.finishHeld w bytes).MemInv :=
  memInv_of_eq (finishHeld_cfg ..) (finishHeld_memRx ..) (finishHeld_memTx ..) h

theorem State.Prepares.memInv {s u : State} (hp : s.Prepares u) (h : s.MemInv) : u.MemInv := by
  cases hp with
  | query | setctrl | illegal => exact h
  | read => exact popChunk_memInv .rx 1 h
  | readb => exact popChunk_memInv .rx _ (popChunk_memInv .rx _ h)

theorem exec_memInv {i : Instr} {s t : State} (h : s.MemInv) (hexec : exec i s = .next t) : t.MemInv := by
  rcases exec_cases hexec with ⟨u, w, bytes, hu, rfl⟩ | ⟨n, source, rfl⟩ | rfl
  · exact finishTaken_memInv w bytes (hu.memInv h)
  · exact h
  · exact h

theorem pushed_memInv {s : State} (h : s.MemInv) : s.pushed.MemInv :=
  memInv_fg _ (pushChunk_memInv .tx s.fg.src s.pushLength h)

theorem fgContinue_memInv {s : State} (h : s.MemInv) : s.fgContinue.MemInv := by
  rcases fgContinue_cases s with e | e | e | e | ⟨w, e⟩ <;> rw [e]
  · exact h
  · exact h
  · exact h
  · exact pushed_memInv h
  · exact finishHeld_memInv w [] (pushed_memInv h)

theorem fgEdge_memInv {present : Option HostCmd} {copy : LineState} {s t : State} (h : s.MemInv)
    (hedge : s.fgEdge present copy = .next t) : t.MemInv := by
  obtain ⟨u, hseq, rfl⟩ := fgEdge_cases hedge
  have hpre : (s.hostPresent present).MemInv :=
    memInv_of_eq (hostPresent_cfg ..) (hostPresent_memRx ..) (hostPresent_memTx ..) h
  have hpost : u.MemInv := by
    rcases fgSequencer_cases hseq with ⟨-, i, -, hexec⟩ | ⟨-, rfl⟩
    · exact exec_memInv (s := (s.hostPresent present).portTaken) hpre hexec
    · exact fgContinue_memInv hpre
  exact hpost

theorem endRxPhase_memInv (total : Count) {s : State} (h : s.MemInv) : (s.endRxPhase total).MemInv := by
  rcases endRxPhase_cases total s with ⟨-, -, -, e⟩ | ⟨-, e⟩ <;> rw [e]
  · exact h
  · exact h

theorem drained_memInv (answer : List Byte) {s : State} (h : s.MemInv) : (s.drained answer).MemInv :=
  have hemit : (s.emit (.rxReq (BitVec.ofNat 16 s.rxCap))).MemInv := h
  memInv_ev _ (pushChunk_memInv .rx _ _ hemit)

theorem rxIter_memInv (answer : List Byte) {s : State} (h : s.MemInv) : (s.rxIter answer).MemInv := by
  rcases rxIter_forms answer s with ⟨total, e⟩ | ⟨total, e⟩ | e <;> rw [e]
  · exact endRxPhase_memInv total h
  · exact endRxPhase_memInv total (drained_memInv answer h)
  · exact drained_memInv answer h

theorem txComplete_memInv {s : State} (h : s.MemInv) : s.txComplete.MemInv := by
  have hpop : (s.popChunk .tx s.ev.txSize.toNat).2.MemInv := popChunk_memInv .tx _ h
  rcases txComplete_cases s with ⟨-, e⟩ | ⟨-, e⟩ <;> rw [e]
  · exact h
  · split
    · exact hpop
    · exact hpop

theorem evIdle_memInv {s : State} (h : s.MemInv) : s.evIdle.MemInv := by
  rcases evIdle_cases s with ⟨-, e⟩ | ⟨-, m, -, e⟩ | ⟨-, -, e⟩ <;> rw [e]
  · exact h
  · exact h
  · exact h

theorem evEdge_memInv (answer : List Byte) {s : State} (h : s.MemInv) : (s.evEdge answer).MemInv := by
  have hpost : (s.evSequencer answer).MemInv := by
    rcases evSequencer_cases answer s with ⟨-, e⟩ | ⟨-, e⟩ | ⟨-, e⟩ <;> rw [e]
    · exact evIdle_memInv h
    · exact rxIter_memInv answer h
    · exact txComplete_memInv h
  exact hpost

theorem devStep_memInv (signals : DevSignals) (event : Option (BitVec 2)) {s : State} (h : s.MemInv) :
    (s.devStep signals event).MemInv :=
  memInv_of_eq (devStep_cfg ..) (devStep_memRx ..) (devStep_memTx ..) h

/-- Settles O52, by the cases of the step: only a push writes an array, and `memWrite` keeps the canonical form. -/
theorem stepKeepsTheMemoryCanonical : Obligations.StepKeepsTheMemoryCanonical := by
  unfold Obligations.StepKeepsTheMemoryCanonical
  intro s t h hstep
  have hmove : s.moveTaken.MemInv := h
  obtain ⟨-, -, ⟨present, copy, -, hedge⟩ | ⟨answer, -, rfl⟩ | ⟨signals, event, -, rfl⟩⟩ := step_cases hstep
  · exact fgEdge_memInv hmove hedge
  · exact evEdge_memInv answer hmove
  · exact devStep_memInv signals event hmove

/-! ## CTRL and STATUS -/

/-- CTRL stays or takes the value of a SETCTRL, and STATUS stays or has its ILL bit set (44_line_state_ctrl.md R206,
R207). -/
structure State.ControlMoves (s t : State) : Prop where
  ctrl : t.fg.ctrl = s.fg.ctrl ∨ ∃ data, t.fg.ctrl = ctrlValue data
  status : t.fg.status = s.fg.status ∨ t.fg.status = setIll s.fg.status

theorem State.ControlMoves.of_eq {s t : State} (hctrl : t.fg.ctrl = s.fg.ctrl) (hstatus : t.fg.status = s.fg.status) :
    s.ControlMoves t := ⟨.inl hctrl, .inl hstatus⟩

theorem popChunk_rx_ctrl (n : Nat) (s : State) : (s.popChunk .rx n).2.fg.ctrl = s.fg.ctrl := by
  obtain ⟨p, b, h⟩ := popChunk_rx_eq_update n s
  rw [h]

theorem popChunk_rx_status (n : Nat) (s : State) : (s.popChunk .rx n).2.fg.status = s.fg.status := by
  obtain ⟨p, b, h⟩ := popChunk_rx_eq_update n s
  rw [h]

theorem State.Prepares.controlMoves {s u : State} (h : s.Prepares u) : s.ControlMoves u := by
  cases h with
  | query => exact .of_eq rfl rfl
  | setctrl data => exact ⟨.inr ⟨data, rfl⟩, .inl rfl⟩
  | illegal => exact ⟨.inl rfl, .inr rfl⟩
  | read => exact .of_eq (popChunk_rx_ctrl 1 s) (popChunk_rx_status 1 s)
  | readb =>
    exact .of_eq (by rw [popChunk_rx_ctrl, popChunk_rx_ctrl]) (by rw [popChunk_rx_status, popChunk_rx_status])

theorem exec_controlMoves {i : Instr} {s t : State} (h : exec i s = .next t) : s.ControlMoves t := by
  rcases exec_cases h with ⟨u, w, bytes, hu, rfl⟩ | ⟨n, source, rfl⟩ | rfl
  · obtain ⟨hctrl, hstatus⟩ := hu.controlMoves
    exact ⟨by rwa [finishTaken_fg_ctrl], by rwa [finishTaken_fg_status]⟩
  · exact .of_eq rfl rfl
  · exact .of_eq rfl rfl

theorem pushed_controlMoves (s : State) : s.ControlMoves s.pushed := by
  obtain ⟨cells, p, b, h⟩ := pushChunk_tx_eq_update s.fg.src s.pushLength s
  exact .of_eq (by simp only [State.pushed, h]) (by simp only [State.pushed, h])

theorem fgContinue_controlMoves (s : State) : s.ControlMoves s.fgContinue := by
  rcases fgContinue_cases s with h | h | h | h | ⟨w, h⟩ <;> rw [h]
  · exact .of_eq rfl rfl
  · exact .of_eq rfl rfl
  · exact .of_eq rfl rfl
  · exact pushed_controlMoves s
  · obtain ⟨hctrl, hstatus⟩ := pushed_controlMoves s
    exact ⟨hctrl, hstatus⟩

theorem fgEdge_controlMoves {present : Option HostCmd} {copy : LineState} {s t : State}
    (h : s.fgEdge present copy = .next t) : s.ControlMoves t := by
  obtain ⟨u, hseq, rfl⟩ := fgEdge_cases h
  have hpost : (s.hostPresent present).ControlMoves u := by
    rcases fgSequencer_cases hseq with ⟨-, i, -, hexec⟩ | ⟨-, rfl⟩
    · obtain ⟨hctrl, hstatus⟩ := exec_controlMoves hexec
      exact ⟨hctrl, hstatus⟩
    · exact fgContinue_controlMoves _
  obtain ⟨hctrl, hstatus⟩ := hpost
  rw [hostPresent_fg] at hctrl hstatus
  exact ⟨hctrl, hstatus⟩

/-- FG registers are written at FG edges alone (10_state.md R20). -/
theorem evEdge_fg (answer : List Byte) (s : State) : (s.evEdge answer).fg = s.fg := by
  rw [(evWrites_evEdge answer s).frame]

theorem step_controlMoves {s t : State} (h : step s = .next t) : s.ControlMoves t := by
  obtain ⟨-, -, ⟨present, copy, -, hedge⟩ | ⟨answer, -, rfl⟩ | ⟨signals, event, -, rfl⟩⟩ := step_cases h
  · obtain ⟨hctrl, hstatus⟩ := fgEdge_controlMoves hedge
    exact ⟨hctrl, hstatus⟩
  · exact .of_eq (by rw [evEdge_fg, moveTaken_fg]) (by rw [evEdge_fg, moveTaken_fg])
  · exact .of_eq (by rw [devStep_fg, moveTaken_fg]) (by rw [devStep_fg, moveTaken_fg])

/-- SETCTRL writes three bits (44_line_state_ctrl.md R206). -/
theorem ctrlValue_reserved (data : Byte) : ctrlValue data &&& 0xF8 = 0 := by
  have hlow : ∀ v : BitVec 3, v.zeroExtend 8 &&& (0xF8 : Byte) = 0 := by decide
  exact hlow _

theorem setIll_reserved {status : Byte} (h : status &&& 0xFE = 0) : setIll status &&& 0xFE = 0 := by
  rw [setIll, BitVec.and_or_distrib_right, h]; rfl

/-- Setting ILL sets it (44_line_state_ctrl.md R207). -/
theorem setIll_ill (status : Byte) : (setIll status).getLsbD 0 = true := by
  simp [setIll]

/-- Settles O53: no step writes CTRL or STATUS but as SETCTRL and an illegal word do. -/
theorem stepKeepsReservedBitsAndIll : Obligations.StepKeepsReservedBitsAndIll := by
  unfold Obligations.StepKeepsReservedBitsAndIll
  intro s t hstep
  obtain ⟨hctrl, hstatus⟩ := step_controlMoves hstep
  refine ⟨fun ⟨hctrlZero, hstatusZero⟩ => ⟨?_, ?_⟩, fun hill => ?_⟩
  · rcases hctrl with h | ⟨data, h⟩ <;> rw [h]
    · exact hctrlZero
    · exact ctrlValue_reserved data
  · rcases hstatus with h | h <;> rw [h]
    · exact hstatusZero
    · exact setIll_reserved hstatusZero
  · rcases hstatus with h | h <;> rw [h]
    · exact hill
    · exact setIll_ill _

end Sys2Proof.Machine
end

section
/-! The state after reset meets every invariant (10_state.md R42, 70_reset_and_hazards.md R271, R272). -/

namespace Sys2Proof.Machine

/-! ## The pointers and views after reset -/

theorem gray2bin_zero : gray2bin 0 = 0 := by decide

theorem bin2gray_zero : bin2gray 0 = 0 := by decide

@[simp] theorem resetWith_fg (p : Params) (dev : DevSignals) : (State.resetWith p dev).fg = FgDomain.reset := rfl

@[simp] theorem resetWith_ev (p : Params) (dev : DevSignals) : (State.resetWith p dev).ev = EvDomain.reset := rfl

@[simp] theorem resetWith_wptr (p : Params) (dev : DevSignals) (f : Fifo) : (State.resetWith p dev).wptr f = 0 := by
  cases f <;> rfl

@[simp] theorem resetWith_rptr (p : Params) (dev : DevSignals) (f : Fifo) : (State.resetWith p dev).rptr f = 0 := by
  cases f <;> rfl

@[simp] theorem resetWith_wpub (p : Params) (dev : DevSignals) (f : Fifo) :
    (State.resetWith p dev).wpub f = ⟨0, 0⟩ := by cases f <;> rfl

@[simp] theorem resetWith_rpub (p : Params) (dev : DevSignals) (f : Fifo) :
    (State.resetWith p dev).rpub f = ⟨0, 0⟩ := by cases f <;> rfl

@[simp] theorem resetWith_wsync (p : Params) (dev : DevSignals) (f : Fifo) :
    (State.resetWith p dev).wsync f = ⟨0, 0⟩ := by cases f <;> rfl

@[simp] theorem resetWith_rsync (p : Params) (dev : DevSignals) (f : Fifo) :
    (State.resetWith p dev).rsync f = ⟨0, 0⟩ := by cases f <;> rfl

section
variable {p : Params} (hlegal : p.legal = true) (dev : DevSignals)
include hlegal

theorem resetWith_modulus_pos (f : Fifo) : 0 < (State.resetWith p dev).modulus f := by
  obtain ⟨-, -, -, hmod, -⟩ := modulus_spec (s := State.resetWith p dev) hlegal f
  exact hmod

/-- The distance between any two of the pointer copies. -/
theorem resetWith_gap (f : Fifo) : ptrSub ((State.resetWith p dev).modulus f) 0 0 = 0 :=
  ptrSub_self (resetWith_modulus_pos hlegal dev f)

/-- The views and the occupancy are exact (70_reset_and_hazards.md R272). -/
theorem resetWith_views (f : Fifo) :
    (State.resetWith p dev).prodView f = 0 ∧ (State.resetWith p dev).consView f = 0 ∧
      (State.resetWith p dev).count f = 0 := by
  have hgap := resetWith_gap hlegal dev f
  simp only [State.prodView, State.consView, State.count, resetWith_wptr, resetWith_rptr, resetWith_wsync,
    resetWith_rsync, gray2bin_zero, hgap, and_self]

theorem resetWith_fifoInv (f : Fifo) : (State.resetWith p dev).FifoInv f := by
  have hmod := resetWith_modulus_pos hlegal dev f
  have hfit : (State.resetWith p dev).PointersFit f := by simpa [State.PointersFit, State.Fits] using hmod
  have hgray : (State.resetWith p dev).GrayImages f := by
    simp only [State.GrayImages, resetWith_wpub, resetWith_rpub, bin2gray_zero, and_self]
  have hchain : (State.resetWith p dev).chainLength f = 0 := by
    simp only [State.chainLength, State.gap, resetWith_wptr, resetWith_rptr, resetWith_wpub, resetWith_rpub,
      resetWith_wsync, resetWith_rsync, gray2bin_zero, resetWith_gap hlegal dev f]
  exact ⟨hfit, hgray, by rw [hchain]; exact Nat.zero_le _⟩

theorem resetWith_ringInv : (State.resetWith p dev).RingInv := by
  have hrefused : (State.resetWith p dev).refused = false := by rw [resetWith_refused, hlegal]; rfl
  have hflight : (State.resetWith p dev).FlightInv := ⟨Nat.zero_le _, Nat.zero_le _, Nat.zero_le _⟩
  exact ⟨hlegal, hrefused, rfl, resetWith_fifoInv hlegal dev .rx, resetWith_fifoInv hlegal dev .tx, hflight, rfl,
    Nat.zero_le _⟩

/-- No write is in progress, every toggle is 0, and no byte was accepted or completed. -/
theorem resetWith_totalsInv : (State.resetWith p dev).TotalsInv := by
  obtain ⟨-, -, hcount⟩ := resetWith_views hlegal dev .tx
  have hsequencer : (State.resetWith p dev).SequencerInv := by
    simp [State.SequencerInv, State.writing, FgDomain.reset]
  have hhandshake : (State.resetWith p dev).HandshakeInv := by
    simp [State.HandshakeInv, State.toggleChanges, toggleDiff, FgDomain.reset, EvDomain.reset]
  have hledger : (State.resetWith p dev).LedgerInv := by
    simp [State.LedgerInv, hcount, FgDomain.reset, EvDomain.reset]
  exact ⟨resetWith_ringInv hlegal dev, hsequencer, hhandshake, hledger⟩

theorem resetWith_memInv : (State.resetWith p dev).MemInv :=
  ⟨hlegal, (resetWith_cellsWf p dev _).1, (resetWith_cellsWf p dev _).2⟩

/-- No packet is in flight, and no completion is owed, presented or in progress. -/
theorem resetWith_dutyInv : (State.resetWith p dev).DutyInv :=
  ⟨hlegal, rfl, fun h => by cases h⟩

theorem resetWith_doneInv : (State.resetWith p dev).DoneInv :=
  ⟨resetWith_ringInv hlegal dev, rfl, fun _ => rfl, fun _ => rfl⟩

/-- Nothing is published to the EV domain, so no launch is enabled (41_transmit.md R130). -/
theorem resetWith_launchEn : (State.resetWith p dev).launchEn = false := by
  obtain ⟨-, hview, -⟩ := resetWith_views hlegal dev .tx
  simp [State.launchEn, hview]

end

/-- CTRL is 0x01 and STATUS is 0 (10_state.md R42). -/
theorem resetWith_reservedZero (p : Params) (dev : DevSignals) : (State.resetWith p dev).ReservedZero :=
  have hbits : FgDomain.reset.ctrl &&& 0xF8 = 0 ∧ FgDomain.reset.status &&& 0xFE = 0 := by decide
  hbits

/-- Settles O43: every pointer, total and toggle is 0, and each invariant holds of that. -/
theorem resetMeetsTheInvariants : Obligations.ResetMeetsTheInvariants := by
  unfold Obligations.ResetMeetsTheInvariants
  intro p dev hlegal
  have htotal : (State.resetWith p dev).txTotal = 0 := BitVec.sub_self _
  exact ⟨resetWith_ringInv hlegal dev, resetWith_totalsInv hlegal dev, resetWith_memInv hlegal dev,
    resetWith_dutyInv hlegal dev, resetWith_doneInv hlegal dev, resetWith_reservedZero p dev,
    resetWith_views hlegal dev, htotal, resetWith_launchEn hlegal dev⟩

end Sys2Proof.Machine
end

section
/-! The Gray code of a pointer (20_memory.md R63), as a product of folds `p ^ (p >> n)`. -/

namespace Sys2Proof.Machine

/-! ## Folds -/

/-- One fold: a pointer against itself shifted right by n. `bin2gray` is the fold by 1, `gray2bin` the four doublings. -/
def grayFold (n : Nat) (p : Ptr) : Ptr := p ^^^ (p >>> n)

theorem bin2gray_eq_grayFold (b : Ptr) : bin2gray b = grayFold 1 b := rfl

theorem gray2bin_eq_grayFold (g : Ptr) : gray2bin g = grayFold 8 (grayFold 4 (grayFold 2 (grayFold 1 g))) := rfl

theorem grayFold_xor (n : Nat) (p q : Ptr) : grayFold n (p ^^^ q) = grayFold n p ^^^ grayFold n q := by
  simp only [grayFold, BitVec.ushiftRight_xor_distrib]
  ac_rfl

theorem grayFold_ushiftRight (m n : Nat) (p : Ptr) : grayFold m (p >>> n) = grayFold m p >>> n := by
  simp only [grayFold, BitVec.ushiftRight_xor_distrib, ← BitVec.shiftRight_add, Nat.add_comm]

theorem grayFold_comm (m n : Nat) (p : Ptr) : grayFold m (grayFold n p) = grayFold n (grayFold m p) := by
  conv_lhs => rw [grayFold.eq_def n, grayFold_xor, grayFold_ushiftRight]
  rfl

/-- A fold twice is the fold by twice the distance: the middle terms cancel. -/
theorem grayFold_grayFold (n : Nat) (p : Ptr) : grayFold n (grayFold n p) = grayFold (n + n) p := by
  conv_lhs => rw [grayFold.eq_def n p, grayFold_xor, grayFold_ushiftRight]
  simp only [grayFold, BitVec.ushiftRight_xor_distrib, ← BitVec.shiftRight_add]
  rw [BitVec.xor_assoc, ← BitVec.xor_assoc (p >>> n), BitVec.xor_self, BitVec.zero_xor]

/-- All bits are shifted out. -/
theorem grayFold_width (p : Ptr) : grayFold 16 p = p := by
  simp [grayFold, BitVec.ushiftRight_eq_zero]

/-! ## Inverses -/

theorem gray2bin_bin2gray (b : Ptr) : gray2bin (bin2gray b) = b := by
  rw [gray2bin_eq_grayFold, bin2gray_eq_grayFold, grayFold_grayFold 1, grayFold_grayFold 2, grayFold_grayFold 4, grayFold_grayFold 8, grayFold_width]

theorem bin2gray_gray2bin (g : Ptr) : bin2gray (gray2bin g) = g := by
  rw [bin2gray_eq_grayFold, gray2bin_eq_grayFold, grayFold_comm 1 8, grayFold_comm 1 4, grayFold_comm 1 2]
  exact gray2bin_bin2gray g

theorem bin2gray_lt {k : Nat} {p : Ptr} (h : p.toNat < 2 ^ k) : (bin2gray p).toNat < 2 ^ k :=
  xor_ushiftRight_lt 1 h

theorem bin2gray_getLsbD (b : Ptr) (i : Nat) : (bin2gray b).getLsbD i = (b.getLsbD i ^^ b.getLsbD (i + 1)) := by
  simp [bin2gray, Nat.add_comm 1 i]

/-- Each bit of the decoded value is the next higher one against the code's bit (20_memory.md R63). -/
theorem gray2bin_getLsbD (g : Ptr) (i : Nat) :
    (gray2bin g).getLsbD i = ((gray2bin g).getLsbD (i + 1) ^^ g.getLsbD i) := by
  have h := bin2gray_getLsbD (gray2bin g) i
  rw [bin2gray_gray2bin] at h
  rw [h]
  cases (gray2bin g).getLsbD i <;> cases (gray2bin g).getLsbD (i + 1) <;> rfl

theorem gray2bin_getLsbD_top {pw : Nat} {g : Ptr} (hpw : 1 ≤ pw) (h : g.toNat < 2 ^ pw) :
    (gray2bin g).getLsbD (pw - 1) = g.getLsbD (pw - 1) := by
  have htop : (gray2bin g).getLsbD pw = false := Nat.testBit_lt_two_pow (gray2bin_lt h)
  rw [gray2bin_getLsbD, Nat.sub_add_cancel hpw, htop, Bool.false_xor]

/-! ## Neighbours -/

/-- Counting up by one flips the low bits up to the first 0. -/
theorem exists_xor_succ (n : Nat) : ∃ k, n ^^^ (n + 1) = 2 ^ (k + 1) - 1 := by
  induction n using Nat.binaryRec' with
  | zero => exact ⟨0, rfl⟩
  | bit b n _ ih =>
    cases b with
    | false =>
      refine ⟨0, ?_⟩
      have hsucc : Nat.bit false n + 1 = Nat.bit true n := rfl
      rw [hsucc, Nat.xor_bit, Nat.xor_self]; rfl
    | true =>
      obtain ⟨k, hk⟩ := ih
      refine ⟨k + 1, ?_⟩
      have hsucc : Nat.bit true n + 1 = Nat.bit false (n + 1) := by simp [Nat.bit_val]; omega
      rw [hsucc, Nat.xor_bit, hk]
      have : 1 ≤ 2 ^ k := Nat.one_le_two_pow
      simp [Nat.bit_val, Nat.pow_succ]; omega

/-- The Gray code of k + 1 low ones is the one bit k. -/
theorem bin2gray_ones {k : Nat} (h : k < 16) : bin2gray (BitVec.ofNat 16 (2 ^ (k + 1) - 1)) = BitVec.ofNat 16 (2 ^ k) := by
  have hall : ∀ k : Fin 16, bin2gray (BitVec.ofNat 16 (2 ^ (k.val + 1) - 1)) = BitVec.ofNat 16 (2 ^ k.val) := by decide
  exact hall ⟨k, h⟩

/-- The bits in which a pointer and its successor differ are low ones, the wrap included (20_memory.md R61). -/
theorem exists_xor_ptrAdd_one {pw : Nat} {b : Ptr} (h1 : 1 ≤ pw) (h16 : pw ≤ 16) (hb : b.toNat < 2 ^ pw) :
    ∃ k, k < pw ∧ b ^^^ ptrAdd (2 ^ pw) b 1 = BitVec.ofNat 16 (2 ^ (k + 1) - 1) := by
  have hM : 2 ^ pw ≤ 65536 := Nat.pow_le_pow_right (n := 2) (by omega) h16
  have hnext := ptrAdd_toNat (Nat.two_pow_pos pw) hM b 1
  by_cases hwrap : b.toNat + 1 = 2 ^ pw
  · refine ⟨pw - 1, by omega, BitVec.eq_of_toNat_eq ?_⟩
    rw [hwrap, Nat.mod_self] at hnext
    rw [BitVec.toNat_xor, hnext, Nat.xor_zero, BitVec.toNat_ofNat, Nat.sub_add_cancel h1,
      Nat.mod_eq_of_lt (by omega)]
    omega
  · rw [Nat.mod_eq_of_lt (by omega)] at hnext
    obtain ⟨k, hk⟩ := exists_xor_succ b.toNat
    have hlt : 2 ^ (k + 1) - 1 < 2 ^ pw := by
      rw [← hk]; exact Nat.xor_lt_two_pow hb (by omega)
    have hkpw : k < pw := by
      have : 2 ^ k < 2 ^ pw := by
        have := Nat.one_le_two_pow (n := k)
        rw [Nat.pow_succ] at hlt; omega
      exact (Nat.pow_lt_pow_iff_right (by decide)).mp this
    refine ⟨k, hkpw, BitVec.eq_of_toNat_eq ?_⟩
    rw [BitVec.toNat_xor, hnext, hk, BitVec.toNat_ofNat, Nat.mod_eq_of_lt (by omega)]

theorem bin2gray_neighbours {pw : Nat} {b : Ptr} (h1 : 1 ≤ pw) (h16 : pw ≤ 16) (hb : b.toNat < 2 ^ pw) :
    ∃ k, k < pw ∧ bin2gray b ^^^ bin2gray (ptrAdd (2 ^ pw) b 1) = BitVec.ofNat 16 (2 ^ k) := by
  obtain ⟨k, hk, hxor⟩ := exists_xor_ptrAdd_one h1 h16 hb
  refine ⟨k, hk, ?_⟩
  rw [bin2gray_eq_grayFold, bin2gray_eq_grayFold, ← grayFold_xor, hxor, ← bin2gray_eq_grayFold, bin2gray_ones (by omega)]

/-- Settles O5: the codes are folds, which cancel in pairs; neighbours differ in low ones, whose code is one bit. -/
theorem grayCodeOnPointerBits : Obligations.GrayCodeOnPointerBits := by
  unfold Obligations.GrayCodeOnPointerBits
  intro pw b h1 h16 hb
  exact ⟨bin2gray_lt hb, gray2bin_lt hb, rfl, gray2bin_getLsbD_top h1 hb, fun i _ => gray2bin_getLsbD b i,
    gray2bin_bin2gray b, bin2gray_gray2bin b, bin2gray_neighbours h1 h16 hb⟩

end Sys2Proof.Machine
end

section
/-! The ring of a FIFO at an edge of either of its domains: what the consumer pops and what the producer pushes keep the
copies of the pointers in order and move the queued bytes (20_memory.md R61 to R75, 45_cdc.md R220 to R223). -/

namespace Sys2Proof.Machine

/-! ## Distances between the copies of a pointer -/

/-- The front pointer is the rear one advanced by their distance. -/
theorem ptrAdd_ptrSub {m : Nat} (hM : m ≤ 65536) {a b : Ptr} (ha : a.toNat < m) (hb : b.toNat < m) :
    ptrAdd m b (ptrSub m a b) = a := by
  have hm : 0 < m := by omega
  apply BitVec.eq_of_toNat_eq
  rw [ptrAdd_toNat hm hM, ptrSub_eq ha hb]
  split
  · rw [Nat.add_sub_cancel' ‹_›, Nat.mod_eq_of_lt ha]
  · rw [show b.toNat + (a.toNat + m - b.toNat) = a.toNat + m by omega, Nat.add_mod_right, Nat.mod_eq_of_lt ha]

/-- A pointer advanced by n, short of a full turn, is n ahead of where it was. -/
theorem ptrSub_ptrAdd_self {m : Nat} (hM : m ≤ 65536) {p : Ptr} {n : Nat} (hp : p.toNat < m) (hn : n < m) :
    ptrSub m (ptrAdd m p n) p = n := by
  have h := ptrSub_ptrAdd_left hM hp hp (n := n) (by rw [ptrSub_self hp]; omega)
  rwa [ptrSub_self hp, Nat.zero_add] at h

theorem publish_lt {m : Nat} (hm : 0 < m) (hM : m ≤ 65536) (p : Ptr) {pub : Publisher} (h : pub.b.toNat < m) :
    (publish m p pub).b.toNat < m := by
  rcases publish_cases m p pub with ⟨-, e⟩ | ⟨-, e⟩ <;> rw [e]
  · exact h
  · exact ptrAdd_lt hm hM _ _

/-- A publisher stays between its pointer and any copy behind it, however far the pointer moves on at the same edge
(45_cdc.md R220). -/
theorem ptrSub_publish {m : Nat} (hM : m ≤ 65536) {p x : Ptr} {pub : Publisher} {n : Nat} (hp : p.toNat < m)
    (hb : pub.b.toNat < m) (hx : x.toNat < m) (h : ptrSub m p pub.b + ptrSub m pub.b x + n < m) :
    ptrSub m (ptrAdd m p n) (publish m p pub).b + ptrSub m (publish m p pub).b x =
      ptrSub m p pub.b + ptrSub m pub.b x + n := by
  have hm : 0 < m := by omega
  have hpub := publish_lt hm hM p hb
  have hsum : ptrSub m p (publish m p pub).b + ptrSub m (publish m p pub).b x =
      ptrSub m p pub.b + ptrSub m pub.b x := by
    rcases publish_cases m p pub with ⟨-, e⟩ | ⟨hne, e⟩ <;> rw [e]
    have hpos : ptrSub m p pub.b ≠ 0 := fun h0 => hne ((ptrSub_eq_zero hp hb).mp h0).symm
    rw [ptrSub_ptrAdd_right hM hp hb (by omega), ptrSub_ptrAdd_left hM hb hx (by omega)]
    omega
  rw [ptrSub_ptrAdd_left hM hp hpub (by omega)]
  omega

/-! ## The views -/

theorem fits_wptr {f : Fifo} {s : State} (h : s.FifoInv f) : s.Fits f (s.wptr f) := h.1.1

theorem fits_rptr {f : Fifo} {s : State} (h : s.FifoInv f) : s.Fits f (s.rptr f) := h.1.2.1

theorem fits_gray2bin {f : Fifo} {p : Ptr} {s : State} (h : s.Fits f p) : s.Fits f (gray2bin p) := gray2bin_lt h

section
variable {f : Fifo} {s : State}

/-- In order, the distances of the chain add up: to the occupancy from the read pointer on, to the producer's view from
the oldest copy of it on (20_memory.md R62, R64, R66). -/
theorem count_and_prodView_of_chain (hlegal : s.cfg.legal = true) (hinv : s.FifoInv f) :
    s.count f = s.consView f + s.gap f (gray2bin (s.wsync f).s1) (gray2bin (s.wsync f).s2) +
        s.gap f (s.wpub f).b (gray2bin (s.wsync f).s1) + s.gap f (s.wptr f) (s.wpub f).b ∧
      s.prodView f = s.chainLength f := by
  obtain ⟨-, -, hmod, hpos, -⟩ := modulus_spec hlegal f
  obtain ⟨⟨hwptr, hrptr, hwpub, hrpub, hws1, hws2, hrs1, hrs2⟩, -, hchain⟩ := hinv
  have hws1 := fits_gray2bin hws1
  have hws2 := fits_gray2bin hws2
  have hrs1 := fits_gray2bin hrs1
  have hrs2 := fits_gray2bin hrs2
  simp only [State.chainLength, State.gap, State.count, State.prodView, State.consView] at hchain ⊢
  have h1 := ptrSub_add_ptrSub hwptr hwpub hws1 (by omega)
  have h2 := ptrSub_add_ptrSub hwptr hws1 hws2 (by omega)
  have h3 := ptrSub_add_ptrSub hwptr hws2 hrptr (by omega)
  have h4 := ptrSub_add_ptrSub hwptr hrptr hrpub (by omega)
  have h5 := ptrSub_add_ptrSub hwptr hrpub hrs1 (by omega)
  have h6 := ptrSub_add_ptrSub hwptr hrs1 hrs2 (by omega)
  constructor <;> omega

theorem views_bracket_count (hlegal : s.cfg.legal = true) (hinv : s.FifoInv f) :
    s.consView f ≤ s.count f ∧ s.count f ≤ s.prodView f ∧ s.prodView f ≤ s.cap f := by
  obtain ⟨hcount, hprod⟩ := count_and_prodView_of_chain hlegal hinv
  obtain ⟨-, -, hchain⟩ := hinv
  rw [hprod, hcount]
  simp only [State.chainLength, State.consView, State.gap] at hchain ⊢
  omega

end

/-- Settles O47: both views and the occupancy are sums along the chain of copies, one part of the next. -/
theorem viewsBracketTheOccupancy : Obligations.ViewsBracketTheOccupancy := by
  unfold Obligations.ViewsBracketTheOccupancy
  rintro s f ⟨hlegal, -, -, hrx, htx, -, -, -⟩
  cases f with
  | rx => exact views_bracket_count hlegal hrx
  | tx => exact views_bracket_count hlegal htx

/-! ## What an edge does to a ring -/

/-- The consumer of f takes k bytes, which its view shows, and moves its pointer over them (40_ringbuffer.md R104). -/
structure State.Pops (f : Fifo) (k : Nat) (s t : State) : Prop where
  cfg : t.cfg = s.cfg
  view : k ≤ s.consView f
  rptr : t.rptr f = ptrAdd (s.modulus f) (s.rptr f) k

/-- The producer of f stores bytes, for which its view shows space up to the end of the array, and moves its pointer
over them (40_ringbuffer.md R103). -/
structure State.Pushes (f : Fifo) (bytes : List Byte) (s t : State) : Prop where
  cfg : t.cfg = s.cfg
  free : bytes.length ≤ s.availableToWrite f
  span : bytes.length ≤ s.span f (s.idx f (s.wptr f))
  wptr : t.wptr f = ptrAdd (s.modulus f) (s.wptr f) bytes.length
  mem : t.mem f = memWrite (s.cap f) (s.mem f) (s.idx f (s.wptr f)) bytes

/-- An edge of f's consumer domain: `rptr_f` is published, the published `wptr_f` synchronised, and the registers of the
producer stay (45_cdc.md R220 to R224). -/
structure State.ConsumerEdge (f : Fifo) (s t : State) : Prop where
  rpub : t.rpub f = publish (s.modulus f) (s.rptr f) (s.rpub f)
  wsync : t.wsync f = syncShift (s.wsync f) (s.wpub f).g
  wptr : t.wptr f = s.wptr f
  wpub : t.wpub f = s.wpub f
  rsync : t.rsync f = s.rsync f
  mem : t.mem f = s.mem f

/-- An edge of f's producer domain: `wptr_f` is published, the published `rptr_f` synchronised, and the registers of the
consumer stay (45_cdc.md R220 to R224). -/
structure State.ProducerEdge (f : Fifo) (s t : State) : Prop where
  wpub : t.wpub f = publish (s.modulus f) (s.wptr f) (s.wpub f)
  rsync : t.rsync f = syncShift (s.rsync f) (s.rpub f).g
  rptr : t.rptr f = s.rptr f
  rpub : t.rpub f = s.rpub f
  wsync : t.wsync f = s.wsync f

theorem State.Pops.zero {f : Fifo} {s t : State} (hcfg : t.cfg = s.cfg) (hfit : s.Fits f (s.rptr f))
    (hrptr : t.rptr f = s.rptr f) : s.Pops f 0 t :=
  ⟨hcfg, Nat.zero_le _, by rw [ptrAdd_zero hfit, hrptr]⟩

theorem State.Pushes.nil {f : Fifo} {s t : State} (hcfg : t.cfg = s.cfg) (hfit : s.Fits f (s.wptr f))
    (hwptr : t.wptr f = s.wptr f) (hmem : t.mem f = s.mem f) : s.Pushes f [] t :=
  ⟨hcfg, Nat.zero_le _, Nat.zero_le _, by rw [List.length_nil, ptrAdd_zero hfit, hwptr], hmem⟩

theorem cap_of_cfg {s t : State} (h : t.cfg = s.cfg) (f : Fifo) : t.cap f = s.cap f := by rw [State.cap, h]; rfl

theorem modulus_of_cfg {s t : State} (h : t.cfg = s.cfg) (f : Fifo) : t.modulus f = s.modulus f := by
  rw [State.modulus, h]; rfl

theorem idx_of_cfg {s t : State} (h : t.cfg = s.cfg) (f : Fifo) (p : Ptr) : t.idx f p = s.idx f p := by
  rw [State.idx, h]; rfl

theorem span_of_cfg {s t : State} (h : t.cfg = s.cfg) (f : Fifo) (i : Nat) : t.span f i = s.span f i := by
  rw [State.span, State.span, cap_of_cfg h]

/-! ## An edge of the consumer -/

section
variable {f : Fifo} {k : Nat} {s t : State} (hlegal : s.cfg.legal = true) (hinv : s.FifoInv f) (hpop : s.Pops f k t)
include hlegal hinv hpop

/-- The read pointer is k ahead of where it was. -/
theorem State.Pops.advance : ptrSub (s.modulus f) (t.rptr f) (s.rptr f) = k := by
  obtain ⟨hcap, -, hmod, -, hM⟩ := modulus_spec hlegal f
  have hview := consView_le_cap hinv
  have hk := hpop.view
  rw [hpop.rptr]
  exact ptrSub_ptrAdd_self hM (fits_rptr hinv) (by omega)

theorem State.Pops.count (hwptr : t.wptr f = s.wptr f) : t.count f + k = s.count f := by
  obtain ⟨-, -, -, -, hM⟩ := modulus_spec hlegal f
  obtain ⟨hview, -, -⟩ := views_bracket_count hlegal hinv
  have hk := hpop.view
  obtain ⟨⟨hwfit, hrfit, -⟩, -, -⟩ := hinv
  have hsub : t.count f = s.count f - k := by
    rw [State.count, modulus_of_cfg hpop.cfg, hwptr, hpop.rptr]
    exact ptrSub_ptrAdd_right hM hwfit hrfit (hk.trans hview)
  omega

/-- A pop takes queued bytes from the front (20_memory.md R74). -/
theorem State.Pops.content (hwptr : t.wptr f = s.wptr f) (hmem : t.mem f = s.mem f) :
    t.content f = (s.content f).drop k := by
  have hcount := hpop.count hlegal hinv hwptr
  rw [State.content, State.content, State.ringRead, State.ringRead, memRead_drop _ _ _ _ _ (by omega),
    cap_of_cfg hpop.cfg, hmem, hpop.rptr, idx_of_cfg hpop.cfg, idx_ptrAdd hlegal, memRead_mod]
  congr 1
  omega

/-- An edge of the consumer keeps the copies in order: the part of the chain its pop takes from the view, its publisher
and the read pointer still have behind them. -/
theorem State.Pops.fifoInv (hedge : s.ConsumerEdge f t) : t.FifoInv f := by
  obtain ⟨-, -, hmod, hpos, hM⟩ := modulus_spec hlegal f
  have hview := hpop.view
  obtain ⟨⟨hwptr, hrptr, hwpub, hrpub, hws1, hws2, hrs1, hrs2⟩, ⟨hwg, hrg⟩, hchain⟩ := hinv
  have hwgfit : s.Fits f (s.wpub f).g := by rw [hwg]; exact bin2gray_lt hwpub
  have hrpub' := publish_lt hpos hM (s.rptr f) hrpub
  have hfit : t.PointersFit f := by
    simp only [State.PointersFit, State.Fits, modulus_of_cfg hpop.cfg, hpop.rptr, hedge.rpub, hedge.wsync, hedge.wptr,
      hedge.wpub, hedge.rsync, syncShift_s1, syncShift_s2]
    exact ⟨hwptr, ptrAdd_lt hpos hM _ _, hwpub, hrpub', hwgfit, hws1, hrs1, hrs2⟩
  have hgray : t.GrayImages f := by
    simp only [State.GrayImages, hedge.wpub, hedge.rpub]
    exact ⟨hwg, publish_image hrg⟩
  refine ⟨hfit, hgray, ?_⟩
  have hws1' := fits_gray2bin hws1
  have hws2' := fits_gray2bin hws2
  simp only [State.chainLength, State.gap, modulus_of_cfg hpop.cfg, cap_of_cfg hpop.cfg, hpop.rptr, hedge.rpub,
    hedge.wsync, hedge.wptr, hedge.wpub, hedge.rsync, syncShift_s1, syncShift_s2, hwg, gray2bin_bin2gray] at hchain ⊢
  simp only [State.consView] at hview
  have hpublish := ptrSub_publish hM (n := k) hrptr hrpub (gray2bin_lt hrs1) (by omega)
  have hsync := ptrSub_add_ptrSub hws1' hws2' hrptr (by omega)
  have htake := ptrSub_ptrAdd_right hM hws1' hrptr (n := k) (by omega)
  rw [htake, ptrSub_self hwpub]
  omega

/-- The consumer's view loses what is popped, and a younger copy of the write pointer only adds to it. -/
theorem State.Pops.consView (hedge : s.ConsumerEdge f t) : s.consView f ≤ t.consView f + k := by
  obtain ⟨-, -, hmod, hpos, hM⟩ := modulus_spec hlegal f
  have hview := hpop.view
  obtain ⟨⟨-, hrptr, -, -, hws1, hws2, -, -⟩, -, hchain⟩ := hinv
  have hws1' := fits_gray2bin hws1
  simp only [State.consView, State.chainLength, State.gap] at hview hchain ⊢
  rw [modulus_of_cfg hpop.cfg, hpop.rptr, hedge.wsync, syncShift_s2]
  have hsync := ptrSub_add_ptrSub hws1' (fits_gray2bin hws2) hrptr (by omega)
  rw [ptrSub_ptrAdd_right hM hws1' hrptr (by omega)]
  omega

end

/-! ## An edge of the producer -/

/-- An index of the ring from i on, without the modulus. -/
theorem add_mod_cap {cap i k : Nat} (hi : i < cap) (hk : k < cap) :
    (i + k) % cap = if i + k < cap then i + k else i + k - cap := by
  split
  · exact Nat.mod_eq_of_lt ‹_›
  · rw [Nat.mod_eq_sub_mod (by omega), Nat.mod_eq_of_lt (by omega)]

/-- A block write behind the bytes queued from i on, with room for it, is read behind them. -/
theorem memRead_memWrite_behind {cap : Nat} {cells : List Host.Cell} {i n : Nat} {bytes : List Byte}
    (hcells : cellsWf cap cells = true) (hi : i < cap) (hroom : n + bytes.length ≤ cap)
    (hspan : (i + n) % cap + bytes.length ≤ cap) :
    memRead cap (memWrite cap cells ((i + n) % cap) bytes) i (n + bytes.length) = memRead cap cells i n ++ bytes := by
  rw [memRead_add]
  congr 1
  · apply memRead_congr
    intro k hk
    by_cases hfull : n < cap
    · rw [add_mod_cap hi hfull] at hspan ⊢
      rw [add_mod_cap hi (by omega)]
      apply cellRead_memWrite_outside _ _ _ _ hspan
      split <;> split <;> omega
    · have hnil : bytes = [] := List.eq_nil_of_length_eq_zero (by omega)
      rw [hnil, memWrite_nil]
  · rw [← memRead_mod]
    apply List.ext_getElem (by simp)
    intro k hk hk'
    rw [memRead_getElem, Nat.mod_eq_of_lt (a := (i + n) % cap + k) (by omega)]
    exact cellRead_memWrite_inside _ _ _ hcells hspan hk'

section
variable {f : Fifo} {bytes : List Byte} {s t : State} (hlegal : s.cfg.legal = true) (hinv : s.FifoInv f)
  (hpush : s.Pushes f bytes t)
include hlegal hinv hpush

/-- What is stored beside what the producer counts does not exceed the capacity. -/
theorem State.Pushes.prodView_add_le : s.prodView f + bytes.length ≤ s.cap f := by
  obtain ⟨-, -, hview⟩ := views_bracket_count hlegal hinv
  have hfree := hpush.free
  rw [State.availableToWrite] at hfree
  omega

/-- The write pointer is ahead of where it was by what is pushed. -/
theorem State.Pushes.advance : ptrSub (s.modulus f) (t.wptr f) (s.wptr f) = bytes.length := by
  obtain ⟨hcap, -, hmod, -, hM⟩ := modulus_spec hlegal f
  have hroom := hpush.prodView_add_le hlegal hinv
  rw [hpush.wptr]
  exact ptrSub_ptrAdd_self hM (fits_wptr hinv) (by omega)

theorem State.Pushes.count (hrptr : t.rptr f = s.rptr f) : t.count f = s.count f + bytes.length := by
  obtain ⟨hcap, -, hmod, -, hM⟩ := modulus_spec hlegal f
  obtain ⟨-, hview, -⟩ := views_bracket_count hlegal hinv
  have hroom := hpush.prodView_add_le hlegal hinv
  obtain ⟨⟨hwfit, hrfit, -⟩, -, -⟩ := hinv
  rw [State.count] at hview ⊢
  rw [modulus_of_cfg hpush.cfg, hrptr, hpush.wptr]
  exact ptrSub_ptrAdd_left hM hwfit hrfit (by omega)

/-- A push adds its bytes at the end of the queued ones, in order (20_memory.md R74). -/
theorem State.Pushes.content (hcells : cellsWf (s.cap f) (s.mem f) = true) (hrptr : t.rptr f = s.rptr f) :
    t.content f = s.content f ++ bytes := by
  obtain ⟨-, -, -, -, hM⟩ := modulus_spec hlegal f
  obtain ⟨-, hview, -⟩ := views_bracket_count hlegal hinv
  have hcount := hpush.count hlegal hinv hrptr
  have hroom := hpush.prodView_add_le hlegal hinv
  have hspan := hpush.span
  obtain ⟨hidx, -⟩ := idx_lt hlegal f (s.rptr f)
  obtain ⟨hwidx, -⟩ := idx_lt hlegal f (s.wptr f)
  have hend : s.idx f (s.wptr f) = (s.idx f (s.rptr f) + s.count f) % s.cap f := by
    rw [← idx_ptrAdd hlegal, State.count, ptrAdd_ptrSub hM (fits_wptr hinv) (fits_rptr hinv)]
  rw [State.span] at hspan
  rw [State.content, State.content, State.ringRead, State.ringRead, hcount, cap_of_cfg hpush.cfg, idx_of_cfg hpush.cfg,
    hrptr, hpush.mem, hend]
  exact memRead_memWrite_behind hcells hidx (by omega) (by omega)

/-- An edge of the producer keeps the copies in order: the chain grows by what is pushed and loses the oldest copy of the
read pointer. -/
theorem State.Pushes.chainLength (hedge : s.ProducerEdge f t) :
    t.chainLength f + s.gap f (gray2bin (s.rsync f).s1) (gray2bin (s.rsync f).s2) =
      s.chainLength f + bytes.length := by
  obtain ⟨hcap, -, hmod, -, hM⟩ := modulus_spec hlegal f
  obtain ⟨-, hprod⟩ := count_and_prodView_of_chain hlegal hinv
  have hroom := hpush.prodView_add_le hlegal hinv
  obtain ⟨⟨hwptr, -, hwpub, hrpub, hws1, -, -, -⟩, ⟨-, hrg⟩, -⟩ := hinv
  rw [hprod] at hroom
  simp only [State.chainLength, State.gap, modulus_of_cfg hpush.cfg, hpush.wptr, hedge.wpub, hedge.rsync, hedge.rptr,
    hedge.rpub, hedge.wsync, syncShift_s1, syncShift_s2, hrg, gray2bin_bin2gray] at hroom ⊢
  have hpublish := ptrSub_publish hM (n := bytes.length) hwptr hwpub (gray2bin_lt hws1) (by omega)
  rw [ptrSub_self hrpub]
  omega

theorem State.Pushes.fifoInv (hedge : s.ProducerEdge f t) : t.FifoInv f := by
  obtain ⟨-, -, -, hpos, hM⟩ := modulus_spec hlegal f
  obtain ⟨-, hprod⟩ := count_and_prodView_of_chain hlegal hinv
  have hroom := hpush.prodView_add_le hlegal hinv
  have hchain := hpush.chainLength hlegal hinv hedge
  obtain ⟨⟨hwptr, hrptr, hwpub, hrpub, hws1, hws2, hrs1, hrs2⟩, ⟨hwg, hrg⟩, -⟩ := hinv
  have hrgfit : s.Fits f (s.rpub f).g := by rw [hrg]; exact bin2gray_lt hrpub
  have hwpub' := publish_lt hpos hM (s.wptr f) hwpub
  have hfit : t.PointersFit f := by
    simp only [State.PointersFit, State.Fits, modulus_of_cfg hpush.cfg, hpush.wptr, hedge.wpub, hedge.rsync, hedge.rptr,
      hedge.rpub, hedge.wsync, syncShift_s1, syncShift_s2]
    exact ⟨ptrAdd_lt hpos hM _ _, hrptr, hwpub', hrpub, hws1, hws2, hrgfit, hrs1⟩
  have hgray : t.GrayImages f := by
    simp only [State.GrayImages, hedge.wpub, hedge.rpub]
    exact ⟨publish_image hwg, hrg⟩
  refine ⟨hfit, hgray, ?_⟩
  rw [cap_of_cfg hpush.cfg]
  omega

/-- The producer's view gains no more than what is pushed: a younger copy of the read pointer only takes from it. -/
theorem State.Pushes.prodView (hedge : s.ProducerEdge f t) : t.prodView f ≤ s.prodView f + bytes.length := by
  have hlegal' : t.cfg.legal = true := by rw [hpush.cfg]; exact hlegal
  obtain ⟨-, hprod⟩ := count_and_prodView_of_chain hlegal hinv
  obtain ⟨-, hprod'⟩ := count_and_prodView_of_chain hlegal' (hpush.fifoInv hlegal hinv hedge)
  have hchain := hpush.chainLength hlegal hinv hedge
  omega

end

end Sys2Proof.Machine
end

section
/-! What an FG edge does to the two rings: its commands pop from RX and answer what they pop, its held write pushes into
TX (20_memory.md R73, R74, 60_exceptions.md R252). -/

namespace Sys2Proof.Machine

/-! ## The primitives within their precondition -/

theorem popChunk_of_canPop {f : Fifo} {n : Nat} {s : State} (h : s.canPop f n = true) :
    s.popChunk f n =
      (s.ringRead f (s.idx f (s.rptr f)) n, s.setRptr f (ptrAdd (s.modulus f) (s.rptr f) n)) := by
  rcases popChunk_cases f n s with ⟨-, e⟩ | ⟨hfail, -⟩
  · exact e
  · rw [h] at hfail; cases hfail

theorem pushChunk_of_canPush {f : Fifo} {src : List Byte} {n : Nat} {s : State} (h : s.canPush f src n = true) :
    s.pushChunk f src n =
      s.setProducer f (memWrite (s.cap f) (s.mem f) (s.idx f (s.wptr f)) (src.take n))
        (ptrAdd (s.modulus f) (s.wptr f) n) := by
  rcases pushChunk_cases f src n s with ⟨-, e⟩ | ⟨hfail, -⟩
  · exact e
  · rw [h] at hfail; cases hfail

/-- Where the queued bytes reach so far, the first of them are the block at the read index. -/
theorem content_take {f : Fifo} {k : Nat} {s : State} (hk : k ≤ s.count f) :
    (s.content f).take k = s.ringRead f (s.idx f (s.rptr f)) k := by
  rw [State.content, State.ringRead, memRead_take, Nat.min_eq_left hk]; rfl

/-- A block of one byte. -/
theorem ringRead_one {s : State} (hlegal : s.cfg.legal = true) (f : Fifo) (p : Ptr) :
    s.ringRead f (s.idx f p) 1 = [cellRead (s.mem f) (s.idx f p)] := by
  simp only [State.ringRead, memRead, List.range_one, List.map_cons, List.map_nil, Nat.add_zero,
    Nat.mod_eq_of_lt (idx_lt hlegal f p).1]

/-- The answer of an edge gives the k bytes taken from the front of RX, as READB's bytes or as READ's word (42_receive.md
R153, R154). -/
def State.AnswersFront (k : Nat) (s t : State) : Prop :=
  0 < k → ∃ w bytes, t.out = s.out ++ [.rsp w bytes] ∧
    (bytes = (s.content .rx).take k ∨
      (bytes = [] ∧ ∃ b, (s.content .rx).take k = [b] ∧ w = b.zeroExtend 32))

theorem State.AnswersFront.zero (s t : State) : s.AnswersFront 0 t := fun h => absurd h (Nat.lt_irrefl 0)

/-! ## Commands that pop from RX -/

/-- The state after k bytes are taken from RX. -/
def State.skipRx (k : Nat) (s : State) : State := s.setRptr .rx (ptrAdd (s.modulus .rx) (s.rptr .rx) k)

theorem pops_finishTaken_skipRx {k : Nat} {s : State} (hk : k ≤ s.consView .rx) (w : Word) (bytes : List Byte) :
    s.Pops .rx k ((s.skipRx k).finishTaken w bytes) :=
  ⟨finishTaken_cfg .., hk, finishTaken_fg_rptrRx ..⟩

theorem exec_read_of_view {s : State} (hlegal : s.cfg.legal = true) (hview : s.consView .rx ≠ 0) :
    exec .read s =
      .next ((s.skipRx 1).finishTaken (byteWord (cellRead s.memRx (s.idx .rx s.fg.rptrRx))) []) := by
  obtain ⟨-, hspan⟩ := idx_lt hlegal .rx (s.rptr .rx)
  have hpop : s.canPop .rx 1 = true := (canPop_iff ..).mpr ⟨Nat.pos_of_ne_zero hview, hspan⟩
  simp only [exec, execRead, if_neg hview, popChunk_of_canPop hpop, ringRead_one hlegal]
  rfl

/-- The two spans of READB are one block (42_receive.md R154, 20_memory.md R69). -/
theorem exec_readb_of_order {s : State} (hlegal : s.cfg.legal = true) (hinv : s.FifoInv .rx) (size : Count) :
    let k := min size.toNat (s.consView .rx)
    exec (.readb size) s = .next ((s.skipRx k).finishTaken (countWord k) ((s.content .rx).take k)) := by
  intro k
  have hk : k ≤ s.consView .rx := Nat.min_le_right _ _
  obtain ⟨-, -, -, hpos, hM⟩ := modulus_spec hlegal .rx
  obtain ⟨hcount, -, -⟩ := views_bracket_count hlegal hinv
  have hle : s.firstSpan k ≤ k := Nat.min_le_left _ _
  have hfirst : s.canPop .rx (s.firstSpan k) = true :=
    (canPop_iff ..).mpr ⟨hle.trans hk, Nat.min_le_right _ _⟩
  have hsecond : (s.skipRx (s.firstSpan k)).canPop .rx (k - s.firstSpan k) = true := canPop_secondSpan hlegal hinv hk
  have hbytes : s.ringRead .rx (s.idx .rx (s.rptr .rx)) (s.firstSpan k) ++
      (s.skipRx (s.firstSpan k)).ringRead .rx
        (s.idx .rx (ptrAdd (s.modulus .rx) (s.rptr .rx) (s.firstSpan k))) (k - s.firstSpan k) =
      (s.content .rx).take k := by
    rw [content_take (hk.trans hcount), idx_ptrAdd hlegal]
    change memRead _ _ _ _ ++ memRead (s.cap .rx) s.memRx _ _ = memRead _ _ _ _
    rw [memRead_mod]
    conv_rhs => rw [show k = s.firstSpan k + (k - s.firstSpan k) by omega, memRead_add]
    rfl
  have hskip : (s.skipRx (s.firstSpan k)).skipRx (k - s.firstSpan k) = s.skipRx k := by
    change s.setRptr .rx (ptrAdd (s.modulus .rx) (ptrAdd (s.modulus .rx) (s.rptr .rx) (s.firstSpan k)) _) = _
    rw [ptrAdd_ptrAdd hpos hM, Nat.add_sub_cancel' hle]; rfl
  change Host.Outcome.next (((s.popChunk .rx (s.firstSpan k)).2.popChunk .rx (k - s.firstSpan k)).2.finishTaken
    (countWord k) ((s.popChunk .rx (s.firstSpan k)).1 ++
      ((s.popChunk .rx (s.firstSpan k)).2.popChunk .rx (k - s.firstSpan k)).1)) = _
  rw [popChunk_of_canPop hfirst]
  change Host.Outcome.next (((s.skipRx (s.firstSpan k)).popChunk .rx (k - s.firstSpan k)).2.finishTaken
    (countWord k) (_ ++ ((s.skipRx (s.firstSpan k)).popChunk .rx (k - s.firstSpan k)).1)) = _
  rw [popChunk_of_canPop hsecond]
  change Host.Outcome.next (((s.skipRx (s.firstSpan k)).skipRx (k - s.firstSpan k)).finishTaken (countWord k) _) = _
  rw [hskip]
  exact congrArg (fun l => Host.Outcome.next ((s.skipRx k).finishTaken (countWord k) l)) hbytes

/-- Only READ and READB move the RX read pointer. -/
theorem exec_rptrRx {i : Instr} {s t : State} (h : exec i s = .next t) (hread : i ≠ .read)
    (hreadb : ∀ size, i ≠ .readb size) : t.fg.rptrRx = s.fg.rptrRx := by
  have hwrite : ∀ ctx size source, (s.beginWrite ctx size source).fg.rptrRx = s.fg.rptrRx := by
    intro ctx size source
    rcases beginWrite_cases ctx size source s with ⟨-, e⟩ | ⟨-, -, e⟩ <;> rw [e]
    · exact finishTaken_fg_rptrRx ..
    · rfl
  cases i
  case read => exact absurd rfl hread
  case readb size => exact absurd rfl (hreadb size)
  case write1 => cases h; exact hwrite _ _ _
  case writeb => cases h; exact hwrite _ _ _
  case flush ctx =>
    cases ctx <;> cases h
    · rfl
    · exact finishTaken_fg_rptrRx ..
  all_goals cases h; exact finishTaken_fg_rptrRx ..

/-- A taken command pops what it answers, or nothing. -/
theorem exec_pops {i : Instr} {s t : State} (hring : s.RingInv) (h : exec i s = .next t) :
    ∃ k, s.Pops .rx k t ∧ s.AnswersFront k t := by
  obtain ⟨hlegal, -, -, hrx, -, -, -, -⟩ := hring
  have hcfg : t.cfg = s.cfg := by rw [exec_fgWrites h]
  have hstay (hrptr : t.fg.rptrRx = s.fg.rptrRx) : ∃ k, s.Pops .rx k t ∧ s.AnswersFront k t :=
    ⟨0, .zero hcfg (fits_rptr hrx) hrptr, .zero s t⟩
  by_cases hread : i = .read
  · subst hread
    by_cases hview : s.consView .rx = 0
    · simp only [exec, execRead, if_pos hview] at h
      cases h
      exact hstay (finishTaken_fg_rptrRx ..)
    · have hone : 1 ≤ s.consView .rx := Nat.pos_of_ne_zero hview
      have hfront : (s.content .rx).take 1 = [cellRead s.memRx (s.idx .rx s.fg.rptrRx)] := by
        rw [content_take (hone.trans (views_bracket_count hlegal hrx).1), ringRead_one hlegal]
        rfl
      rw [exec_read_of_view hlegal hview] at h
      cases h
      exact ⟨1, pops_finishTaken_skipRx hone _ _, fun _ => ⟨_, _, finishTaken_out .., .inr ⟨rfl, _, hfront, rfl⟩⟩⟩
  · by_cases hreadb : ∃ size, i = .readb size
    · obtain ⟨size, rfl⟩ := hreadb
      rw [exec_readb_of_order hlegal hrx] at h
      cases h
      exact ⟨_, pops_finishTaken_skipRx (Nat.min_le_right _ _) _ _,
        fun _ => ⟨_, _, finishTaken_out .., .inl rfl⟩⟩
    · exact hstay (exec_rptrRx h hread fun size e => hreadb ⟨size, e⟩)

/-! ## The TX ring -/

/-- Before it answers, a taken command writes `rptr_RX`, CTRL, STATUS and the fault bit alone. -/
theorem State.Prepares.eq_update {s u : State} (h : s.Prepares u) :
    ∃ p c st b, u = { s with fg := { s.fg with rptrRx := p, ctrl := c, status := st }, faultPre := b } := by
  cases h with
  | query => exact ⟨_, _, _, _, rfl⟩
  | setctrl => exact ⟨_, _, _, _, rfl⟩
  | illegal => exact ⟨_, _, _, _, rfl⟩
  | read =>
    obtain ⟨p, b, e⟩ := popChunk_rx_eq_update 1 s
    exact ⟨p, s.fg.ctrl, s.fg.status, b, e⟩
  | readb k =>
    obtain ⟨p, b, e⟩ := popChunk_rx_eq_update (s.firstSpan k) s
    obtain ⟨p', b', e'⟩ := popChunk_rx_eq_update (k - s.firstSpan k) (s.popChunk .rx (s.firstSpan k)).2
    exact ⟨p', s.fg.ctrl, s.fg.status, b', by rw [e', e]⟩

/-- No command pushes at the edge that takes it. -/
theorem exec_pushes_nil {i : Instr} {s t : State} (hfit : s.Fits .tx (s.wptr .tx)) (h : exec i s = .next t) :
    s.Pushes .tx [] t := by
  have hcfg : t.cfg = s.cfg := by rw [exec_fgWrites h]
  rcases exec_cases h with ⟨u, w, bytes, hu, rfl⟩ | ⟨n, source, rfl⟩ | rfl
  · obtain ⟨p, c, st, b, rfl⟩ := hu.eq_update
    exact .nil hcfg hfit (finishTaken_fg_wptrTx ..) (finishTaken_memTx ..)
  · exact .nil hcfg hfit rfl rfl
  · exact .nil hcfg hfit rfl rfl

theorem canPush_pushLength {s : State} (hring : s.RingInv) : s.canPush .tx s.fg.src s.pushLength = true := by
  obtain ⟨-, -, -, -, -, -, hsrc, -⟩ := hring
  obtain ⟨hrem, hfree, hspan⟩ := pushLength_le s
  exact (canPush_iff ..).mpr ⟨hfree, hspan, by rw [hsrc]; exact hrem⟩

theorem length_take_pushLength {s : State} (hring : s.RingInv) :
    (s.fg.src.take s.pushLength).length = s.pushLength :=
  List.length_take_of_le ((canPush_iff ..).mp (canPush_pushLength hring)).2.2

/-- A push edge within the invariant, as a record update (41_transmit.md R125). -/
theorem pushed_eq_update {s : State} (hring : s.RingInv) :
    s.pushed = { s with
      memTx := memWrite (s.cap .tx) s.memTx (s.idx .tx s.fg.wptrTx) (s.fg.src.take s.pushLength)
      fg := { s.fg with
        wptrTx := ptrAdd (s.modulus .tx) s.fg.wptrTx s.pushLength
        src := s.fg.src.drop s.pushLength
        rem := s.fg.rem - BitVec.ofNat 16 s.pushLength } } := by
  simp only [State.pushed, pushChunk_of_canPush (canPush_pushLength hring)]
  rfl

theorem pushed_pushes {s : State} (hring : s.RingInv) : s.Pushes .tx (s.fg.src.take s.pushLength) s.pushed := by
  obtain ⟨hfree, hspan, -⟩ := (canPush_iff ..).mp (canPush_pushLength hring)
  have hlen := length_take_pushLength hring
  rw [pushed_eq_update hring]
  exact ⟨rfl, by rwa [hlen], by rwa [hlen], by rw [hlen]; rfl, rfl⟩

theorem State.Pushes.finishHeld {bytes : List Byte} {s t : State} (h : s.Pushes .tx bytes t) (w : Word)
    (l : List Byte) : s.Pushes .tx bytes (t.finishHeld w l) :=
  ⟨h.cfg, h.free, h.span, h.wptr, h.mem⟩

/-- A held command pushes the first of its source bytes, or none. -/
theorem fgContinue_pushes {s : State} (hring : s.RingInv) :
    ∃ bytes, s.Pushes .tx bytes s.fgContinue ∧ bytes = s.fg.src.take bytes.length := by
  have ⟨_, _, _, _, htx, _, _, _⟩ := hring
  have hnil {t : State} (hcfg : t.cfg = s.cfg) (hwptr : t.wptr .tx = s.wptr .tx) (hmem : t.mem .tx = s.mem .tx) :
      ∃ bytes, s.Pushes .tx bytes t ∧ bytes = s.fg.src.take bytes.length :=
    ⟨[], .nil hcfg (fits_wptr htx) hwptr hmem, rfl⟩
  have hspan : s.fg.src.take s.pushLength = s.fg.src.take (s.fg.src.take s.pushLength).length := by
    rw [length_take_pushLength hring]
  rcases fgContinue_cases s with h | h | h | h | ⟨w, h⟩ <;> rw [h]
  · exact hnil rfl rfl rfl
  · exact hnil rfl rfl rfl
  · exact hnil rfl rfl rfl
  · exact ⟨_, pushed_pushes hring, hspan⟩
  · exact ⟨_, (pushed_pushes hring).finishHeld w [], hspan⟩

theorem fgContinue_rptrRx (s : State) : s.fgContinue.fg.rptrRx = s.fg.rptrRx := by
  have hpushed : s.pushed.fg.rptrRx = s.fg.rptrRx := by
    obtain ⟨cells, p, b, e⟩ := pushChunk_tx_eq_update s.fg.src s.pushLength s
    simp only [State.pushed, e]
  rcases fgContinue_cases s with h | h | h | h | ⟨w, h⟩ <;> rw [h]
  · rfl
  · exact hpushed
  · exact hpushed

/-! ## The edge -/

/-- What an FG edge does to the rings: k bytes leave RX and are answered; source bytes of the held write enter TX. -/
structure State.FgMoves (k : Nat) (bytes : List Byte) (s t : State) : Prop where
  pops : s.Pops .rx k t
  answers : s.AnswersFront k t
  pushes : s.Pushes .tx bytes t
  source : bytes = s.fg.src.take bytes.length

/-- The rings do not depend on the port. -/
theorem State.FgMoves.of_port {k : Nat} {bytes : List Byte} {s t : State} {port : FgPort}
    (h : ({ s with port := port } : State).FgMoves k bytes t) : s.FgMoves k bytes t :=
  ⟨⟨h.pops.cfg, h.pops.view, h.pops.rptr⟩, h.answers,
    ⟨h.pushes.cfg, h.pushes.free, h.pushes.span, h.pushes.wptr, h.pushes.mem⟩, h.source⟩

theorem fgSequencer_moves {s u : State} (hring : s.RingInv) (h : s.fgSequencer = .next u) :
    ∃ k bytes, s.FgMoves k bytes u := by
  have ⟨_, _, _, hrx, htx, _, _, _⟩ := hring
  rcases fgSequencer_cases h with ⟨-, i, -, hexec⟩ | ⟨-, rfl⟩
  · obtain ⟨k, hpops, hanswers⟩ := exec_pops (s := s.portTaken) hring hexec
    exact ⟨k, [], .of_port ⟨hpops, hanswers, exec_pushes_nil (s := s.portTaken) (fits_wptr htx) hexec, rfl⟩⟩
  · obtain ⟨bytes, hpushes, hsource⟩ := fgContinue_pushes hring
    have hcfg : s.fgContinue.cfg = s.cfg := by rw [fgContinue_fgWrites s]
    exact ⟨0, bytes, .zero hcfg (fits_rptr hrx) (fgContinue_rptrRx s), .zero s _, hpushes, hsource⟩

theorem State.FgMoves.fgCrossings {k : Nat} {bytes : List Byte} {s u : State} (h : s.FgMoves k bytes u)
    (copy : LineState) (pre : State) : s.FgMoves k bytes (State.fgCrossings copy pre u) :=
  ⟨⟨h.pops.cfg, h.pops.view, h.pops.rptr⟩, h.answers,
    ⟨h.pushes.cfg, h.pushes.free, h.pushes.span, h.pushes.wptr, h.pushes.mem⟩, h.source⟩

theorem fgEdge_moves {present : Option HostCmd} {copy : LineState} {s t : State} (hring : s.RingInv)
    (h : s.fgEdge present copy = .next t) : ∃ k bytes, s.FgMoves k bytes t := by
  obtain ⟨u, hseq, rfl⟩ := fgEdge_cases h
  obtain ⟨port, hport⟩ := hostPresent_eq_update present s
  rw [hport] at hseq
  obtain ⟨k, bytes, hmoves⟩ := fgSequencer_moves (s := { s with port := port }) hring hseq
  exact ⟨k, bytes, hmoves.of_port.fgCrossings copy _⟩

/-- FG consumes RX and produces TX (10_state.md R20, 40_ringbuffer.md R109). -/
theorem fgEdge_ringEdges {present : Option HostCmd} {copy : LineState} {s t : State}
    (h : s.fgEdge present copy = .next t) : s.ConsumerEdge .rx t ∧ s.ProducerEdge .tx t := by
  have hframe := fgEdge_fgWrites h
  have hev : t.ev = s.ev := by rw [hframe]
  have hmemRx : t.memRx = s.memRx := by rw [hframe]
  obtain ⟨u, -, rfl⟩ := fgEdge_cases h
  obtain ⟨port, hport⟩ := hostPresent_eq_update present s
  rw [hport] at hev hmemRx ⊢
  exact ⟨⟨rfl, rfl, congrArg EvDomain.wptrRx hev, congrArg EvDomain.wpubRx hev, congrArg EvDomain.rsyncRx hev, hmemRx⟩,
    ⟨rfl, rfl, congrArg EvDomain.rptrTx hev, congrArg EvDomain.rpubTx hev, congrArg EvDomain.wsyncTx hev⟩⟩

end Sys2Proof.Machine
end

section
/-! What an EV edge does to the two rings: the drain pushes into RX, the launch shows the front of TX to DEV and the
completion pops it (20_memory.md R73, R74, 60_exceptions.md R253). -/

namespace Sys2Proof.Machine

/-! ## The bytes on the wire -/

@[simp] theorem wireBytes_append (out l : List OutEvent) : wireBytes (out ++ l) = wireBytes out ++ wireBytes l :=
  List.flatMap_append

/-- The end of an RX phase writes `ev_state` and the output alone, and puts nothing on the wire (42_receive.md R156). -/
theorem endRxPhase_eq_update (total : Count) (s : State) :
    ∃ st l, s.endRxPhase total = { s with ev := { s.ev with state := st }, out := s.out ++ l } ∧ wireBytes l = [] := by
  rcases endRxPhase_cases total s with ⟨-, -, -, h⟩ | ⟨-, h⟩ <;> rw [h]
  · exact ⟨_, [.ntfRx total], rfl, rfl⟩
  · exact ⟨_, [], by rw [List.append_nil], rfl⟩

/-! ## The RX ring -/

/-- A drain iteration that queues its answer, as a record update (42_receive.md R155). -/
theorem drained_eq_update (answer : List Byte) (s : State) :
    s.drained answer = { s with
      memRx := memWrite (s.cap .rx) s.memRx (s.idx .rx s.ev.wptrRx) (answer.take s.rxCap)
      ev := { s.ev with
        wptrRx := ptrAdd (s.modulus .rx) s.ev.wptrRx (answer.take s.rxCap).length
        rxTotal := s.ev.rxTotal + BitVec.ofNat 16 (answer.take s.rxCap).length }
      out := s.out ++ [.rxReq (BitVec.ofNat 16 s.rxCap)] } := by
  obtain ⟨hfree, hspan, -⟩ := rxCap_le s
  have hlen : (answer.take s.rxCap).length ≤ s.rxCap := List.length_take_le _ _
  have hpush : (s.emit (.rxReq (BitVec.ofNat 16 s.rxCap))).canPush .rx (answer.take s.rxCap)
      (answer.take s.rxCap).length = true :=
    (canPush_iff ..).mpr ⟨hlen.trans hfree, hlen.trans hspan, Nat.le_refl _⟩
  simp only [State.drained, pushChunk_of_canPush hpush, List.take_length]
  rfl

/-- What an EV edge does to RX: a first part of DEV's answer enters the ring, and the round counts it. -/
structure State.Drains (answer : List Byte) (s t : State) : Prop where
  pushes : ∃ bytes, s.Pushes .rx bytes t ∧ bytes = answer.take bytes.length
  quota : s.ev.rxTotal.toNat ≤ s.cap .rx → t.ev.rxTotal.toNat ≤ t.cap .rx

/-- An operation that leaves the RX write pointer and storage and keeps or clears the round's count. -/
theorem State.Drains.of_eq {answer : List Byte} {s t : State} (hfit : s.Fits .rx s.ev.wptrRx) (hcfg : t.cfg = s.cfg)
    (hwptr : t.ev.wptrRx = s.ev.wptrRx) (hmem : t.memRx = s.memRx)
    (htotal : t.ev.rxTotal = s.ev.rxTotal ∨ t.ev.rxTotal = 0) : s.Drains answer t := by
  refine ⟨⟨[], .nil hcfg hfit hwptr hmem, rfl⟩, fun h => ?_⟩
  rw [cap_of_cfg hcfg]
  rcases htotal with e | e <;> rw [e]
  · exact h
  · exact Nat.zero_le _

theorem drained_drains (answer : List Byte) {s : State} (hlegal : s.cfg.legal = true) :
    s.Drains answer (s.drained answer) := by
  obtain ⟨hfree, hspan, hquota⟩ := rxCap_le s
  obtain ⟨-, hcap, -⟩ := modulus_spec hlegal .rx
  have hlen : (answer.take s.rxCap).length ≤ s.rxCap := List.length_take_le _ _
  rw [drained_eq_update]
  refine ⟨⟨answer.take s.rxCap, ⟨rfl, hlen.trans hfree, hlen.trans hspan, rfl, rfl⟩, ?_⟩, fun h => ?_⟩
  · rw [List.length_take, List.take_eq_take_min]
  · change (s.ev.rxTotal + BitVec.ofNat 16 _).toNat ≤ s.cap .rx
    rw [BitVec.toNat_add, BitVec.toNat_ofNat, Nat.add_mod_mod, Nat.mod_eq_of_lt (by omega)]
    omega

theorem State.Drains.endRxPhase {answer : List Byte} {s t : State} (h : s.Drains answer t) (total : Count) :
    s.Drains answer (t.endRxPhase total) := by
  obtain ⟨⟨bytes, hpushes, hsource⟩, hquota⟩ := h
  obtain ⟨st, l, e, -⟩ := endRxPhase_eq_update total t
  rw [e]
  exact ⟨⟨bytes, ⟨hpushes.cfg, hpushes.free, hpushes.span, hpushes.wptr, hpushes.mem⟩, hsource⟩, hquota⟩

theorem State.Drains.refl (answer : List Byte) {s : State} (hfit : s.Fits .rx s.ev.wptrRx) : s.Drains answer s :=
  .of_eq hfit rfl rfl rfl (.inl rfl)

theorem txComplete_eq_update (s : State) :
    ∃ p c sz b l, s.txComplete = { s with
      ev := { s.ev with rptrTx := p, txCompleted := c, txSize := sz, state := .idle }, faultPre := b, out := l } := by
  obtain ⟨p, b, hpop⟩ := popChunk_tx_eq_update s.ev.txSize.toNat s
  rcases txComplete_cases s with ⟨-, h⟩ | ⟨-, h⟩ <;> rw [h]
  · exact ⟨_, _, _, _, _, rfl⟩
  · rw [hpop]
    split
    · exact ⟨p, _, 0, b, _, rfl⟩
    · exact ⟨p, _, 0, b, _, rfl⟩

theorem evSequencer_drains (answer : List Byte) {s : State} (hring : s.RingInv) :
    s.Drains answer (s.evSequencer answer) := by
  obtain ⟨hlegal, -, -, hrx, -, -, -, -⟩ := hring
  have hfit : s.Fits .rx s.ev.wptrRx := fits_wptr hrx
  rcases evSequencer_cases answer s with ⟨-, h⟩ | ⟨-, h⟩ | ⟨-, h⟩ <;> rw [h]
  · rcases evIdle_cases s with ⟨-, h⟩ | ⟨-, m, -, h⟩ | ⟨-, -, h⟩ <;> rw [h]
    · exact .of_eq hfit rfl rfl rfl (.inl rfl)
    · exact .of_eq hfit rfl rfl rfl (.inr rfl)
    · exact .refl answer hfit
  · rcases rxIter_forms answer s with ⟨total, h⟩ | ⟨total, h⟩ | h <;> rw [h]
    · exact (State.Drains.refl answer hfit).endRxPhase total
    · exact (drained_drains answer hlegal).endRxPhase total
    · exact drained_drains answer hlegal
  · obtain ⟨p, c, sz, b, l, e⟩ := txComplete_eq_update s
    rw [e]
    exact .of_eq hfit rfl rfl rfl (.inl rfl)

/-! ## The TX ring -/

/-- An EV edge that hands over no packet: it pops and counts the k bytes of the packet in flight, or nothing
(41_transmit.md R133). -/
structure State.Retires (k : Nat) (s t : State) : Prop where
  pops : s.Pops .tx k t
  flight : (k = 0 ∧ t.ev.txSize = s.ev.txSize) ∨ (k = s.ev.txSize.toNat ∧ t.ev.txSize = 0)
  completed : t.ev.txCompleted = s.ev.txCompleted + BitVec.ofNat 32 k
  wire : wireBytes t.out = wireBytes s.out

theorem State.Retires.zero {s t : State} (hfit : s.Fits .tx s.ev.rptrTx) (hcfg : t.cfg = s.cfg)
    (hrptr : t.ev.rptrTx = s.ev.rptrTx) (hsize : t.ev.txSize = s.ev.txSize)
    (hcompleted : t.ev.txCompleted = s.ev.txCompleted) (hwire : wireBytes t.out = wireBytes s.out) : s.Retires 0 t :=
  ⟨.zero hcfg hfit hrptr, .inl ⟨rfl, hsize⟩, by rw [hcompleted]; exact (BitVec.add_zero _).symm, hwire⟩

theorem rxIter_retires (answer : List Byte) {s : State} (hfit : s.Fits .tx s.ev.rptrTx) :
    s.Retires 0 (s.rxIter answer) := by
  have hend {u : State} (hu : s.Retires 0 u) (total : Count) : s.Retires 0 (u.endRxPhase total) := by
    obtain ⟨st, l, e, hl⟩ := endRxPhase_eq_update total u
    rw [e]
    exact ⟨⟨hu.pops.cfg, hu.pops.view, hu.pops.rptr⟩, hu.flight, hu.completed, by
      rw [wireBytes_append, hl, List.append_nil, hu.wire]⟩
  have hdrained : s.Retires 0 (s.drained answer) := by
    rw [drained_eq_update]
    exact .zero hfit rfl rfl rfl rfl (by rw [wireBytes_append]; exact List.append_nil _)
  rcases rxIter_forms answer s with ⟨total, h⟩ | ⟨total, h⟩ | h <;> rw [h]
  · exact hend (.zero hfit rfl rfl rfl rfl rfl) total
  · exact hend hdrained total
  · exact hdrained

theorem txComplete_retires {s : State} (hfit : s.Fits .tx s.ev.rptrTx) (hflight : s.FlightInv) :
    ∃ k, s.Retires k s.txComplete := by
  obtain ⟨hview, hspan, -⟩ := hflight
  rcases txComplete_cases s with ⟨-, h⟩ | ⟨-, h⟩ <;> rw [h]
  · exact ⟨0, .zero hfit rfl rfl rfl rfl rfl⟩
  · rw [popChunk_of_canPop ((canPop_iff ..).mpr ⟨hview, hspan⟩)]
    refine ⟨s.ev.txSize.toNat, ?_⟩
    split
    · exact ⟨⟨rfl, hview, rfl⟩, .inr ⟨rfl, rfl⟩, rfl, (wireBytes_append ..).trans (List.append_nil _)⟩
    · exact ⟨⟨rfl, hview, rfl⟩, .inr ⟨rfl, rfl⟩, rfl, rfl⟩

/-- An EV edge launches a packet, or retires the one in flight, or leaves TX as it is. -/
theorem evSequencer_launches_or_retires (answer : List Byte) {s : State} (hring : s.RingInv) :
    (s.launchEn = true ∧ s.evSequencer answer = s.txLaunch) ∨ ∃ k, s.Retires k (s.evSequencer answer) := by
  obtain ⟨-, -, -, -, htx, hflight, -, -⟩ := hring
  have hfit : s.Fits .tx s.ev.rptrTx := fits_rptr htx
  rcases evSequencer_cases answer s with ⟨-, h⟩ | ⟨-, h⟩ | ⟨-, h⟩ <;> rw [h]
  · rcases evIdle_cases s with ⟨hlaunch, h⟩ | ⟨-, m, -, h⟩ | ⟨-, -, h⟩ <;> rw [h]
    · exact .inl ⟨hlaunch, rfl⟩
    · exact .inr ⟨0, .zero hfit rfl rfl rfl rfl rfl⟩
    · exact .inr ⟨0, .zero hfit rfl rfl rfl rfl rfl⟩
  · exact .inr ⟨0, rxIter_retires answer hfit⟩
  · exact .inr (txComplete_retires hfit hflight)

/-- A packet fits the register of its length: it is at most the view, which is at most the capacity. -/
theorem clampMux_toNat {s : State} (hlegal : s.cfg.legal = true) (htx : s.FifoInv .tx) :
    (BitVec.ofNat 16 s.clampMux).toNat = s.clampMux := by
  obtain ⟨hview, -, -⟩ := clampMux_le s
  have hcap := consView_le_cap htx
  obtain ⟨-, hmax, -⟩ := modulus_spec hlegal .tx
  rw [BitVec.toNat_ofNat]
  exact Nat.mod_eq_of_lt (by omega)

/-! ## The edge -/

/-- What an EV edge does to TX: k bytes leave the ring and are counted as completed, and either the packet in flight
with them, or a packet is handed over, or neither (41_transmit.md R131 to R133). -/
structure State.EvMoves (k : Nat) (s t : State) : Prop where
  pops : s.Pops .tx k t
  completed : t.ev.txCompleted = s.ev.txCompleted + BitVec.ofNat 32 k
  wire : wireBytes t.out ++ (s.content .tx).drop (k + t.ev.txSize.toNat) =
    wireBytes s.out ++ (s.content .tx).drop s.ev.txSize.toNat
  flight : t.ev.txSize = 0 ∨ (k = 0 ∧ t.ev.txSize.toNat ≤ s.consView .tx ∧
    t.ev.txSize.toNat ≤ s.span .tx (s.idx .tx (s.rptr .tx)) ∧ t.ev.txSize.toNat ≤ s.cfg.ceil)

theorem txLaunch_moves {s : State} (hlegal : s.cfg.legal = true) (htx : s.FifoInv .tx) (hlaunch : s.launchEn = true) :
    s.EvMoves 0 s.txLaunch := by
  obtain ⟨-, hidle, -⟩ := (launchEn_iff s).mp hlaunch
  obtain ⟨hview, hspan, hceil⟩ := clampMux_le s
  obtain ⟨hcount, -, -⟩ := views_bracket_count hlegal htx
  have hsize : s.txLaunch.ev.txSize.toNat = s.clampMux := clampMux_toNat hlegal htx
  refine ⟨.zero rfl (fits_rptr htx) rfl, (BitVec.add_zero _).symm, ?_, .inr ⟨rfl, ?_, ?_, ?_⟩⟩
  · rw [hsize, hidle, txLaunch_out, ← content_take (hview.trans hcount), wireBytes_append, List.append_assoc]
    simp [wireBytes]
  all_goals rwa [hsize]

theorem State.Retires.moves {k : Nat} {s t : State} (hflight : s.FlightInv) (h : s.Retires k t) : s.EvMoves k t := by
  refine ⟨h.pops, h.completed, ?_, ?_⟩
  · rw [h.wire]
    rcases h.flight with ⟨hk, hsize⟩ | ⟨hk, hsize⟩ <;> rw [hk, hsize]
    · rw [Nat.zero_add]
    · rfl
  · rcases h.flight with ⟨hk, hsize⟩ | ⟨-, hsize⟩ <;> rw [hsize]
    · exact .inr ⟨hk, hflight⟩
    · exact .inl rfl

theorem evEdge_moves (answer : List Byte) {s : State} (hring : s.RingInv) : ∃ k, s.EvMoves k (s.evEdge answer) := by
  have ⟨hlegal, _, _, _, htx, hflight, _, _⟩ := hring
  have hpost : ∃ k, s.EvMoves k (s.evSequencer answer) := by
    rcases evSequencer_launches_or_retires answer hring with ⟨hlaunch, e⟩ | ⟨k, hk⟩
    · exact ⟨0, by rw [e]; exact txLaunch_moves hlegal htx hlaunch⟩
    · exact ⟨k, hk.moves hflight⟩
  obtain ⟨k, h⟩ := hpost
  exact ⟨k, ⟨h.pops.cfg, h.pops.view, h.pops.rptr⟩, h.completed, h.wire, h.flight⟩

theorem evEdge_drains (answer : List Byte) {s : State} (hring : s.RingInv) : s.Drains answer (s.evEdge answer) := by
  obtain ⟨⟨bytes, h, hsource⟩, hquota⟩ := evSequencer_drains answer hring
  exact ⟨⟨bytes, ⟨h.cfg, h.free, h.span, h.wptr, h.mem⟩, hsource⟩, hquota⟩

/-- EV consumes TX and produces RX (10_state.md R20, 40_ringbuffer.md R109). -/
theorem evEdge_ringEdges (answer : List Byte) (s : State) :
    s.ConsumerEdge .tx (s.evEdge answer) ∧ s.ProducerEdge .rx (s.evEdge answer) := by
  have hfg := evEdge_fg answer s
  have hmemTx : (s.evEdge answer).memTx = s.memTx := by rw [(evWrites_evEdge answer s).frame]
  exact ⟨⟨rfl, rfl, congrArg FgDomain.wptrTx hfg, congrArg FgDomain.wpubTx hfg, congrArg FgDomain.rsyncTx hfg, hmemTx⟩,
    ⟨rfl, rfl, congrArg FgDomain.rptrRx hfg, congrArg FgDomain.rpubRx hfg, congrArg FgDomain.wsyncRx hfg⟩⟩

end Sys2Proof.Machine
end

section
/-! Every step keeps the rings in order (20_memory.md R66, R75). -/

namespace Sys2Proof.Machine

/-! ## The write side of a taken command -/

/-- The operands of a write and of FLUSH are those of the word, and a source list has SIZE bytes (30_encoding.md R80,
R83). -/
def FromWord (w : Word) : Instr → Prop
  | .write1 ctx _ => ctx = cmdCtx w
  | .writeb ctx size source => ctx = cmdCtx w ∧ source.length = size.toNat
  | .flush ctx => ctx = cmdCtx w
  | _ => True

theorem decodeOp_fromWord {w : Word} {data : List Byte} {i : Instr} (h : decodeOp w data = .ok i) : FromWord w i := by
  simp only [decodeOp] at h
  split at h
  case h_8 =>
    split at h <;> cases h
    exact ⟨rfl, List.length_take_of_le ‹_›⟩
  all_goals cases h; simp only [FromWord]

theorem decode_fromWord {w : Word} {data : List Byte} {i : Instr} (h : decode w data = .ok i) : FromWord w i := by
  simp only [decode] at h
  split at h
  case h_1 => exact decodeOp_fromWord h
  all_goals cases h; trivial

/-- What a taken command does to the write registers (41_transmit.md R123, R136). -/
inductive State.Begins (w : Word) (s : State) : State → Prop where
  /-- It answers and leaves them. -/
  | answers {u : State} (word : Word) (bytes : List Byte) (h : s.Prepares u) : s.Begins w (u.finishTaken word bytes)
  /-- It begins a write of its accepted count. -/
  | accepts (size : Count) (source : List Byte) (hlen : source.length = size.toNat)
    (hpos : 0 < s.acceptedCount (cmdCtx w) size) :
    s.Begins w (s.acceptWrite (s.acceptedCount (cmdCtx w) size) source)
  /-- It begins a flush wait, from the foreground. -/
  | waits (hctx : cmdCtx w = false) : s.Begins w { s with fg := { s.fg with state := .flushWait } }

theorem beginWrite_begins {w : Word} {size : Count} {source : List Byte} (hlen : source.length = size.toNat)
    (s : State) : s.Begins w (s.beginWrite (cmdCtx w) size source) := by
  rcases beginWrite_cases (cmdCtx w) size source s with ⟨-, e⟩ | ⟨-, hpos, e⟩ <;> rw [e]
  · exact .answers 0 [] .query
  · exact .accepts size source hlen hpos

theorem exec_begins {i : Instr} {w : Word} {s t : State} (hi : FromWord w i) (h : exec i s = .next t) :
    s.Begins w t := by
  cases i
  case write1 ctx data => cases hi; cases h; exact beginWrite_begins rfl s
  case writeb ctx size source => obtain ⟨rfl, hlen⟩ := hi; cases h; exact beginWrite_begins hlen s
  case flush ctx =>
    cases ctx <;> cases h
    · exact .waits hi.symm
    · exact .answers _ _ .query
  case read =>
    simp only [exec, execRead] at h
    split at h <;> cases h
    · exact .answers _ _ .query
    · exact .answers _ _ (.read ‹_›)
  case readb size => cases h; exact .answers _ _ (.readb _ (Nat.min_le_right _ _))
  case setctrl data => cases h; exact .answers _ _ (.setctrl data)
  case illegalOp | illegalRsv1 | illegalRsv2 | illegalRsv3 | illegalRsv4 | illegalRsv5 | illegalRsv6 | illegalRsv7 =>
    cases h; exact .answers _ _ .illegal
  all_goals cases h; exact .answers _ _ .query

/-- The accepted count fits the register that holds it. -/
theorem acceptedCount_lt (ctx : Bool) (size : Count) (s : State) : s.acceptedCount ctx size < 65536 :=
  Nat.lt_of_le_of_lt (acceptedCount_le ctx size s) size.isLt

/-! ## The source bytes -/

/-- `fg_src` has `fg_rem` bytes (10_state.md R37). -/
abbrev State.SourceFits (s : State) : Prop := s.fg.src.length = s.fg.rem.toNat

theorem exec_sourceFits {i : Instr} {w : Word} {s t : State} (hi : FromWord w i) (hs : s.SourceFits)
    (h : exec i s = .next t) : t.SourceFits := by
  cases exec_begins hi h with
  | answers word bytes hu =>
    obtain ⟨p, c, st, b, rfl⟩ := hu.eq_update
    rw [State.SourceFits, finishTaken_fg_src, finishTaken_fg_rem]
    exact hs
  | accepts size source hlen =>
    have hle := acceptedCount_le (cmdCtx w) size s
    rw [State.SourceFits, acceptWrite_fg_src, acceptWrite_fg_rem, List.length_take_of_le (by omega),
      BitVec.toNat_ofNat, Nat.mod_eq_of_lt (acceptedCount_lt ..)]
  | waits => exact hs

/-- What is pushed is taken from the remaining bytes. -/
theorem rem_sub_pushLength (s : State) :
    (s.fg.rem - BitVec.ofNat 16 s.pushLength).toNat = s.fg.rem.toNat - s.pushLength := by
  obtain ⟨hrem, -, -⟩ := pushLength_le s
  have hn : (BitVec.ofNat 16 s.pushLength).toNat = s.pushLength := by
    rw [BitVec.toNat_ofNat, Nat.mod_eq_of_lt (by omega)]
  rw [BitVec.toNat_sub_of_le (by rw [BitVec.le_def, hn]; exact hrem), hn]

theorem fgContinue_sourceFits {s : State} (hring : s.RingInv) : s.fgContinue.SourceFits := by
  have ⟨_, _, _, _, _, _, hsrc, _⟩ := hring
  have hpushed : s.pushed.SourceFits := by
    rw [pushed_eq_update hring]
    change (s.fg.src.drop s.pushLength).length = (s.fg.rem - BitVec.ofNat 16 s.pushLength).toNat
    rw [List.length_drop, rem_sub_pushLength, hsrc]
  rcases fgContinue_cases s with h | h | h | h | ⟨w, h⟩ <;> rw [h]
  · exact hsrc
  · exact hsrc
  · exact hsrc
  · exact hpushed
  · exact hpushed

theorem fgEdge_sourceFits {present : Option HostCmd} {copy : LineState} {s t : State} (hring : s.RingInv)
    (h : s.fgEdge present copy = .next t) : t.SourceFits := by
  obtain ⟨u, hseq, rfl⟩ := fgEdge_cases h
  have hpre : (s.hostPresent present).RingInv := ringInv_hostPresent hring
  have hpost : u.SourceFits := by
    rcases fgSequencer_cases hseq with ⟨-, i, hfetch, hexec⟩ | ⟨-, rfl⟩
    · obtain ⟨-, -, -, -, -, -, hsrc, -⟩ := hpre
      exact exec_sourceFits (s := (s.hostPresent present).portTaken) (decode_fromWord hfetch) hsrc hexec
    · exact fgContinue_sourceFits hpre
  exact hpost

/-! ## The edges -/

theorem fgEdge_ringInv {present : Option HostCmd} {copy : LineState} {s t : State} (hring : s.RingInv)
    (h : s.fgEdge present copy = .next t) : t.RingInv := by
  have ⟨hlegal, hrefused, _, hrx, htx, hflight, _, hquota⟩ := hring
  have hframe := fgEdge_fgWrites h
  obtain ⟨k, bytes, hmoves⟩ := fgEdge_moves hring h
  obtain ⟨hconsumer, hproducer⟩ := fgEdge_ringEdges h
  have hlegal' : t.cfg.legal = true := by rw [hframe]; exact hlegal
  have hrefused' : t.refused = false := by rw [hframe]; exact hrefused
  have hflight' : t.FlightInv := by rw [hframe]; exact hflight
  have hquota' : t.ev.rxTotal.toNat ≤ t.cap .rx := by rw [hframe]; exact hquota
  exact ⟨hlegal', hrefused', fgEdge_faultPre hring h, hmoves.pops.fifoInv hlegal hrx hconsumer,
    hmoves.pushes.fifoInv hlegal htx hproducer, hflight', fgEdge_sourceFits hring h, hquota'⟩

/-- The packet in flight stays covered: the EV view only gains but for a completion, which ends the flight. -/
theorem State.EvMoves.flightInv {k : Nat} {s t : State} (hlegal : s.cfg.legal = true) (htx : s.FifoInv .tx)
    (h : s.EvMoves k t) (hedge : s.ConsumerEdge .tx t) : t.FlightInv := by
  rcases h.flight with hidle | ⟨rfl, hview, hspan, hceil⟩
  · simp only [State.FlightInv, hidle]
    exact ⟨Nat.zero_le _, Nat.zero_le _, Nat.zero_le _⟩
  · have hmore := h.pops.consView hlegal htx hedge
    have hrptr : t.rptr .tx = s.rptr .tx := by rw [h.pops.rptr, ptrAdd_zero (fits_rptr htx)]
    refine ⟨by omega, ?_, by rwa [h.pops.cfg]⟩
    rwa [span_of_cfg h.pops.cfg, idx_of_cfg h.pops.cfg, hrptr]

theorem evEdge_ringInv (answer : List Byte) {s : State} (hring : s.RingInv) : (s.evEdge answer).RingInv := by
  have ⟨hlegal, hrefused, hfault, hrx, htx, hflight, hsrc, hquota⟩ := hring
  have hframe := (evWrites_evEdge answer s).frame
  obtain ⟨k, hmoves⟩ := evEdge_moves answer hring
  obtain ⟨⟨bytes, hpushes, -⟩, hkeep⟩ := evEdge_drains answer hring
  obtain ⟨hconsumer, hproducer⟩ := evEdge_ringEdges answer s
  have hlegal' : (s.evEdge answer).cfg.legal = true := by rw [hframe]; exact hlegal
  have hrefused' : (s.evEdge answer).refused = false := by rw [hframe]; exact hrefused
  have hsrc' : (s.evEdge answer).SourceFits := by rw [State.SourceFits, evEdge_fg]; exact hsrc
  exact ⟨hlegal', hrefused', (evEdge_faultPre answer hflight).trans hfault, hpushes.fifoInv hlegal hrx hproducer,
    hmoves.pops.fifoInv hlegal htx hconsumer, hmoves.flightInv hlegal htx hconsumer, hsrc', hkeep hquota⟩

/-- A DEV step writes DEV's signals and handshakes alone (60_exceptions.md R254). -/
theorem devStep_eq_update (signals : DevSignals) (event : Option (BitVec 2)) (s : State) :
    ∃ e o, s.devStep signals event = { s with dev := signals, devEvent := e, devOwes := o } := by
  simp only [State.devStep, State.devPresent]
  split
  · exact ⟨_, _, rfl⟩
  · exact ⟨_, _, rfl⟩

theorem devStep_ringInv (signals : DevSignals) (event : Option (BitVec 2)) {s : State} (hring : s.RingInv) :
    (s.devStep signals event).RingInv := by
  obtain ⟨e, o, h⟩ := devStep_eq_update signals event s
  rw [h]; exact hring

theorem step_ringInv {s t : State} (hring : s.RingInv) (h : step s = .next t) : t.RingInv := by
  have hmove : s.moveTaken.RingInv := hring
  obtain ⟨-, -, ⟨present, copy, -, hedge⟩ | ⟨answer, -, rfl⟩ | ⟨signals, event, -, rfl⟩⟩ := step_cases h
  · exact fgEdge_ringInv hmove hedge
  · exact evEdge_ringInv answer hmove
  · exact devStep_ringInv signals event hmove

/-- Settles O46: each domain's edge keeps the copies of both rings in order, as the consumer of one and the producer of
the other; a DEV step touches neither. -/
theorem stepKeepsTheRingsInOrder : Obligations.StepKeepsTheRingsInOrder := by
  unfold Obligations.StepKeepsTheRingsInOrder
  intro s hring
  have ⟨_, hrefused, hfault, _⟩ := hring
  obtain ⟨t, h⟩ := (step_next_iff s).mpr ⟨hrefused, hfault⟩
  exact ⟨t, h, step_ringInv hring h⟩

end Sys2Proof.Machine
end

section
/-! The bytes of each FIFO leave it in the order in which they entered (20_memory.md R74). -/

namespace Sys2Proof.Machine

theorem content_length (f : Fifo) (s : State) : (s.content f).length = s.count f := memRead_length ..

/-- An answer puts nothing on the wire. -/
theorem wireBytes_of_answers {s t : State} (h : s.AnswersAtMostOnce t) : wireBytes t.out = wireBytes s.out := by
  rcases h with e | ⟨w, bytes, e⟩ <;> rw [e]
  rw [wireBytes_append]
  exact List.append_nil _

/-! ## TX -/

/-- What is on the wire and then what is queued and in no packet yet: the stream DEV is given. -/
def State.txStream (s : State) : List Byte := wireBytes s.out ++ s.unsent

/-- An FG edge adds what it pushes, behind the packet in flight. -/
theorem fgEdge_txStream {present : Option HostCmd} {copy : LineState} {s t : State} (hring : s.RingInv)
    (hmem : s.MemInv) (h : s.fgEdge present copy = .next t) :
    t.txStream = s.txStream ++ s.fg.src.take (ptrSub (s.modulus .tx) t.fg.wptrTx s.fg.wptrTx) := by
  have ⟨hlegal, _, _, _, htx, ⟨hview, _⟩, _, _⟩ := hring
  obtain ⟨-, -, hcells⟩ := hmem
  obtain ⟨k, bytes, hmoves⟩ := fgEdge_moves hring h
  obtain ⟨-, hproducer⟩ := fgEdge_ringEdges h
  have hsize : t.ev.txSize = s.ev.txSize := by rw [fgEdge_fgWrites h]
  have hcontent := hmoves.pushes.content hlegal htx hcells hproducer.rptr
  have hadvance : ptrSub (s.modulus .tx) t.fg.wptrTx s.fg.wptrTx = bytes.length := hmoves.pushes.advance hlegal htx
  have hcovered : s.ev.txSize.toNat ≤ (s.content .tx).length := by
    rw [content_length]; exact hview.trans (views_bracket_count hlegal htx).1
  rw [hadvance, ← hmoves.source, State.txStream, State.txStream, State.unsent, State.unsent,
    wireBytes_of_answers (fgEdge_answersAtMostOnce h), hsize, hcontent, List.drop_append_of_le_length hcovered,
    List.append_assoc]

/-- An EV edge moves bytes from the queue to the wire, or takes from the ring what is on the wire. -/
theorem evEdge_txStream (answer : List Byte) {s : State} (hring : s.RingInv) :
    (s.evEdge answer).txStream = s.txStream := by
  have ⟨hlegal, _, _, _, htx, _, _, _⟩ := hring
  obtain ⟨k, hmoves⟩ := evEdge_moves answer hring
  obtain ⟨hconsumer, -⟩ := evEdge_ringEdges answer s
  rw [State.txStream, State.txStream, State.unsent, State.unsent,
    hmoves.pops.content hlegal htx hconsumer.wptr hconsumer.mem, List.drop_drop, hmoves.wire]

theorem devStep_txStream (signals : DevSignals) (event : Option (BitVec 2)) (s : State) :
    (s.devStep signals event).txStream = s.txStream := by
  obtain ⟨e, o, h⟩ := devStep_eq_update signals event s
  rw [h]; rfl

/-- Settles O54: a push adds its source bytes behind the packet in flight; a launch and a completion move the border
between wire and queue. -/
theorem txBytesLeaveInTheOrderQueued : Obligations.TxBytesLeaveInTheOrderQueued := by
  unfold Obligations.TxBytesLeaveInTheOrderQueued
  intro s t hring hmem hstep
  have ⟨hlegal, _, _, _, htx, _, _, _⟩ := hring
  have hmove : s.moveTaken.RingInv := hring
  have hstill (h : t.fg.wptrTx = s.fg.wptrTx) (hstream : t.txStream = s.txStream) :
      t.txStream = s.txStream ++ s.fg.src.take (ptrSub (s.modulus .tx) t.fg.wptrTx s.fg.wptrTx) := by
    have hzero : ptrSub (s.modulus .tx) s.fg.wptrTx s.fg.wptrTx = 0 := ptrSub_self (fits_wptr htx)
    rw [h, hzero, hstream, List.take_zero, List.append_nil]
  obtain ⟨-, -, ⟨present, copy, -, hedge⟩ | ⟨answer, -, rfl⟩ | ⟨signals, event, -, rfl⟩⟩ := step_cases hstep
  · exact fgEdge_txStream (s := s.moveTaken) hmove hmem hedge
  · exact hstill (by rw [evEdge_fg]; rfl) (evEdge_txStream answer hmove)
  · exact hstill (by rw [devStep_fg]; rfl) (devStep_txStream signals event _)

/-! ## RX -/

/-- An EV edge appends what DEV delivered. -/
theorem evEdge_rxContent (answer : List Byte) {s : State} (hring : s.RingInv) (hmem : s.MemInv) :
    (s.evEdge answer).content .rx =
      s.content .rx ++ answer.take (ptrSub (s.modulus .rx) (s.evEdge answer).ev.wptrRx s.ev.wptrRx) := by
  have ⟨hlegal, _, _, hrx, _, _, _, _⟩ := hring
  obtain ⟨-, hcells, -⟩ := hmem
  obtain ⟨⟨bytes, hpushes, hsource⟩, -⟩ := evEdge_drains answer hring
  obtain ⟨-, hproducer⟩ := evEdge_ringEdges answer s
  have hadvance : ptrSub (s.modulus .rx) (s.evEdge answer).ev.wptrRx s.ev.wptrRx = bytes.length :=
    hpushes.advance hlegal hrx
  rw [hadvance, ← hsource]
  exact hpushes.content hlegal hrx hcells hproducer.rptr

/-- An FG edge takes from the front what it answers. -/
theorem fgEdge_rxContent {present : Option HostCmd} {copy : LineState} {s t : State} (hring : s.RingInv)
    (h : s.fgEdge present copy = .next t) :
    let k := ptrSub (s.modulus .rx) t.fg.rptrRx s.fg.rptrRx
    t.content .rx = (s.content .rx).drop k ∧ s.AnswersFront k t := by
  have ⟨hlegal, _, _, hrx, _, _, _, _⟩ := hring
  obtain ⟨k, bytes, hmoves⟩ := fgEdge_moves hring h
  obtain ⟨hconsumer, -⟩ := fgEdge_ringEdges h
  have hadvance : ptrSub (s.modulus .rx) t.fg.rptrRx s.fg.rptrRx = k := hmoves.pops.advance hlegal hrx
  rw [hadvance]
  exact ⟨hmoves.pops.content hlegal hrx hconsumer.wptr hconsumer.mem, hmoves.answers⟩

theorem devStep_rxContent (signals : DevSignals) (event : Option (BitVec 2)) {s : State} (hring : s.RingInv) :
    let k := ptrSub (s.modulus .rx) (s.devStep signals event).fg.rptrRx s.fg.rptrRx
    (s.devStep signals event).content .rx = (s.content .rx).drop k ∧ s.AnswersFront k (s.devStep signals event) := by
  obtain ⟨-, -, -, hrx, -, -, -, -⟩ := hring
  have hzero : ptrSub (s.modulus .rx) s.fg.rptrRx s.fg.rptrRx = 0 := ptrSub_self (fits_rptr hrx)
  obtain ⟨e, o, h⟩ := devStep_eq_update signals event s
  rw [devStep_fg, hzero]
  exact ⟨by rw [h]; rfl, .zero s _⟩

/-- Settles O55: EV is the producer of RX and pushes DEV's bytes; FG is its consumer and answers the bytes it pops. -/
theorem rxBytesArriveInTheOrderReceived : Obligations.RxBytesArriveInTheOrderReceived := by
  unfold Obligations.RxBytesArriveInTheOrderReceived
  intro s t hring hmem hstep
  have hmove : s.moveTaken.RingInv := hring
  obtain ⟨-, -, ⟨present, copy, hnext, hedge⟩ | ⟨answer, hnext, rfl⟩ | ⟨signals, event, hnext, rfl⟩⟩ :=
    step_cases hstep
  · exact ⟨fun answer h => (nomatch hnext.symm.trans h), fun _ => fgEdge_rxContent (s := s.moveTaken) hmove hedge⟩
  · refine ⟨fun answer' h => ?_, fun h => absurd hnext (h answer)⟩
    rw [hnext] at h
    cases h
    exact evEdge_rxContent answer hmove hmem
  · exact ⟨fun answer h => (nomatch hnext.symm.trans h), fun _ => devStep_rxContent (s := s.moveTaken) signals event hmove⟩

end Sys2Proof.Machine
end

section
/-! Every step keeps the transmit totals: the accepted-total handshake, the bookkeeping of the FG sequencer and the ledger
of accepted, completed and queued bytes (20_memory.md R76, 41_transmit.md R128, R139, 45_cdc.md R226 to R228). -/

namespace Sys2Proof.Machine

/-! ## The toggles of the handshake -/

@[simp] theorem toggleDiff_self (a : Bool) : toggleDiff a a = 0 := if_pos rfl

theorem toggleDiff_ne {a b : Bool} (h : a ≠ b) : toggleDiff a b = 1 := if_neg h

theorem toggleDiff_triangle (a b c : Bool) : toggleDiff a c ≤ toggleDiff a b + toggleDiff b c := by
  revert a b c; decide

/-- A toggle that changes at most once along its way and ends as it began has not changed at all. -/
theorem toggles_at_rest {s : State} (h : s.toggleChanges ≤ 1) (hack : s.fg.ack.s2 = s.fg.accReq) :
    s.ev.req.s1 = s.fg.accReq ∧ s.ev.req.s2 = s.fg.accReq ∧ s.ev.accAck = s.fg.accReq ∧
      s.fg.ack.s1 = s.fg.accReq := by
  have hbits : ∀ a b c d e : Bool, toggleDiff a b + toggleDiff b c + toggleDiff c d + toggleDiff d e + toggleDiff e a ≤ 1 →
      b = a ∧ c = a ∧ d = a ∧ e = a := by decide
  rw [State.toggleChanges, hack] at h
  exact hbits _ _ _ _ _ h

theorem ackEnabled_iff (s : State) : s.ackEnabled = true ↔ s.ev.req.s2 ≠ s.ev.accAck := bne_iff_ne

/-- ACK leaves the acknowledge at the synchronised request, whether it captures or not (45_cdc.md R227). -/
theorem evEdge_accAck (answer : List Byte) (s : State) : (s.evEdge answer).ev.accAck = s.ev.req.s2 := by
  rw [State.evEdge, evCrossings_ev_accAck]
  split
  · rfl
  · rename_i hsame
    exact (not_not.mp (mt (ackEnabled_iff s).mpr hsame)).symm

/-! ## The ledger -/

/-- The accepted total as the completed one and a count of bytes. -/
theorem ledgerInv_iff (s : State) :
    s.LedgerInv ↔ s.fg.accBin = s.ev.txCompleted + BitVec.ofNat 32 (s.count .tx + s.fg.rem.toNat) := by
  have hrem : s.fg.rem.zeroExtend 32 = BitVec.ofNat 32 s.fg.rem.toNat :=
    BitVec.eq_of_toNat_eq (by simp)
  rw [State.LedgerInv, hrem, BitVec.ofNat_add, BitVec.add_assoc]

/-- Settles O49: before the acknowledge EV's copy of the accepted total lacks the bytes to push, and after it has them;
the rest is the ledger, and the counts are far below 2^32. -/
theorem outstandingTotalCountsAcceptedBytes : Obligations.OutstandingTotalCountsAcceptedBytes := by
  unfold Obligations.OutstandingTotalCountsAcceptedBytes
  rintro s ⟨⟨hlegal, -, -, -, htx, -, -, -⟩, -, ⟨-, -, hcopied, hpending⟩, hledger⟩
  obtain ⟨-, hcount, hprod⟩ := views_bracket_count hlegal htx
  obtain ⟨-, hcap, -⟩ := modulus_spec hlegal .tx
  have hrem := s.fg.rem.isLt
  have htotal {n : Nat} (hn : n < 2 ^ 32) (h : s.ev.accEv = s.ev.txCompleted + BitVec.ofNat 32 n) :
      s.txTotal.toNat = n := by
    rw [State.txTotal, h, BitVec.add_comm, BitVec.add_sub_cancel, BitVec.toNat_ofNat, Nat.mod_eq_of_lt hn]
  split
  · rename_i hacked
    exact htotal (by omega) ((hcopied hacked).trans ((ledgerInv_iff s).mp hledger))
  · rename_i hwaits
    refine htotal (by omega) ?_
    rw [Nat.add_zero]
    exact (BitVec.add_left_inj _).mp ((hpending hwaits).symm.trans hledger)

/-! ## What an FG edge does to the write in progress -/

/-- No write begins: the write in progress, if there is one, waits, pushes bytes or ends (41_transmit.md R124 to R127). -/
structure State.Continues (bytes : List Byte) (s t : State) : Prop where
  rem : t.fg.rem.toNat + bytes.length = s.fg.rem.toNat
  word : t.fg.word = s.fg.word
  accBin : t.fg.accBin = s.fg.accBin
  accReq : t.fg.accReq = s.fg.accReq
  writing : t.fg.rem ≠ 0 ↔ t.writing
  resume : t.fg.resume = true → s.fg.resume = true ∧ t.writing
  waits : t.fg.state = .waitAck → s.fg.state = .waitAck ∧ bytes = []
  acked : t.fg.state ≠ .waitAck → s.fg.ack.s2 = s.fg.accReq

/-- A write of n bytes begins where none is in progress (41_transmit.md R123, R141). -/
structure State.Accepts (n : Nat) (s t : State) : Prop where
  rest : ¬s.writing
  pos : 0 < n
  rem : t.fg.rem.toNat = n
  state : t.fg.state = .waitAck
  accBin : t.fg.accBin = s.fg.accBin + BitVec.ofNat 32 n
  accReq : t.fg.accReq = !s.fg.accReq
  resume : t.fg.resume = true → cmdCtx t.fg.word = true
  fits : cmdCtx t.fg.word = true → n ≤ s.availableToWrite .tx

theorem count_ne_zero_iff (n : Count) : n ≠ 0 ↔ 0 < n.toNat := by
  rw [Nat.pos_iff_ne_zero, ne_eq, ← BitVec.toNat_inj]; rfl

theorem writing_of_eq {s t : State} (h : t.fg.state = s.fg.state) : t.writing ↔ s.writing := by
  rw [State.writing, State.writing, h]

/-- Only the sequencer's state moves, and not into or out of a write. -/
theorem State.Continues.of_state {s t : State} (hseq : s.SequencerInv)
    (hregs : t.fg.rem = s.fg.rem ∧ t.fg.word = s.fg.word ∧ t.fg.accBin = s.fg.accBin ∧ t.fg.accReq = s.fg.accReq ∧
      t.fg.resume = s.fg.resume)
    (hwriting : t.writing ↔ s.writing) (hwaits : t.fg.state = .waitAck → s.fg.state = .waitAck)
    (hacked : t.fg.state ≠ .waitAck → s.fg.ack.s2 = s.fg.accReq) : s.Continues [] t := by
  obtain ⟨hrem, hword, haccBin, haccReq, hresume⟩ := hregs
  obtain ⟨hbytes, hflush, -⟩ := hseq
  exact ⟨by rw [hrem]; rfl, hword, haccBin, haccReq, by rw [hrem, hwriting]; exact hbytes,
    fun h => ⟨hresume ▸ h, hwriting.mpr (hflush (hresume ▸ h)).1⟩, fun h => ⟨hwaits h, rfl⟩, hacked⟩

/-- Outside the wait every request is acknowledged (45_cdc.md R228). -/
theorem acked_of_ne_waitAck {s : State} (hhand : s.HandshakeInv) (h : s.fg.state ≠ .waitAck) :
    s.fg.ack.s2 = s.fg.accReq := by
  obtain ⟨-, hrest, -, -⟩ := hhand
  exact hrest h

/-- Nothing of the write in progress moves. -/
theorem State.Continues.of_eq {s t : State} (hseq : s.SequencerInv) (hhand : s.HandshakeInv)
    (hregs : t.fg.rem = s.fg.rem ∧ t.fg.word = s.fg.word ∧ t.fg.accBin = s.fg.accBin ∧ t.fg.accReq = s.fg.accReq ∧
      t.fg.resume = s.fg.resume)
    (hstate : t.fg.state = s.fg.state) : s.Continues [] t :=
  .of_state hseq hregs (writing_of_eq hstate) (fun h => hstate ▸ h) (fun h => acked_of_ne_waitAck hhand (hstate ▸ h))

section
variable {s : State} (hseq : s.SequencerInv)
include hseq

/-- A preempting write is pending in no state but that of a write (41_transmit.md R141). -/
theorem resume_eq_false (h : ¬s.writing) : s.fg.resume = false := by
  obtain ⟨-, hflush, -⟩ := hseq
  exact Bool.eq_false_iff.mpr fun hresume => h (hflush hresume).1

theorem rem_eq_zero (h : ¬s.writing) : s.fg.rem = 0 := by
  obtain ⟨hbytes, -, -⟩ := hseq
  exact not_not.mp (mt hbytes.mp h)

end

theorem not_writing_of_idle {s : State} (h : s.fg.state = .idle) : ¬s.writing := by simp [State.writing, h]

theorem not_writing_of_flushWait {s : State} (h : s.fg.state = .flushWait) : ¬s.writing := by simp [State.writing, h]

/-- A command taken outside IDLE is an interrupt-context one, and it finds a flush wait or no free space (41_transmit.md
R141). -/
theorem takesCommand_cases {s : State} (h : s.takesCommand = true) :
    s.fg.state = .idle ∨
      (cmdCtx s.port.cmd = true ∧
        ((s.fg.state = .push ∧ s.availableToWrite .tx = 0) ∨ s.fg.state = .flushWait)) := by
  simp only [State.takesCommand, State.cmdReady, Bool.and_eq_true, Bool.or_eq_true, decide_eq_true_eq,
    preemptOk_iff] at h
  obtain ⟨-, hidle | ⟨hctx, -, hheld⟩⟩ := h
  · exact .inl hidle
  · exact .inr ⟨hctx, hheld⟩

/-- In interrupt context no more is accepted than the view has free (41_transmit.md R123). -/
theorem acceptedCount_le_free {ctx : Bool} (hctx : ctx = true) (size : Count) (s : State) :
    s.acceptedCount ctx size ≤ s.availableToWrite .tx := by
  simp only [State.acceptedCount, hctx, Bool.true_or, if_true]
  exact Nat.min_le_right _ _

theorem acceptWrite_accepts {size : Count} (source : List Byte) {s : State} (hseq : s.SequencerInv)
    (htake : s.takesCommand = true) (hpos : 0 < s.acceptedCount (cmdCtx s.port.cmd) size) :
    s.Accepts (s.acceptedCount (cmdCtx s.port.cmd) size)
      (s.portTaken.acceptWrite (s.acceptedCount (cmdCtx s.port.cmd) size) source) := by
  have hfits := acceptedCount_le_free (s := s) (ctx := cmdCtx s.port.cmd) (size := size)
  have hrem : (BitVec.ofNat 16 (s.acceptedCount (cmdCtx s.port.cmd) size)).toNat =
      s.acceptedCount (cmdCtx s.port.cmd) size := by
    rw [BitVec.toNat_ofNat, Nat.mod_eq_of_lt (acceptedCount_lt ..)]
  rcases takesCommand_cases htake with hidle | ⟨hctx, ⟨-, hfull⟩ | hflush⟩
  · have hrest := not_writing_of_idle hidle
    refine ⟨hrest, hpos, hrem, rfl, rfl, rfl, fun h => ?_, fun h => hfits h⟩
    rw [acceptWrite_fg_resume, portTaken_fg, resume_eq_false hseq hrest, hidle] at h
    cases h
  · have := hfits hctx
    omega
  · exact ⟨not_writing_of_flushWait hflush, hpos, hrem, rfl, rfl, rfl, fun _ => hctx, fun h => hfits h⟩

/-- A command taken at an edge leaves the write in progress, or begins one. -/
theorem takenCommand_writes {i : Instr} {s t : State} (hseq : s.SequencerInv) (hhand : s.HandshakeInv)
    (htake : s.takesCommand = true) (hfetch : s.fetch = .ok i) (hexec : exec i s.portTaken = .next t) :
    s.Continues [] t ∨ ∃ n, s.Accepts n t := by
  cases exec_begins (decode_fromWord hfetch) hexec with
  | @answers u word bytes hu =>
    obtain ⟨p, c, st, b, hu⟩ := hu.eq_update
    have hfg : u.fg = { s.fg with rptrRx := p, ctrl := c, status := st } := by rw [hu]; rfl
    have hrest : u.fg.state = .idle → u.fg.resume = false := by
      rw [hfg]
      exact fun hidle => resume_eq_false hseq (not_writing_of_idle hidle)
    rw [finishTaken_eq_emit hrest]
    exact .inl (.of_eq hseq hhand (by rw [emit_fg, hfg]; exact ⟨rfl, rfl, rfl, rfl, rfl⟩) (by rw [emit_fg, hfg]))
  | accepts size source hlen hpos => exact .inr ⟨_, acceptWrite_accepts source hseq htake hpos⟩
  | waits hctx =>
    rcases takesCommand_cases htake with hidle | ⟨hctx', -⟩
    · refine .inl (.of_state hseq ⟨rfl, rfl, rfl, rfl, rfl⟩ ?_ (fun h => by cases h) fun _ => ?_)
      · exact iff_of_false (not_writing_of_flushWait rfl) (not_writing_of_idle hidle)
      · exact acked_of_ne_waitAck hhand (by rw [hidle]; exact FgState.noConfusion)
    · rw [hctx] at hctx'; cases hctx'

/-- A push edge takes its span from the remaining bytes, and the write ends when none are left (41_transmit.md R125,
R126). -/
theorem pushStep_continues {s : State} (hring : s.RingInv) (hseq : s.SequencerInv) (hhand : s.HandshakeInv)
    (hstate : s.fg.state = .push) : ∃ bytes, s.Continues bytes s.pushStep ∧ s.Pushes .tx bytes s.pushStep := by
  have ⟨_, _, _, _, htx, _, _, _⟩ := hring
  obtain ⟨hpushed, -, -⟩ := pushLength_le s
  have hlen := length_take_pushLength hring
  have hacked : s.fg.ack.s2 = s.fg.accReq := acked_of_ne_waitAck hhand (by rw [hstate]; exact FgState.noConfusion)
  have hrem : (s.fg.rem - BitVec.ofNat 16 s.pushLength).toNat + (s.fg.src.take s.pushLength).length =
      s.fg.rem.toNat := by
    rw [rem_sub_pushLength, hlen]; omega
  have hpushes := pushed_pushes hring
  rcases pushStep_cases s with ⟨-, h⟩ | ⟨-, hmore, h⟩ | ⟨-, hnone, h⟩ <;> rw [h]
  · exact ⟨[], .of_eq hseq hhand ⟨rfl, rfl, rfl, rfl, rfl⟩ rfl, .nil rfl (fits_wptr htx) rfl rfl⟩
  · change ∃ bytes, s.Continues bytes s.pushed ∧ s.Pushes .tx bytes s.pushed
    refine ⟨_, ?_, hpushes⟩
    rw [pushed_eq_update hring]
    have hwriting : s.writing := .inr hstate
    exact ⟨hrem, rfl, rfl, rfl, iff_of_true hmore hwriting, fun h => ⟨h, hwriting⟩,
      fun h => (nomatch hstate.symm.trans h), fun _ => hacked⟩
  · change ∃ bytes, s.Continues bytes (s.pushed.finishHeld _ []) ∧ s.Pushes .tx bytes (s.pushed.finishHeld _ [])
    refine ⟨_, ?_, hpushes.finishHeld _ _⟩
    rw [pushed_eq_update hring]
    have hends : ∀ resume : Bool, (if resume then FgState.flushWait else .idle) ≠ .waitAck ∧
        (if resume then FgState.flushWait else .idle) ≠ .push := by decide
    obtain ⟨hwait, hpush⟩ := hends s.fg.resume
    exact ⟨hrem, rfl, rfl, rfl, iff_of_false (fun h => h hnone) (fun h => h.elim hwait hpush),
      fun h => (nomatch h), fun h => absurd h hwait, fun _ => hacked⟩

/-- A held command goes on with its write, if it is one. -/
theorem fgContinue_continues {s : State} (hring : s.RingInv) (hseq : s.SequencerInv) (hhand : s.HandshakeInv) :
    ∃ bytes, s.Continues bytes s.fgContinue ∧ s.Pushes .tx bytes s.fgContinue := by
  have ⟨_, _, _, _, htx, _, _, _⟩ := hring
  have hstays : s.Continues [] s ∧ s.Pushes .tx [] s :=
    ⟨.of_eq hseq hhand ⟨rfl, rfl, rfl, rfl, rfl⟩ rfl, .nil rfl (fits_wptr htx) rfl rfl⟩
  cases hstate : s.fg.state with
  | idle =>
    have e : s.fgContinue = s := by simp only [State.fgContinue, hstate]
    rw [e]
    exact ⟨[], hstays⟩
  | waitAck =>
    have e : s.fgContinue = s.waitAckStep := by simp only [State.fgContinue, hstate]
    rw [e]
    rcases waitAckStep_cases s with ⟨hack, h⟩ | ⟨-, h⟩ <;> rw [h]
    · have hwriting : s.writing := .inl hstate
      exact ⟨[], .of_state hseq ⟨rfl, rfl, rfl, rfl, rfl⟩ (iff_of_true (.inr rfl) hwriting) (fun h => nomatch h)
        (fun _ => hack), .nil rfl (fits_wptr htx) rfl rfl⟩
    · exact ⟨[], hstays⟩
  | push =>
    have e : s.fgContinue = s.pushStep := by simp only [State.fgContinue, hstate]
    rw [e]
    exact pushStep_continues hring hseq hhand hstate
  | flushWait =>
    have e : s.fgContinue = s.flushWaitStep := by simp only [State.fgContinue, hstate]
    rw [e]
    rcases flushWaitStep_cases s with ⟨-, -, h⟩ | ⟨-, h⟩ <;> rw [h]
    · have hrest := not_writing_of_flushWait hstate
      have hresume := resume_eq_false hseq hrest
      have hidle : (s.finishHeld 0 []).fg.state = .idle := by rw [finishHeld_fg, hresume]; rfl
      refine ⟨[], .of_state hseq ⟨rfl, rfl, rfl, rfl, hresume.symm⟩
        (iff_of_false (not_writing_of_idle hidle) hrest) (fun h => nomatch hidle.symm.trans h) (fun _ => ?_),
        .nil rfl (fits_wptr htx) rfl rfl⟩
      exact acked_of_ne_waitAck hhand (by rw [hstate]; exact FgState.noConfusion)
    · exact ⟨[], hstays⟩

/-- An FG edge goes on with the write in progress or begins one; only a write in progress pushes. -/
theorem fgSequencer_writes {s u : State} (hring : s.RingInv) (hseq : s.SequencerInv) (hhand : s.HandshakeInv)
    (h : s.fgSequencer = .next u) :
    (∃ bytes, s.Continues bytes u ∧ s.Pushes .tx bytes u) ∨ ∃ n, s.Accepts n u ∧ s.Pushes .tx [] u := by
  have ⟨_, _, _, _, htx, _, _, _⟩ := hring
  rcases fgSequencer_cases h with ⟨htake, i, hfetch, hexec⟩ | ⟨-, rfl⟩
  · have hp := exec_pushes_nil (s := s.portTaken) (fits_wptr htx) hexec
    have hpushes : s.Pushes .tx [] u := ⟨hp.cfg, hp.free, hp.span, hp.wptr, hp.mem⟩
    rcases takenCommand_writes hseq hhand htake hfetch hexec with hc | ⟨n, ha⟩
    · exact .inl ⟨[], hc, hpushes⟩
    · exact .inr ⟨n, ha, hpushes⟩
  · exact .inl (fgContinue_continues hring hseq hhand)

/-! ## The invariants along an FG edge -/

section
variable {copy : LineState} {bytes : List Byte} {n : Nat} {s u : State} (hring : s.RingInv) (hseq : s.SequencerInv)
  (hhand : s.HandshakeInv)

include hring in
/-- The free space of the FG view loses no more than what is pushed. -/
theorem availableToWrite_fgCrossings (hpush : s.Pushes .tx bytes u)
    (hedge : s.ProducerEdge .tx (State.fgCrossings copy s u)) :
    s.availableToWrite .tx ≤ (State.fgCrossings copy s u).availableToWrite .tx + bytes.length := by
  obtain ⟨hlegal, -, -, -, htx, -, -, -⟩ := hring
  have hpush' : s.Pushes .tx bytes (State.fgCrossings copy s u) :=
    ⟨hpush.cfg, hpush.free, hpush.span, hpush.wptr, hpush.mem⟩
  have hview := hpush'.prodView hlegal htx hedge
  rw [State.availableToWrite, State.availableToWrite, cap_of_cfg hpush'.cfg]
  omega

include hring hseq in
theorem State.Continues.sequencerInv (h : s.Continues bytes u) (hpush : s.Pushes .tx bytes u)
    (hedge : s.ProducerEdge .tx (State.fgCrossings copy s u)) : (State.fgCrossings copy s u).SequencerInv := by
  obtain ⟨hbytes, hflush, hfits⟩ := hseq
  have hfree := availableToWrite_fgCrossings hring hpush hedge
  have hrem := h.rem
  refine ⟨h.writing, fun hresume => ?_, fun hwriting hctx => ?_⟩
  · obtain ⟨hold, hwriting⟩ := h.resume hresume
    exact ⟨hwriting, h.word ▸ (hflush hold).2⟩
  · have hleft : 0 < u.fg.rem.toNat := (count_ne_zero_iff _).mp (h.writing.mpr hwriting)
    have hsome : s.fg.rem ≠ 0 := (count_ne_zero_iff _).mpr (by omega)
    have hroom := hfits (hbytes.mp hsome) (h.word ▸ hctx)
    change u.fg.rem.toNat ≤ _
    omega

include hring in
theorem State.Accepts.sequencerInv (h : s.Accepts n u) (hpush : s.Pushes .tx [] u)
    (hedge : s.ProducerEdge .tx (State.fgCrossings copy s u)) : (State.fgCrossings copy s u).SequencerInv := by
  have hfree := availableToWrite_fgCrossings hring hpush hedge
  have hwriting : u.writing := .inl h.state
  have hsome : u.fg.rem ≠ 0 := (count_ne_zero_iff _).mpr (by rw [h.rem]; exact h.pos)
  refine ⟨iff_of_true hsome hwriting, fun hresume => ⟨hwriting, h.resume hresume⟩, fun _ hctx => ?_⟩
  change u.fg.rem.toNat ≤ _
  rw [h.rem]
  exact (h.fits hctx).trans hfree

include hhand in
/-- The acknowledge moves on to FG; nothing else of the handshake moves. -/
theorem State.Continues.handshakeInv (h : s.Continues bytes u) (hev : u.ev = s.ev) :
    (State.fgCrossings copy s u).HandshakeInv := by
  obtain ⟨hchanges, -, hcopied, hpending⟩ := hhand
  simp only [State.HandshakeInv, State.toggleChanges, fgCrossings_ev, fgCrossings_fg_accReq, fgCrossings_fg_accBin,
    fgCrossings_fg_ack, fgCrossings_fg_state, fgCrossings_fg_rem, syncShift_s1, syncShift_s2, hev, h.accReq, h.accBin]
  have hatRest (hstate : u.fg.state ≠ .waitAck) := toggles_at_rest hchanges (h.acked hstate)
  refine ⟨?_, fun hstate => ?_, hcopied, fun hne => ?_⟩
  · rw [State.toggleChanges] at hchanges
    rw [toggleDiff_self]
    omega
  · obtain ⟨-, -, -, hack1⟩ := hatRest hstate
    exact hack1
  · by_cases hstate : u.fg.state = .waitAck
    · have hrem := h.rem
      rw [(h.waits hstate).2, List.length_nil, Nat.add_zero] at hrem
      rw [BitVec.eq_of_toNat_eq hrem]
      exact hpending hne
    · obtain ⟨-, -, hack, -⟩ := hatRest hstate
      exact absurd hack hne

include hhand in
/-- The request toggles where the handshake is at rest (45_cdc.md R226). -/
theorem State.Accepts.handshakeInv (h : s.Accepts n u) (hev : u.ev = s.ev) :
    (State.fgCrossings copy s u).HandshakeInv := by
  obtain ⟨hchanges, hrest, hcopied, -⟩ := hhand
  obtain ⟨hs1, hs2, hack, hack1⟩ := toggles_at_rest hchanges (hrest fun hw => h.rest (.inl hw))
  have hcount : (BitVec.ofNat 32 n : Word) = u.fg.rem.zeroExtend 32 :=
    BitVec.eq_of_toNat_eq (by simp [← h.rem])
  simp only [State.HandshakeInv, State.toggleChanges, fgCrossings_ev, fgCrossings_fg_accReq, fgCrossings_fg_accBin,
    fgCrossings_fg_ack, fgCrossings_fg_state, fgCrossings_fg_rem, syncShift_s1, syncShift_s2, hev, h.accReq, h.accBin,
    h.state, hs1, hs2, hack, hack1, toggleDiff_self]
  refine ⟨?_, fun hne => absurd rfl hne, fun he => absurd he (by simp), fun _ => ?_⟩
  · rw [toggleDiff_ne (by simp)]
  · rw [hcopied hack, hcount]

end

/-- An FG edge at which the host presents nothing new keeps the totals. -/
theorem fgEdge_none_totalsInv {copy : LineState} {s t : State} (h : s.TotalsInv)
    (hedge : s.fgEdge none copy = .next t) : t.TotalsInv := by
  obtain ⟨hring, hseq, hhand, hledger⟩ := h
  have ⟨hlegal, _, _, _, htx, _, _, _⟩ := hring
  have hring' := fgEdge_ringInv hring hedge
  obtain ⟨-, hproducer⟩ := fgEdge_ringEdges hedge
  have hevEdge : t.ev = s.ev := by rw [fgEdge_fgWrites hedge]
  obtain ⟨u, hsequencer, rfl⟩ := fgEdge_cases hedge
  have hev : u.ev = s.ev := hevEdge
  have hcount {bytes : List Byte} (hp : s.Pushes .tx bytes u) :
      (State.fgCrossings copy s u).count .tx = s.count .tx + bytes.length :=
    State.Pushes.count hlegal htx ⟨hp.cfg, hp.free, hp.span, hp.wptr, hp.mem⟩ hproducer.rptr
  rw [ledgerInv_iff] at hledger
  rcases fgSequencer_writes hring hseq hhand hsequencer with ⟨bytes, hc, hp⟩ | ⟨n, ha, hp⟩
  · refine ⟨hring', hc.sequencerInv hring hseq hp hproducer, hc.handshakeInv hhand hev, ?_⟩
    have hrem := hc.rem
    rw [ledgerInv_iff]
    change u.fg.accBin = u.ev.txCompleted + BitVec.ofNat 32 ((State.fgCrossings copy s u).count .tx + u.fg.rem.toNat)
    rw [hc.accBin, hledger, hev, hcount hp, ← hrem, Nat.add_assoc, Nat.add_comm u.fg.rem.toNat]
  · refine ⟨hring', ha.sequencerInv hring hp hproducer, ha.handshakeInv hhand hev, ?_⟩
    have hnone : s.fg.rem.toNat = 0 := by rw [rem_eq_zero hseq ha.rest]; rfl
    rw [ledgerInv_iff]
    change u.fg.accBin = u.ev.txCompleted + BitVec.ofNat 32 ((State.fgCrossings copy s u).count .tx + u.fg.rem.toNat)
    rw [ha.accBin, hledger, hev, hcount hp, hnone, ha.rem, List.length_nil, Nat.add_zero, BitVec.ofNat_add (x := s.count .tx),
      BitVec.add_assoc]

/-- The host's presentation comes first, and the totals do not depend on the port. -/
theorem fgEdge_totalsInv {present : Option HostCmd} {copy : LineState} {s t : State} (h : s.TotalsInv)
    (hedge : s.fgEdge present copy = .next t) : t.TotalsInv := by
  have hpre : (s.hostPresent present).TotalsInv := by
    obtain ⟨port, hport⟩ := hostPresent_eq_update present s
    rw [hport]; exact h
  exact fgEdge_none_totalsInv hpre hedge

/-! ## The invariants along an EV edge -/

/-- The request moves on to EV, and EV captures the total with the acknowledge (45_cdc.md R227). -/
theorem evEdge_handshakeInv (answer : List Byte) {s : State} (hhand : s.HandshakeInv) :
    (s.evEdge answer).HandshakeInv := by
  obtain ⟨hchanges, hrest, hcopied, hpending⟩ := hhand
  have haccEv : (s.evEdge answer).ev.accEv = if s.ackEnabled then s.fg.accBin else s.ev.accEv := rfl
  have hreq : (s.evEdge answer).ev.req = syncShift s.ev.req s.fg.accReq := rfl
  simp only [State.HandshakeInv, State.toggleChanges, evEdge_fg, evEdge_accAck, haccEv, hreq, syncShift_s1,
    syncShift_s2, toggleDiff_self]
  rw [State.toggleChanges] at hchanges
  have htriangle := toggleDiff_triangle s.ev.req.s2 s.ev.accAck s.fg.ack.s1
  refine ⟨by omega, hrest, fun heq => ?_, fun hne => ?_⟩
  · split
    · rfl
    · rename_i hsame
      have hack : s.ev.req.s2 = s.ev.accAck := not_not.mp (mt (ackEnabled_iff s).mpr hsame)
      exact hcopied (hack.symm.trans heq)
  · have hack : s.ev.req.s2 = s.ev.accAck := by
      by_contra hdiff
      have h1 := toggleDiff_ne hdiff
      have h2 := toggleDiff_ne (Ne.symm hne)
      have h3 := toggleDiff_triangle s.fg.accReq s.ev.req.s1 s.ev.req.s2
      omega
    rw [if_neg fun hack' => (ackEnabled_iff s).mp hack' hack]
    exact hpending (hack ▸ hne)

theorem evEdge_totalsInv (answer : List Byte) {s : State} (h : s.TotalsInv) : (s.evEdge answer).TotalsInv := by
  obtain ⟨hring, hseq, hhand, hledger⟩ := h
  have ⟨hlegal, _, _, _, htx, _, _, _⟩ := hring
  obtain ⟨k, hmoves⟩ := evEdge_moves answer hring
  obtain ⟨hconsumer, -⟩ := evEdge_ringEdges answer s
  have hcount := hmoves.pops.count hlegal htx hconsumer.wptr
  have hseq' : (s.evEdge answer).SequencerInv := by rw [(evWrites_evEdge answer s).frame]; exact hseq
  refine ⟨evEdge_ringInv answer hring, hseq', evEdge_handshakeInv answer hhand, ?_⟩
  rw [ledgerInv_iff] at hledger ⊢
  rw [evEdge_fg, hledger, hmoves.completed, ← hcount, BitVec.add_assoc, ← BitVec.ofNat_add]
  congr 2
  omega

theorem devStep_totalsInv (signals : DevSignals) (event : Option (BitVec 2)) {s : State} (h : s.TotalsInv) :
    (s.devStep signals event).TotalsInv := by
  obtain ⟨e, o, heq⟩ := devStep_eq_update signals event s
  rw [heq]; exact h

/-- Settles O48: an FG edge goes on with the write in progress or begins one from rest; an EV edge moves the request on
and completes what it pops; a DEV step touches neither. -/
theorem stepKeepsTheTransmitTotals : Obligations.StepKeepsTheTransmitTotals := by
  unfold Obligations.StepKeepsTheTransmitTotals
  intro s t h hstep
  have hmove : s.moveTaken.TotalsInv := h
  obtain ⟨-, -, ⟨present, copy, -, hedge⟩ | ⟨answer, -, rfl⟩ | ⟨signals, event, -, rfl⟩⟩ := step_cases hstep
  · exact fgEdge_totalsInv hmove hedge
  · exact evEdge_totalsInv answer hmove
  · exact devStep_totalsInv signals event hmove

end Sys2Proof.Machine
end

section
/-! The command word (30_encoding.md R81 to R88, R93): its fields, what a word decodes to, the bits a command uses, and
the rows of the opcode table. -/

namespace Sys2Proof

/-! ## The fields of a word (R81) -/

theorem ofBool_cmdCtx (w : Word) : BitVec.ofBool (cmdCtx w) = w.extractLsb' 27 1 := by
  ext k
  obtain rfl : k = 0 := by omega
  simp [cmdCtx]

/-- The five fields are adjacent and fill the word. -/
theorem cmdWord_fields (w : Word) : cmdWord (cmdOp w) (cmdCtx w) (cmdRsv w) (cmdData w) (cmdSize w) = w := by
  have hctx : cmdOp w ++ BitVec.ofBool (cmdCtx w) = w.extractLsb' 27 5 := by
    rw [ofBool_cmdCtx]
    exact BitVec.extractLsb'_append_extractLsb'_eq_extractLsb' rfl
  have hrsv : w.extractLsb' 27 5 ++ cmdRsv w = w.extractLsb' 24 8 :=
    BitVec.extractLsb'_append_extractLsb'_eq_extractLsb' rfl
  have hdata : w.extractLsb' 24 8 ++ cmdData w = w.extractLsb' 16 16 :=
    BitVec.extractLsb'_append_extractLsb'_eq_extractLsb' rfl
  rw [cmdWord, hctx, hrsv, hdata]
  exact BitVec.extractLsb'_append_extractLsb'

section
variable (op op' : BitVec 4) (ctx ctx' : Bool) (rsv rsv' : BitVec 3) (data data' : Byte) (size size' : Count)

@[simp] theorem cmdSize_cmdWord : cmdSize (cmdWord op ctx rsv data size) = size :=
  BitVec.extractLsb'_append_eq_right

@[simp] theorem cmdData_cmdWord : cmdData (cmdWord op ctx rsv data size) = data :=
  (BitVec.extractLsb'_append_eq_of_le (by decide)).trans BitVec.extractLsb'_append_eq_right

@[simp] theorem cmdRsv_cmdWord : cmdRsv (cmdWord op ctx rsv data size) = rsv :=
  (BitVec.extractLsb'_append_eq_of_le (by decide)).trans
    ((BitVec.extractLsb'_append_eq_of_le (by decide)).trans BitVec.extractLsb'_append_eq_right)

@[simp] theorem cmdCtx_cmdWord : cmdCtx (cmdWord op ctx rsv data size) = ctx := by
  have h : (op ++ BitVec.ofBool ctx ++ rsv ++ data ++ size).getLsbD 27 = ctx := by
    simp only [BitVec.getLsbD_append]
    simp
  exact h

@[simp] theorem cmdOp_cmdWord : cmdOp (cmdWord op ctx rsv data size) = op := by
  simp only [cmdOp, cmdWord]
  repeat rw [BitVec.extractLsb'_append_eq_of_le (by decide)]
  exact BitVec.extractLsb'_eq_self

theorem cmdWord_inj :
    cmdWord op ctx rsv data size = cmdWord op' ctx' rsv' data' size' ↔
      op = op' ∧ ctx = ctx' ∧ rsv = rsv' ∧ data = data' ∧ size = size' := by
  constructor
  · intro h
    exact ⟨by simpa using congrArg cmdOp h, by simpa using congrArg cmdCtx h, by simpa using congrArg cmdRsv h,
      by simpa using congrArg cmdData h, by simpa using congrArg cmdSize h⟩
  · rintro ⟨rfl, rfl, rfl, rfl, rfl⟩
    rfl

theorem cmdWord_and_cmdWord :
    cmdWord op ctx rsv data size &&& cmdWord op' ctx' rsv' data' size' =
      cmdWord (op &&& op') (ctx && ctx') (rsv &&& rsv') (data &&& data') (size &&& size') := by
  simp only [cmdWord, ← BitVec.ofBool_and_ofBool, ← BitVec.and_append]

end

/-! ## What a word decodes to (R88) -/

/-- The operands of a command are the fields of the word that its row reads, and for WRITEB the first SIZE bytes of the
write data (30_encoding.md R80, R83). -/
def Instr.OperandsOf (w : Word) (data : List Byte) : Instr → Prop
  | .readb size => size = cmdSize w
  | .write1 ctx byte => ctx = cmdCtx w ∧ byte = cmdData w
  | .writeb ctx size source =>
    ctx = cmdCtx w ∧ size = cmdSize w ∧ size.toNat ≤ data.length ∧ source = data.take size.toNat
  | .flush ctx => ctx = cmdCtx w
  | .setctrl byte => byte = cmdData w
  | _ => True

/-- Dispatch on OP gives a legal row or OP = 0xF, with the operands of the word (R88 steps 2 and 3). -/
theorem decodeOp_ok {w : Word} {data : List Byte} {i : Instr} (h : decodeOp w data = .ok i) :
    cmdRsv (encodeWord i) = 0 ∧ cmdOp w = cmdOp (encodeWord i) ∧ i.OperandsOf w data := by
  have hlt := (cmdOp w).isLt
  simp only [decodeOp] at h
  generalize hop : (cmdOp w).toNat = op at h hlt
  interval_cases op
  on_goal 8 => -- OP = 7, WRITEB: the one value with a check of its own
    by_cases hlen : (cmdSize w).toNat ≤ data.length
    · cases (if_pos hlen).symm.trans h
      exact ⟨cmdRsv_cmdWord .., BitVec.eq_of_toNat_eq (by simpa [encodeWord] using hop), rfl, rfl, hlen, rfl⟩
    · cases (if_neg hlen).symm.trans h
  all_goals
    cases h
    exact ⟨cmdRsv_cmdWord .., BitVec.eq_of_toNat_eq (by simpa [encodeWord] using hop), by simp [Instr.OperandsOf]⟩

/-- A word decodes to a command exactly if it has the RSV value of the command's word, its OP value too where RSV is 000,
and its operands. -/
theorem decode_ok_iff (w : Word) (data : List Byte) (i : Instr) :
    decode w data = .ok i ↔
      cmdRsv w = cmdRsv (encodeWord i) ∧ (cmdRsv w = 0 → cmdOp w = cmdOp (encodeWord i)) ∧ i.OperandsOf w data := by
  constructor
  · intro h
    have hlt := (cmdRsv w).isLt
    simp only [decode] at h
    generalize hrsv : (cmdRsv w).toNat = rsv at h hlt
    interval_cases rsv
    · obtain ⟨hrow, hop, hargs⟩ := decodeOp_ok h
      exact ⟨(BitVec.eq_of_toNat_eq hrsv).trans hrow.symm, fun _ => hop, hargs⟩
    all_goals
      cases h
      simp [encodeWord, Instr.OperandsOf, ← BitVec.toNat_inj, hrsv]
  · rintro ⟨hrsv, hop, hargs⟩
    cases i
    case writeb =>
      obtain ⟨rfl, rfl, hlen, rfl⟩ := hargs
      simp only [encodeWord, cmdRsv_cmdWord, cmdOp_cmdWord] at hrsv hop
      simp [decode, decodeOp, hrsv, hop, hlen]
    case readb | write1 | flush | setctrl =>
      simp only [encodeWord, cmdRsv_cmdWord, cmdOp_cmdWord, Instr.OperandsOf] at hrsv hop hargs
      simp [decode, decodeOp, hrsv, hop, hargs]
    all_goals
      simp only [encodeWord, cmdRsv_cmdWord, cmdOp_cmdWord] at hrsv hop
      simp [decode, decodeOp, hrsv, hop]

/-- Settles O1: the encoder writes the command's own row and operands, and a well-formed source list has SIZE bytes. -/
theorem decodeEncodeRoundTrip : Obligations.DecodeEncodeRoundTrip := by
  unfold Obligations.DecodeEncodeRoundTrip
  intro i hwf
  refine (decode_ok_iff ..).2 ⟨rfl, fun _ => rfl, ?_⟩
  cases i
  case writeb ctx size source =>
    have hlen : source.length = size.toNat := by simpa [Instr.wellFormed] using hwf
    simp [encode, encodeWord, encodeSource, Instr.OperandsOf, ← hlen]
  case readb | write1 | flush | setctrl => simp [encode, encodeWord, Instr.OperandsOf]
  all_goals trivial

/-- Settles O4: the decoder evaluated on the nine words. -/
theorem specSampleWordsDecode : Obligations.SpecSampleWordsDecode := by
  unfold Obligations.SpecSampleWordsDecode
  decide

/-! ## The used bits (R83) -/

/-- The mask of whole fields: RSV and, as chosen, OP, CTX, DATA and SIZE. -/
def fieldMask (op ctx data size : Bool) : Word :=
  cmdWord (if op then BitVec.allOnes 4 else 0) ctx (BitVec.allOnes 3) (if data then BitVec.allOnes 8 else 0)
    (if size then BitVec.allOnes 16 else 0)

theorem and_ite_allOnes {n : Nat} (x : BitVec n) (b : Bool) :
    x &&& (if b then BitVec.allOnes n else 0) = if b then x else 0 := by
  cases b <;> simp

theorem and_fieldMask (op ctx data size : Bool) (w : Word) :
    w &&& fieldMask op ctx data size =
      cmdWord (if op then cmdOp w else 0) (cmdCtx w && ctx) (cmdRsv w) (if data then cmdData w else 0)
        (if size then cmdSize w else 0) := by
  conv => lhs; rw [← cmdWord_fields w]
  rw [fieldMask, cmdWord_and_cmdWord, and_ite_allOnes, and_ite_allOnes, and_ite_allOnes, BitVec.and_allOnes]

/-- The command reads CTX. -/
def Instr.readsCtx : Instr → Bool
  | .write1 _ _ | .writeb _ _ _ | .flush _ => true
  | _ => false

/-- The command reads DATA. -/
def Instr.readsData : Instr → Bool
  | .write1 _ _ | .setctrl _ => true
  | _ => false

/-- The command reads SIZE. -/
def Instr.readsSize : Instr → Bool
  | .readb _ | .writeb _ _ _ => true
  | _ => false

/-- A row uses RSV, OP where RSV is 000, and the fields its command reads. -/
theorem usedBits_eq_fieldMask (i : Instr) :
    i.usedBits = fieldMask (decide (cmdRsv (encodeWord i) = 0)) i.readsCtx i.readsData i.readsSize := by
  cases i <;>
    simp only [encodeWord, cmdRsv_cmdWord, Instr.usedBits, Instr.readsCtx, Instr.readsData, Instr.readsSize] <;> decide

/-- The illegal rows of RSV are written with OP 0 (30_encoding.md R87). -/
theorem cmdOp_encodeWord_of_rsv {i : Instr} (h : cmdRsv (encodeWord i) ≠ 0) : cmdOp (encodeWord i) = 0 := by
  cases i <;> simp_all [encodeWord]

/-- The encoder writes the operands into the fields that the command reads, and 0 into the others (30_encoding.md R93). -/
theorem encodeWord_of_operands {w : Word} {data : List Byte} {i : Instr} (h : i.OperandsOf w data) :
    encodeWord i =
      cmdWord (cmdOp (encodeWord i)) (cmdCtx w && i.readsCtx) (cmdRsv (encodeWord i))
        (if i.readsData then cmdData w else 0) (if i.readsSize then cmdSize w else 0) := by
  cases i <;> simp_all [encodeWord, Instr.OperandsOf, Instr.readsCtx, Instr.readsData, Instr.readsSize]

theorem encodeWord_of_decode {w : Word} {data : List Byte} {i : Instr} (h : decode w data = .ok i) :
    encodeWord i = w &&& i.usedBits := by
  obtain ⟨hrsv, hop, hargs⟩ := (decode_ok_iff ..).1 h
  have hop' : (if cmdRsv (encodeWord i) = 0 then cmdOp w else 0) = cmdOp (encodeWord i) := by
    split
    · exact hop (hrsv.trans ‹_›)
    · exact (cmdOp_encodeWord_of_rsv ‹_›).symm
  rw [usedBits_eq_fieldMask, and_fieldMask, hrsv]
  simpa only [decide_eq_true_eq, hop'] using encodeWord_of_operands hargs

/-- Only WRITEB asks for source bytes, and it takes SIZE of them (30_encoding.md R80). -/
theorem encodeSource_of_decode {w : Word} {data : List Byte} {i : Instr} (h : decode w data = .ok i) :
    encodeSource i = data.take (sourceLength w) := by
  obtain ⟨hrsv, hop, hargs⟩ := (decode_ok_iff ..).1 h
  cases i
  case writeb ctx size source =>
    obtain ⟨-, rfl, -, rfl⟩ := hargs
    simp only [encodeWord, cmdRsv_cmdWord, cmdOp_cmdWord] at hrsv hop
    rw [sourceLength, if_pos ⟨hrsv, hop hrsv⟩]
    rfl
  all_goals
    simp only [encodeWord, cmdRsv_cmdWord, cmdOp_cmdWord] at hrsv hop
    simp [encodeSource, sourceLength, hrsv, hop]

theorem wellFormed_of_decode {w : Word} {data : List Byte} {i : Instr} (h : decode w data = .ok i) :
    i.wellFormed = true := by
  have hfrom := Machine.decode_fromWord h
  cases i
  case writeb =>
    obtain ⟨-, hlen⟩ := hfrom
    simpa [Instr.wellFormed] using hlen
  all_goals rfl

/-- Settles O2: the fields that the decoded command does not read are the bits its row does not use. -/
theorem encodeDecodeClearsIgnoredBits : Obligations.EncodeDecodeClearsIgnoredBits := by
  unfold Obligations.EncodeDecodeClearsIgnoredBits
  exact fun _ _ _ h => ⟨encodeWord_of_decode h, encodeSource_of_decode h, wellFormed_of_decode h⟩

/-! ## The opcode table (R88) -/

theorem row_mem_opcodeTable (i : Instr) : i.row ∈ opcodeTable := by
  cases i <;> simp [Instr.row, opcodeTable]

/-- A row fixes RSV, and OP too where RSV is 000 (30_encoding.md R86, R87). -/
theorem row_eq_fields (i : Instr) :
    i.row = ⟨fieldMask (decide (cmdRsv (encodeWord i) = 0)) false false false,
      cmdWord (cmdOp (encodeWord i)) false (cmdRsv (encodeWord i)) 0 0⟩ := by
  cases i <;> simp only [encodeWord, cmdRsv_cmdWord, cmdOp_cmdWord, Instr.row] <;> decide

theorem row_fits_iff (i : Instr) (w : Word) :
    i.row.fits w = true ↔
      cmdRsv w = cmdRsv (encodeWord i) ∧ (cmdRsv w = 0 → cmdOp w = cmdOp (encodeWord i)) := by
  rw [TableRow.fits, beq_iff_eq, row_eq_fields, and_fieldMask, cmdWord_inj]
  simp only [decide_eq_true_eq, Bool.and_false, Bool.false_eq_true, if_false, true_and, and_true]
  rw [and_comm]
  refine and_congr_right fun hrsv => ?_
  rw [hrsv]
  split
  · rename_i hzero
    simp [hzero]
  · rename_i hne
    exact ⟨fun _ hzero => absurd hzero hne, fun _ => (cmdOp_encodeWord_of_rsv hne).symm⟩

theorem row_fits_of_decode {w : Word} {data : List Byte} {i : Instr} (h : decode w data = .ok i) :
    i.row.fits w = true := by
  obtain ⟨hrsv, hop, -⟩ := (decode_ok_iff ..).1 h
  exact (row_fits_iff ..).2 ⟨hrsv, hop⟩

/-- Two rows of the table differ in a bit that both masks keep. -/
theorem opcodeTable_disjoint :
    ∀ r ∈ opcodeTable, ∀ r' ∈ opcodeTable, r.value &&& r'.mask = r'.value &&& r.mask → r = r' := by decide

theorem row_unique {w : Word} {r r' : TableRow} (hr : r ∈ opcodeTable) (hr' : r' ∈ opcodeTable)
    (h : r.fits w = true) (h' : r'.fits w = true) : r = r' := by
  rw [TableRow.fits, beq_iff_eq] at h h'
  refine opcodeTable_disjoint r hr r' hr' ?_
  rw [← h, ← h', BitVec.and_assoc, BitVec.and_assoc, BitVec.and_comm r.mask]

theorem row_mask_of_rsv {i : Instr} (h : cmdRsv (encodeWord i) ≠ 0) : i.row.mask = 0x07000000 := by
  simp only [row_eq_fields, h]
  decide

theorem cmdOp_row_value (i : Instr) : cmdOp i.row.value = cmdOp (encodeWord i) := by
  rw [row_eq_fields, cmdOp_cmdWord]

theorem eq_illegalOp_iff {i : Instr} (h : cmdRsv (encodeWord i) = 0) :
    i = .illegalOp ↔ cmdOp (encodeWord i) = 0xF := by
  cases i <;> simp_all [encodeWord]

/-- Settles O3: the row of the decoded command fits, and no two rows of the table fit one word. -/
theorem everyWordMatchesExactlyOneRow : Obligations.EveryWordMatchesExactlyOneRow := by
  unfold Obligations.EveryWordMatchesExactlyOneRow
  intro w data hlen
  obtain ⟨i, hdecode⟩ := Machine.decode_total w data hlen
  obtain ⟨hrsv, hop, -⟩ := (decode_ok_iff ..).1 hdecode
  have hmem := row_mem_opcodeTable i
  have hfits := row_fits_of_decode hdecode
  refine ⟨i, hdecode, hmem, fun r hr => ⟨fun hr' => row_unique hr hmem hr' hfits, fun e => e ▸ hfits⟩,
    fun hne => row_mask_of_rsv (hrsv ▸ hne), fun hzero hill => ?_, fun hzero hlegal => ⟨?_, fun hill => ?_⟩⟩
  · exact (eq_illegalOp_iff (hrsv ▸ hzero)).2 (hop hzero ▸ hill)
  · exact (cmdOp_row_value i).trans (hop hzero).symm
  · exact hlegal ((hop hzero).trans ((eq_illegalOp_iff (hrsv ▸ hzero)).1 hill))

end Sys2Proof
end

section
/-! The FG command port: when a command on it is taken, and who writes it (30_encoding.md R80, 41_transmit.md R141,
60_exceptions.md R251). -/

namespace Sys2Proof.Machine

/-! ## Taking a command -/

theorem takesCommand_iff (s : State) :
    s.takesCommand = true ↔
      s.port.valid = true ∧
        (s.fg.state = .idle ∨
          (cmdCtx s.port.cmd = true ∧ s.fg.resume = false ∧
            ((s.fg.state = .push ∧ s.availableToWrite .tx = 0) ∨ s.fg.state = .flushWait))) := by
  simp only [State.takesCommand, State.cmdReady, Bool.and_eq_true, Bool.or_eq_true, decide_eq_true_eq, preemptOk_iff]

/-! ## The host's presentation -/

theorem foregroundPending_iff (s : State) :
    s.foregroundPending = true ↔
      s.fg.state = .flushWait ∨
        ((s.fg.state = .waitAck ∨ s.fg.state = .push) ∧ (s.fg.resume = true ∨ cmdCtx s.fg.word = false)) := by
  cases h : s.fg.state <;> simp [State.foregroundPending, h]

theorem mayPresent_iff (c : HostCmd) (s : State) :
    s.mayPresent c = true ↔ s.port.valid = false ∧ (cmdCtx c.word = true ∨ ¬s.foregroundPending = true) := by
  simp [State.mayPresent]

theorem hostPresent_of_mayPresent {c : HostCmd} {s : State} (h : s.mayPresent c = true) :
    s.hostPresent (some c) = { s with port := { valid := true, cmd := c.word, wdata := c.data } } := if_pos h

theorem hostPresent_of_not_mayPresent {c : HostCmd} {s : State} (h : ¬s.mayPresent c = true) :
    s.hostPresent (some c) = s := if_neg h

/-- A command on the port is held, whatever the host would newly present. -/
theorem hostPresent_of_valid {s : State} (present : Option HostCmd) (h : s.port.valid = true) :
    s.hostPresent present = s := by
  cases present with
  | none => rfl
  | some c => exact hostPresent_of_not_mayPresent fun hmay => by simp [mayPresent_iff, h] at hmay

theorem fgEdge_eq_fgEdge_none (present : Option HostCmd) (copy : LineState) (s : State) :
    s.fgEdge present copy = (s.hostPresent present).fgEdge none copy := rfl

/-! ## The port along an edge -/

theorem pushed_port (s : State) : s.pushed.port = s.port := by
  obtain ⟨cells, p, b, hpush⟩ := pushChunk_tx_eq_update s.fg.src s.pushLength s
  rw [State.pushed, hpush]

theorem fgContinue_port (s : State) : s.fgContinue.port = s.port := by
  rcases fgContinue_cases s with h | h | h | h | ⟨w, h⟩ <;> rw [h]
  · exact finishHeld_port ..
  · exact pushed_port s
  · rw [finishHeld_port, pushed_port]

theorem fgSequencer_port {s t : State} (h : s.fgSequencer = .next t) :
    t.port = if s.takesCommand then { s.port with valid := false } else s.port := by
  rcases fgSequencer_cases h with ⟨htakes, i, -, hexec⟩ | ⟨hkeeps, rfl⟩
  · rw [exec_port hexec, portTaken_port, if_pos htakes]
  · rw [fgContinue_port, if_neg (Bool.eq_false_iff.mp hkeeps)]

theorem fgEdge_port {s t : State} {present : Option HostCmd} {copy : LineState} (hvalid : s.port.valid = true)
    (h : s.fgEdge present copy = .next t) :
    t.port = if s.takesCommand then { s.port with valid := false } else s.port := by
  obtain ⟨u, hseq, rfl⟩ := fgEdge_cases h
  rw [hostPresent_of_valid present hvalid] at hseq
  rw [fgCrossings_port]
  exact fgSequencer_port hseq

theorem evEdge_port (answer : List Byte) (s : State) : (s.evEdge answer).port = s.port := by
  rw [(evWrites_evEdge answer s).frame]

/-- Settles O26: the sequencer alone ends a presentation, and the host alone begins one, on an empty port and with no
second foreground command. -/
theorem commandsAreTakenInIdleOrByPreemption : Obligations.CommandsAreTakenInIdleOrByPreemption := by
  unfold Obligations.CommandsAreTakenInIdleOrByPreemption
  refine ⟨takesCommand_iff, fun s t present copy => fgEdge_port,
    fun s c copy hvalid => ⟨fun hctx hpending => ?_, fun hmay => ?_⟩, fun s answer => evEdge_port answer s,
    fun s signals event => devStep_port signals event s⟩
  · rw [fgEdge_eq_fgEdge_none, hostPresent_of_not_mayPresent]
    rw [mayPresent_iff, foregroundPending_iff]
    rintro ⟨-, hinterrupt | hfree⟩
    · exact Bool.false_ne_true (hctx.symm.trans hinterrupt)
    · exact hfree hpending
  · rw [fgEdge_eq_fgEdge_none, hostPresent_of_mayPresent]
    rw [mayPresent_iff, foregroundPending_iff]
    exact ⟨hvalid, hmay⟩

end Sys2Proof.Machine
end

section
/-! The ring-buffer primitives: what a push and a pop move and leave within their precondition, and that beyond it they
only record the model fault (40_ringbuffer.md R103 to R107). -/

namespace Sys2Proof.Machine

/-! ## What the producer and the consumer of a FIFO write -/

@[simp] theorem setProducer_cfg (f : Fifo) (c : List Host.Cell) (p : Ptr) (s : State) :
    (s.setProducer f c p).cfg = s.cfg := by cases f <;> rfl

@[simp] theorem setProducer_mem (f : Fifo) (c : List Host.Cell) (p : Ptr) (s : State) :
    (s.setProducer f c p).mem f = c := by cases f <;> rfl

@[simp] theorem setProducer_wptr (f : Fifo) (c : List Host.Cell) (p : Ptr) (s : State) :
    (s.setProducer f c p).wptr f = p := by cases f <;> rfl

@[simp] theorem setRptr_rptr (f : Fifo) (p : Ptr) (s : State) : (s.setRptr f p).rptr f = p := by cases f <;> rfl

/-- A producer that writes back what is there changes nothing. -/
@[simp] theorem setProducer_self (f : Fifo) (s : State) : s.setProducer f (s.mem f) (s.wptr f) = s := by
  cases f <;> rfl

/-- A consumer that writes back what is there changes nothing. -/
@[simp] theorem setRptr_self (f : Fifo) (s : State) : s.setRptr f (s.rptr f) = s := by cases f <;> rfl

/-! ## An advance over the whole span (40_ringbuffer.md R107) -/

/-- An index and its span make up the array. -/
theorem idx_add_span {s : State} (hlegal : s.cfg.legal = true) (f : Fifo) (p : Ptr) :
    s.idx f p + s.span f (s.idx f p) = s.cap f :=
  Nat.add_sub_cancel' (idx_lt hlegal f p).1.le

/-- An advance to the physical end comes out at index 0. -/
theorem idx_ptrAdd_span {s : State} (hlegal : s.cfg.legal = true) (f : Fifo) (p : Ptr) :
    s.idx f (ptrAdd (s.modulus f) p (s.span f (s.idx f p))) = 0 := by
  rw [idx_ptrAdd hlegal, idx_add_span hlegal, Nat.mod_self]

/-- An advance to the next multiple of `2^aw` flips bit `aw`: the quotient by `2^aw` grows by one. -/
theorem ptrAdd_flips_lapBit {aw : Nat} (h : aw + 1 ≤ 16) (p : Ptr) :
    (ptrAdd (2 ^ (aw + 1)) p (2 ^ aw - ptrIdx aw p)).getLsbD aw = !p.getLsbD aw := by
  have hM : 2 ^ (aw + 1) ≤ 65536 := Nat.pow_le_pow_right (by omega) h
  have hpos : 0 < 2 ^ aw := Nat.two_pow_pos aw
  have hnext : p.toNat + (2 ^ aw - ptrIdx aw p) = 2 ^ aw * (p.toNat / 2 ^ aw + 1) := by
    have hlt := ptrIdx_lt aw p
    have hdiv := Nat.div_add_mod p.toNat (2 ^ aw)
    rw [ptrIdx] at hlt ⊢
    rw [Nat.mul_succ]
    omega
  have hbit : (2 ^ aw * (p.toNat / 2 ^ aw + 1)).testBit aw = !p.toNat.testBit aw := by
    rw [Nat.testBit_eq_decide_div_mod_eq, Nat.testBit_eq_decide_div_mod_eq, Nat.mul_div_cancel_left _ hpos,
      ← decide_not, decide_eq_decide]
    omega
  rw [← BitVec.testBit_toNat, ← BitVec.testBit_toNat, ptrAdd_toNat (Nat.two_pow_pos _) hM, hnext,
    Nat.testBit_mod_two_pow, hbit, decide_eq_true (Nat.lt_succ_self aw), Bool.true_and]

/-- An advance to the physical end flips the lap bit. -/
theorem ptrAdd_span_lapBit {s : State} (hlegal : s.cfg.legal = true) (f : Fifo) (p : Ptr) :
    (ptrAdd (s.modulus f) p (s.span f (s.idx f p))).getLsbD (s.cfg.aw f) = !p.getLsbD (s.cfg.aw f) := by
  obtain ⟨-, -, hcap, -, haw⟩ := Params.legal_spec hlegal f
  rw [State.span, State.cap, ← hcap]
  exact ptrAdd_flips_lapBit haw p

/-! ## A push within its precondition (40_ringbuffer.md R103) -/

theorem cellsWf_mem {s : State} (h : s.MemInv) (f : Fifo) : cellsWf (s.cap f) (s.mem f) = true := by
  obtain ⟨-, hrx, htx⟩ := h
  cases f with
  | rx => exact hrx
  | tx => exact htx

section
variable {f : Fifo} {src : List Byte} {n : Nat} {s : State} (hcan : s.canPush f src n = true)
include hcan

theorem pushChunk_cfg : (s.pushChunk f src n).cfg = s.cfg := by rw [pushChunk_of_canPush hcan, setProducer_cfg]

theorem pushChunk_mem :
    (s.pushChunk f src n).mem f = memWrite (s.cap f) (s.mem f) (s.idx f (s.wptr f)) (src.take n) := by
  rw [pushChunk_of_canPush hcan, setProducer_mem]

theorem pushChunk_wptr : (s.pushChunk f src n).wptr f = ptrAdd (s.modulus f) (s.wptr f) n := by
  rw [pushChunk_of_canPush hcan, setProducer_wptr]

/-- A push writes its array and its pointer alone. -/
theorem pushChunk_frame :
    s.pushChunk f src n = s.setProducer f ((s.pushChunk f src n).mem f) ((s.pushChunk f src n).wptr f) := by
  rw [pushChunk_mem hcan, pushChunk_wptr hcan, pushChunk_of_canPush hcan]

theorem length_take_of_canPush : (src.take n).length = n :=
  List.length_take_of_le ((canPush_iff ..).mp hcan).2.2

/-- The bytes pushed end within the array. -/
theorem idx_add_le_of_canPush (hlegal : s.cfg.legal = true) : s.idx f (s.wptr f) + n ≤ s.cap f := by
  obtain ⟨-, hspan, -⟩ := (canPush_iff ..).mp hcan
  exact (Nat.add_le_add_left hspan _).trans_eq (idx_add_span hlegal f _)

theorem cellRead_pushChunk_inside (hmem : s.MemInv) {k : Nat} (hk : k < n) :
    cellRead ((s.pushChunk f src n).mem f) (s.idx f (s.wptr f) + k) = src.getD k 0 := by
  obtain ⟨-, -, hsrc⟩ := (canPush_iff ..).mp hcan
  have hlen := length_take_of_canPush hcan
  have ⟨hlegal, _, _⟩ := hmem
  have hend := idx_add_le_of_canPush hcan hlegal
  rw [pushChunk_mem hcan, cellRead_memWrite_inside _ _ _ (cellsWf_mem hmem f) (by rwa [hlen]) (by rwa [hlen]),
    List.getElem_take, List.getD_eq_getElem _ _ (hk.trans_le hsrc)]

theorem cellRead_pushChunk_outside (hlegal : s.cfg.legal = true) {a : Nat}
    (ha : a < s.idx f (s.wptr f) ∨ s.idx f (s.wptr f) + n ≤ a) :
    cellRead ((s.pushChunk f src n).mem f) a = cellRead (s.mem f) a := by
  have hlen := length_take_of_canPush hcan
  have hend := idx_add_le_of_canPush hcan hlegal
  rw [pushChunk_mem hcan, cellRead_memWrite_outside _ _ _ _ (by rwa [hlen]) (by rwa [hlen])]

end

/-- A push of no bytes is always within its precondition and changes nothing. -/
theorem pushChunk_zero {f : Fifo} (src : List Byte) {s : State} (hfit : s.Fits f (s.wptr f)) :
    s.pushChunk f src 0 = s := by
  have hcan : s.canPush f src 0 = true := (canPush_iff ..).mpr ⟨Nat.zero_le _, Nat.zero_le _, Nat.zero_le _⟩
  rw [pushChunk_of_canPush hcan, List.take_zero, memWrite_nil, ptrAdd_zero hfit, setProducer_self]

/-- Settles O6: the block write stays within the span, where it does not wrap; at the span's end the pointer is at the
next multiple of CAP_f. -/
theorem pushChunkWritesItsSpan : Obligations.PushChunkWritesItsSpan := by
  unfold Obligations.PushChunkWritesItsSpan
  intro f src n s hmem hfit hcan t i
  have ⟨hlegal, _, _⟩ := hmem
  obtain ⟨-, -, -, hpos, hM⟩ := modulus_spec hlegal f
  have hwptr : t.wptr f = ptrAdd (s.modulus f) (s.wptr f) n := pushChunk_wptr hcan
  refine ⟨pushChunk_frame hcan, fun k hk => cellRead_pushChunk_inside hcan hmem hk,
    fun a ha => cellRead_pushChunk_outside hcan hlegal ha, ?_, ?_, ?_⟩
  · rw [hwptr]
    exact ptrAdd_toNat hpos hM _ _
  · rintro rfl
    exact pushChunk_zero src hfit
  · rintro rfl
    rw [hwptr, idx_of_cfg (pushChunk_cfg hcan)]
    exact ⟨idx_ptrAdd_span hlegal f _, ptrAdd_span_lapBit hlegal f _⟩

/-! ## A pop within its precondition (40_ringbuffer.md R104) -/

/-- The k-th byte of a block read that ends within the array. -/
theorem ringRead_getD {f : Fifo} {i n k : Nat} {s : State} (hend : i + n ≤ s.cap f) (hk : k < n) :
    (s.ringRead f i n).getD k 0 = cellRead (s.mem f) (i + k) := by
  have hlen : k < (s.ringRead f i n).length := by rwa [State.ringRead, memRead_length]
  rw [List.getD_eq_getElem _ _ hlen]
  simp only [State.ringRead, memRead_getElem]
  rw [Nat.mod_eq_of_lt (by omega)]

/-- A pop of no bytes is always within its precondition, gives none and changes nothing. -/
theorem popChunk_zero {f : Fifo} {s : State} (hfit : s.Fits f (s.rptr f)) : s.popChunk f 0 = ([], s) := by
  have hcan : s.canPop f 0 = true := (canPop_iff ..).mpr ⟨Nat.zero_le _, Nat.zero_le _⟩
  rw [popChunk_of_canPop hcan, ptrAdd_zero hfit, setRptr_self]
  rfl

/-- Settles O7: the block read stays within the span, where it does not wrap. -/
theorem popChunkReadsItsSpan : Obligations.PopChunkReadsItsSpan := by
  unfold Obligations.PopChunkReadsItsSpan
  intro f n s hlegal hfit hcan i t
  obtain ⟨-, hspan⟩ := (canPop_iff ..).mp hcan
  obtain ⟨-, -, -, hpos, hM⟩ := modulus_spec hlegal f
  have hend : i + n ≤ s.cap f := (Nat.add_le_add_left hspan _).trans_eq (idx_add_span hlegal f _)
  have hbytes : (s.popChunk f n).1 = s.ringRead f i n := by rw [popChunk_of_canPop hcan]
  have hstate : t = s.setRptr f (ptrAdd (s.modulus f) (s.rptr f) n) := by simp only [t, popChunk_of_canPop hcan]
  refine ⟨?_, fun k hk => ?_, ?_, ?_, ?_⟩
  · rw [hbytes]
    exact memRead_length ..
  · rw [hbytes]
    exact ringRead_getD hend hk
  · rw [hstate, setRptr_rptr]
  · rw [hstate, setRptr_rptr]
    exact ptrAdd_toNat hpos hM _ _
  · rintro rfl
    exact popChunk_zero hfit

/-! ## A primitive beyond its precondition (40_ringbuffer.md R106) -/

theorem pushChunk_of_not_canPush {f : Fifo} {src : List Byte} {n : Nat} {s : State} (h : ¬s.canPush f src n = true) :
    s.pushChunk f src n = s.failPrecondition := if_neg h

theorem popChunk_of_not_canPop {f : Fifo} {n : Nat} {s : State} (h : ¬s.canPop f n = true) :
    s.popChunk f n = ([], s.failPrecondition) := if_neg h

/-- A recorded model fault comes before any agent's move (60_exceptions.md R258). -/
theorem step_of_faultPre {s : State} (hrefused : s.refused = false) (hfault : s.faultPre = true) :
    step s = .fault .precondition := by
  simp only [step, State.stepOnce, hrefused, hfault, Bool.false_eq_true, if_false, if_true]

/-- Settles O8: more bytes than the view or the span allows break the precondition, and the step looks at the recorded
fault first. -/
theorem brokenPreconditionIsAModelFault : Obligations.BrokenPreconditionIsAModelFault := by
  unfold Obligations.BrokenPreconditionIsAModelFault
  refine ⟨fun f src n s hbeyond => pushChunk_of_not_canPush fun hcan => ?_,
    fun f n s hbeyond => popChunk_of_not_canPop fun hcan => ?_, fun s => step_of_faultPre⟩
  · obtain ⟨hfree, hspan, -⟩ := (canPush_iff ..).mp hcan
    omega
  · obtain ⟨hview, hspan⟩ := (canPop_iff ..).mp hcan
    omega

end Sys2Proof.Machine
end

section
/-! DONE: why it stays 1 once it answers 1 (41_transmit.md R135). The copy of `rptr_TX` and the copy of `busy_ev` at a
stage of their synchronisers were sampled at the same FG edge, and a TX ring that is empty holds no packet in flight. -/

namespace Sys2Proof.Machine

/-! ## The copies of the read pointer, seen from the write pointer -/

section
variable {f : Fifo} {s : State} (hlegal : s.cfg.legal = true) (hinv : s.FifoInv f)
include hlegal hinv

/-- The producer's view reaches back over the younger copy of the read pointer. -/
theorem prodView_eq_gap_rsync1 :
    s.prodView f = s.gap f (gray2bin (s.rsync f).s1) (gray2bin (s.rsync f).s2) +
      s.gap f (s.wptr f) (gray2bin (s.rsync f).s1) := by
  obtain ⟨hcount, hprod⟩ := count_and_prodView_of_chain hlegal hinv
  obtain ⟨-, -, hview⟩ := views_bracket_count hlegal hinv
  obtain ⟨-, -, hmod, -, -⟩ := modulus_spec hlegal f
  obtain ⟨⟨hwptr, hrptr, -, hrpub, -, -, hrs1, hrs2⟩, -, -⟩ := hinv
  have hrs1 := fits_gray2bin hrs1
  simp only [State.chainLength, State.gap, State.count, State.consView] at hprod hcount ⊢
  have hrptrOn := ptrSub_add_ptrSub hwptr hrptr hrpub (by omega)
  have hrpubOn := ptrSub_add_ptrSub hwptr hrpub hrs1 (by omega)
  omega

/-- From the published read pointer on there is at least what the ring holds. -/
theorem count_le_gap_rpub : s.count f ≤ s.gap f (s.wptr f) (s.rpub f).b := by
  obtain ⟨hcount, hprod⟩ := count_and_prodView_of_chain hlegal hinv
  obtain ⟨-, -, hview⟩ := views_bracket_count hlegal hinv
  obtain ⟨-, -, hmod, -, -⟩ := modulus_spec hlegal f
  obtain ⟨⟨hwptr, hrptr, -, hrpub, -, -, -, -⟩, -, -⟩ := hinv
  simp only [State.chainLength, State.gap, State.count, State.consView] at hprod hcount ⊢
  have hrptrOn := ptrSub_add_ptrSub hwptr hrptr hrpub (by omega)
  omega

/-- A push moves the write pointer away from a copy of the read pointer by what it pushes. -/
theorem State.Pushes.gap_wptr {bytes : List Byte} {t : State} {p : Ptr} (hpush : s.Pushes f bytes t)
    (hfit : s.Fits f p) (hp : s.gap f (s.wptr f) p ≤ s.prodView f) :
    t.gap f (t.wptr f) p = s.gap f (s.wptr f) p + bytes.length := by
  obtain ⟨-, -, hmod, -, hM⟩ := modulus_spec hlegal f
  have hroom := hpush.prodView_add_le hlegal hinv
  simp only [State.gap] at hp ⊢
  rw [modulus_of_cfg hpush.cfg, hpush.wptr]
  exact ptrSub_ptrAdd_left hM (fits_wptr hinv) hfit (by omega)

end

/-! ## The invariant behind DONE along an edge -/

/-- An empty TX ring holds no packet in flight (41_transmit.md R133). -/
theorem txSize_eq_zero_of_empty {s : State} (hring : s.RingInv) (hempty : s.count .tx = 0) : s.ev.txSize = 0 := by
  obtain ⟨hlegal, -, -, -, htx, ⟨hview, -⟩, -, -⟩ := hring
  obtain ⟨hcount, -, -⟩ := views_bracket_count hlegal htx
  exact BitVec.eq_of_toNat_eq (Nat.le_zero.mp ((hview.trans hcount).trans hempty.le))

theorem fgEdge_busy {present : Option HostCmd} {copy : LineState} {s t : State}
    (h : s.fgEdge present copy = .next t) : t.fg.busy = syncShift s.fg.busy s.ev.busyEv := by
  obtain ⟨u, -, rfl⟩ := fgEdge_cases h
  rw [fgCrossings_fg_busy, hostPresent_fg, hostPresent_ev]

/-- An FG edge samples `rpub_TX` with `busy_ev` and shifts both. -/
theorem fgEdge_doneInv {present : Option HostCmd} {copy : LineState} {s t : State} (h : s.DoneInv)
    (hedge : s.fgEdge present copy = .next t) : t.DoneInv := by
  obtain ⟨hring, hbusyEv, hbusy1, -⟩ := h
  have ⟨hlegal, _, _, _, htx, _, _, _⟩ := hring
  have hring' := fgEdge_ringInv hring hedge
  have ⟨hlegal', _, _, _, htx', _, _, _⟩ := hring'
  have hev : t.ev = s.ev := by rw [fgEdge_fgWrites hedge]
  obtain ⟨k, bytes, hmoves⟩ := fgEdge_moves hring hedge
  obtain ⟨-, hproducer⟩ := fgEdge_ringEdges hedge
  have hrsync : t.fg.rsyncTx = syncShift s.fg.rsyncTx s.ev.rpubTx.g := hproducer.rsync
  refine ⟨hring', by rw [hev, hbusyEv], fun hreached => ?_, fun hreached => ?_⟩
  · rw [fgEdge_busy hedge, syncShift_s1, hbusyEv, ← hev]
    have ⟨_, ⟨_, himage⟩, _⟩ := htx'
    have hpublished : gray2bin t.fg.rsyncTx.s1 = t.ev.rpubTx.b := by
      rw [hrsync, syncShift_s1, ← hev]
      exact (congrArg gray2bin himage).trans (gray2bin_bin2gray _)
    rw [hpublished] at hreached
    have hempty := (count_le_gap_rpub hlegal' htx').trans_eq hreached
    simp [txSize_eq_zero_of_empty hring' (Nat.le_zero.mp hempty)]
  · rw [fgEdge_busy hedge, syncShift_s2]
    rw [hrsync, syncShift_s2] at hreached
    have hview := prodView_eq_gap_rsync1 hlegal htx
    have ⟨⟨_, _, _, _, _, _, hfit, _⟩, _, _⟩ := htx
    have hgap := hmoves.pushes.gap_wptr hlegal htx (fits_gray2bin hfit) (by omega)
    exact hbusy1 (Nat.eq_zero_of_add_eq_zero_right (hgap.symm.trans hreached))

theorem evEdge_cfg (answer : List Byte) (s : State) : (s.evEdge answer).cfg = s.cfg := by
  rw [(evWrites_evEdge answer s).frame]

/-- An EV edge writes no FG register, and `busy_ev` with `txSize`. -/
theorem evEdge_doneInv (answer : List Byte) {s : State} (h : s.DoneInv) : (s.evEdge answer).DoneInv := by
  obtain ⟨hring, -, hbusy1, hbusy2⟩ := h
  have hmod : (s.evEdge answer).modulus .tx = s.modulus .tx :=
    modulus_of_cfg (evEdge_cfg answer s) .tx
  refine ⟨evEdge_ringInv answer hring, rfl, ?_, ?_⟩
  · rw [State.gap, hmod, evEdge_fg]; exact hbusy1
  · rw [State.gap, hmod, evEdge_fg]; exact hbusy2

theorem devStep_doneInv (signals : DevSignals) (event : Option (BitVec 2)) {s : State} (h : s.DoneInv) :
    (s.devStep signals event).DoneInv := by
  obtain ⟨e, o, heq⟩ := devStep_eq_update signals event s
  rw [heq]; exact h

/-! ## DONE's answer -/

/-- The TX producer's view is one of FG registers alone (10_state.md R20). -/
theorem prodView_tx_of_fg {s t : State} (hcfg : t.cfg = s.cfg) (hfg : t.fg = s.fg) :
    t.prodView .tx = s.prodView .tx := by
  simp only [State.prodView, State.wptr, State.rsync, modulus_of_cfg hcfg, hfg]

theorem txDone_iff (s : State) : s.txDone = true ↔ s.prodView .tx = 0 ∧ s.fg.busy.s2 = false := by
  simp [State.txDone]

/-- DONE reads FG registers alone. -/
theorem txDone_of_fg {s t : State} (hcfg : t.cfg = s.cfg) (hfg : t.fg = s.fg) : t.txDone = s.txDone := by
  rw [State.txDone, State.txDone, prodView_tx_of_fg hcfg hfg, hfg]

/-- The copies that come next in both synchronisers are those of an empty view too. -/
theorem fgEdge_txDone {present : Option HostCmd} {copy : LineState} {s t : State} (h : s.DoneInv)
    (hedge : s.fgEdge present copy = .next t) (hdone : s.txDone = true) (hwptr : t.fg.wptrTx = s.fg.wptrTx) :
    t.txDone = true := by
  obtain ⟨⟨hlegal, -, -, -, htx, -, -, -⟩, -, hbusy1, -⟩ := h
  rw [txDone_iff] at hdone ⊢
  obtain ⟨hview, -⟩ := hdone
  have hcfg : t.cfg = s.cfg := by rw [fgEdge_fgWrites hedge]
  obtain ⟨-, hproducer⟩ := fgEdge_ringEdges hedge
  have hreached : s.gap .tx (s.wptr .tx) (gray2bin (s.rsync .tx).s1) = 0 := by
    have hsplit := prodView_eq_gap_rsync1 hlegal htx
    omega
  constructor
  · rw [State.prodView, modulus_of_cfg hcfg, hproducer.rsync, syncShift_s2, State.wptr, hwptr]
    exact hreached
  · rw [fgEdge_busy hedge, syncShift_s2]
    exact hbusy1 hreached

/-- Settles O51: an FG edge shifts the copies of `rptr_TX` and of `busy_ev` together; no other move touches what DONE
reads. -/
theorem doneIsIdempotent : Obligations.DoneIsIdempotent := by
  unfold Obligations.DoneIsIdempotent
  intro s t h hstep
  have hmove : s.moveTaken.DoneInv := h
  obtain ⟨-, -, ⟨present, copy, -, hedge⟩ | ⟨answer, -, rfl⟩ | ⟨signals, event, -, rfl⟩⟩ := step_cases hstep
  · exact ⟨fgEdge_doneInv hmove hedge, fgEdge_txDone (s := s.moveTaken) hmove hedge⟩
  · refine ⟨evEdge_doneInv answer hmove, fun hdone _ => ?_⟩
    rw [txDone_of_fg (evEdge_cfg answer _) (evEdge_fg answer _)]
    exact hdone
  · refine ⟨devStep_doneInv signals event hmove, fun hdone _ => ?_⟩
    rw [txDone_of_fg (devStep_cfg ..) (devStep_fg ..)]
    exact hdone

/-- Settles O12: DONE's predicate as a word. -/
theorem doneAnswersWhetherTxIsIdle : Obligations.DoneAnswersWhetherTxIsIdle := by
  unfold Obligations.DoneAnswersWhetherTxIsIdle
  intro s hrest
  have hword : boolWord s.txDone = if s.prodView .tx = 0 ∧ s.fg.busy.s2 = false then 1 else 0 := by
    simp only [boolWord, txDone_iff]
  simp only [exec, execDone, finishTaken_eq_emit hrest, hword]
  rfl

end Sys2Proof.Machine
end

section
/-! The packet in flight: its launch, its bytes while it is in flight, and its completion (41_transmit.md R130 to R134,
R140, 20_memory.md R73). -/

namespace Sys2Proof.Machine

/-! ## The queued bytes under a push -/

/-- A push leaves the indices from the read index on, as many as bytes are queued, as they were (20_memory.md R73); an
index past the physical end is none of the array's. -/
theorem State.Pushes.cellRead_queued {f : Fifo} {bytes : List Byte} {s t : State} (hlegal : s.cfg.legal = true)
    (hinv : s.FifoInv f) (hpush : s.Pushes f bytes t) {k : Nat} (hk : k < s.count f) :
    cellRead (t.mem f) (s.idx f (s.rptr f) + k) = cellRead (s.mem f) (s.idx f (s.rptr f) + k) := by
  obtain ⟨-, -, -, -, hM⟩ := modulus_spec hlegal f
  obtain ⟨-, hview, -⟩ := views_bracket_count hlegal hinv
  have hroom := hpush.prodView_add_le hlegal hinv
  have hspan := hpush.span
  obtain ⟨hidx, -⟩ := idx_lt hlegal f (s.rptr f)
  obtain ⟨hwidx, -⟩ := idx_lt hlegal f (s.wptr f)
  have hwptr : s.idx f (s.wptr f) = (s.idx f (s.rptr f) + s.count f) % s.cap f := by
    rw [← idx_ptrAdd hlegal, State.count, ptrAdd_ptrSub hM (fits_wptr hinv) (fits_rptr hinv)]
  rw [State.span] at hspan
  rw [hpush.mem]
  apply cellRead_memWrite_outside _ _ _ _ (by omega)
  by_cases hfull : s.count f < s.cap f
  · rw [add_mod_cap hidx hfull] at hwptr
    split at hwptr <;> omega
  · omega

/-! ## What an EV edge does to the packet in flight -/

/-- In flight, a packet stays as it is or is retired. -/
theorem evEdge_flight (answer : List Byte) {s : State} (hring : s.RingInv) (hbusy : s.ev.txSize ≠ 0)
    (hbusy' : (s.evEdge answer).ev.txSize ≠ 0) :
    (s.evEdge answer).ev.txSize = s.ev.txSize ∧ (s.evEdge answer).ev.rptrTx = s.ev.rptrTx := by
  have ⟨_, _, _, _, htx, _, _, _⟩ := hring
  change (s.evSequencer answer).ev.txSize ≠ 0 at hbusy'
  change (s.evSequencer answer).ev.txSize = _ ∧ (s.evSequencer answer).rptr .tx = s.rptr .tx
  rcases evSequencer_launches_or_retires answer hring with ⟨hlaunch, -⟩ | ⟨k, hk⟩
  · obtain ⟨-, hfree, -⟩ := (launchEn_iff s).mp hlaunch
    exact absurd hfree hbusy
  · rcases hk.flight with ⟨rfl, hsize⟩ | ⟨-, hsize⟩
    · exact ⟨hsize, by rw [hk.pops.rptr, ptrAdd_zero (fits_rptr htx)]⟩
    · exact absurd hsize hbusy'

/-- Only the TX phase ends a flight (41_transmit.md R140). -/
theorem evEdge_ends_flight (answer : List Byte) {s : State} (hring : s.RingInv) (hbusy : s.ev.txSize ≠ 0)
    (hidle : (s.evEdge answer).ev.txSize = 0) : s.ev.state = .txDone := by
  have ⟨_, _, _, _, htx, _, _, _⟩ := hring
  change (s.evSequencer answer).ev.txSize = 0 at hidle
  rcases evSequencer_cases answer s with ⟨-, h⟩ | ⟨-, h⟩ | ⟨hstate, -⟩
  · rw [h] at hidle
    rcases evIdle_cases s with ⟨hlaunch, -⟩ | ⟨-, m, -, h⟩ | ⟨-, -, h⟩
    · obtain ⟨-, hfree, -⟩ := (launchEn_iff s).mp hlaunch
      exact absurd hfree hbusy
    · rw [h] at hidle; exact absurd hidle hbusy
    · rw [h] at hidle; exact absurd hidle hbusy
  · rw [h] at hidle
    rcases (rxIter_retires answer (fits_rptr htx)).flight with ⟨-, hsize⟩ | ⟨hzero, -⟩
    · exact absurd (hsize.symm.trans hidle) hbusy
    · exact absurd (BitVec.eq_of_toNat_eq hzero.symm) hbusy
  · exact hstate

/-- Settles O56: a push stays behind the queued bytes, which cover the packet, and an EV edge keeps the packet or retires
it. -/
theorem packetBytesStayUntilCompletion : Obligations.PacketBytesStayUntilCompletion := by
  unfold Obligations.PacketBytesStayUntilCompletion
  intro s t hring hstep hbusy hbusy'
  have hmove : s.moveTaken.RingInv := hring
  have ⟨hlegal, _, _, _, htx, ⟨hview, _, _⟩, _, _⟩ := hmove
  obtain ⟨-, -, ⟨present, copy, -, hedge⟩ | ⟨answer, -, rfl⟩ | ⟨signals, event, -, rfl⟩⟩ := step_cases hstep
  · have hev : t.ev = s.ev := by rw [fgEdge_fgWrites hedge]; rfl
    obtain ⟨k, bytes, hmoves⟩ := fgEdge_moves hmove hedge
    refine ⟨by rw [hev], by rw [hev], fun k hk => ?_⟩
    obtain ⟨hcount, -, -⟩ := views_bracket_count hlegal htx
    have hk' : k < s.moveTaken.ev.txSize.toNat := hk
    exact hmoves.pushes.cellRead_queued hlegal htx (by omega)
  · obtain ⟨hsize, hrptr⟩ := evEdge_flight answer hmove hbusy hbusy'
    obtain ⟨⟨-, -, -, -, -, hmem⟩, -⟩ := evEdge_ringEdges answer s.moveTaken
    exact ⟨hsize, hrptr, fun k _ => congrArg (cellRead · _) hmem⟩
  · rw [devStep_ev, devStep_memTx]
    exact ⟨rfl, rfl, fun _ _ => rfl⟩

/-! ## Who hands a packet over -/

/-- The output grows by events none of which is a packet. -/
def State.HandsOverNone (s t : State) : Prop := ∃ l, t.out = s.out ++ l ∧ ∀ bytes, OutEvent.tx bytes ∉ l

theorem State.HandsOverNone.of_eq {s t : State} (h : t.out = s.out) : s.HandsOverNone t :=
  ⟨[], by rw [h, List.append_nil], fun _ => List.not_mem_nil⟩

theorem State.HandsOverNone.of_event {s t : State} {e : OutEvent} (h : t.out = s.out ++ [e])
    (he : ∀ bytes, OutEvent.tx bytes ≠ e) : s.HandsOverNone t :=
  ⟨[e], h, fun bytes hmem => he bytes (List.mem_singleton.mp hmem)⟩

theorem State.HandsOverNone.trans {s t u : State} (hst : s.HandsOverNone t) (htu : t.HandsOverNone u) :
    s.HandsOverNone u := by
  obtain ⟨l, hl, hnone⟩ := hst
  obtain ⟨l', hl', hnone'⟩ := htu
  refine ⟨l ++ l', by rw [hl', hl, List.append_assoc], fun bytes hmem => ?_⟩
  rcases List.mem_append.mp hmem with h | h
  · exact hnone bytes h
  · exact hnone' bytes h

theorem State.AnswersAtMostOnce.handsOverNone {s t : State} (h : s.AnswersAtMostOnce t) : s.HandsOverNone t := by
  rcases h with h | ⟨w, bytes, h⟩
  · exact .of_eq h
  · exact .of_event h fun _ => OutEvent.noConfusion

theorem endRxPhase_handsOverNone (total : Count) (s : State) : s.HandsOverNone (s.endRxPhase total) := by
  rcases endRxPhase_cases total s with ⟨-, -, -, h⟩ | ⟨-, h⟩ <;> rw [h]
  · exact .of_event rfl fun _ => OutEvent.noConfusion
  · exact .of_eq rfl

theorem rxIter_handsOverNone (answer : List Byte) (s : State) : s.HandsOverNone (s.rxIter answer) := by
  have hdrained : s.HandsOverNone (s.drained answer) := by
    rw [drained_eq_update]
    exact .of_event rfl fun _ => OutEvent.noConfusion
  rcases rxIter_forms answer s with ⟨total, h⟩ | ⟨total, h⟩ | h <;> rw [h]
  · exact endRxPhase_handsOverNone total s
  · exact hdrained.trans (endRxPhase_handsOverNone total _)
  · exact hdrained

theorem txComplete_handsOverNone (s : State) : s.HandsOverNone s.txComplete := by
  have hpop : (s.popChunk .tx s.ev.txSize.toNat).2.out = s.out := popChunk_out ..
  rcases txComplete_cases s with ⟨-, h⟩ | ⟨-, h⟩ <;> rw [h]
  · exact .of_eq rfl
  · split
    · exact .of_event (congrArg (· ++ [OutEvent.ntfTx]) hpop) fun _ => OutEvent.noConfusion
    · exact .of_eq hpop

/-- EV hands a packet over by a launch and in no other way (41_transmit.md R130). -/
theorem evSequencer_handsOver (answer : List Byte) (s : State) :
    (s.launchEn = true ∧ s.evSequencer answer = s.txLaunch) ∨ s.HandsOverNone (s.evSequencer answer) := by
  rcases evSequencer_cases answer s with ⟨-, h⟩ | ⟨-, h⟩ | ⟨-, h⟩ <;> rw [h]
  · rcases evIdle_cases s with ⟨hlaunch, h⟩ | ⟨-, m, -, h⟩ | ⟨-, -, h⟩ <;> rw [h]
    · exact .inl ⟨hlaunch, rfl⟩
    · exact .inr (.of_eq rfl)
    · exact .inr (.of_eq rfl)
  · exact .inr (rxIter_handsOverNone answer s)
  · exact .inr (txComplete_handsOverNone s)

/-- Every packet a step hands over begins a flight of its length where there was none. -/
def State.BeginsFlight (s t : State) : Prop :=
  ∀ bytes, OutEvent.tx bytes ∈ t.out.drop s.out.length →
    s.ev.txSize = 0 ∧ t.ev.txSize.toNat = bytes.length ∧ 0 < bytes.length

theorem State.HandsOverNone.beginsFlight {s t : State} (h : s.HandsOverNone t) : s.BeginsFlight t := by
  obtain ⟨l, hl, hnone⟩ := h
  intro bytes hmem
  rw [hl, List.drop_left] at hmem
  exact absurd hmem (hnone bytes)

/-! ## The launch -/

/-- A packet has at least one byte: the view shows one, the span is never empty, and CEIL is at least 1 (41_transmit.md
R131). -/
theorem clampMux_pos {s : State} (hlegal : s.cfg.legal = true) (hview : 0 < s.consView .tx) : 0 < s.clampMux := by
  obtain ⟨-, hspan⟩ := idx_lt hlegal .tx (s.rptr .tx)
  obtain ⟨hceil, -⟩ := Params.legal_ceil hlegal
  exact lt_min (lt_min hview hspan) hceil

theorem txLaunch_beginsFlight {s : State} (hring : s.RingInv) (hlaunch : s.launchEn = true) :
    s.BeginsFlight s.txLaunch := by
  obtain ⟨hlegal, -, -, -, htx, -, -, -⟩ := hring
  obtain ⟨-, hfree, hview⟩ := (launchEn_iff s).mp hlaunch
  intro bytes hmem
  rw [txLaunch_out, List.drop_left, List.mem_singleton] at hmem
  cases hmem
  have hlen : (s.ringRead .tx (s.idx .tx (s.rptr .tx)) s.clampMux).length = s.clampMux := memRead_length ..
  rw [hlen]
  exact ⟨hfree, clampMux_toNat hlegal htx, clampMux_pos hlegal hview⟩

theorem evEdge_beginsFlight (answer : List Byte) {s : State} (hring : s.RingInv) : s.BeginsFlight (s.evEdge answer) := by
  have hpost : s.BeginsFlight (s.evSequencer answer) := by
    rcases evSequencer_handsOver answer s with ⟨hlaunch, h⟩ | h
    · rw [h]; exact txLaunch_beginsFlight hring hlaunch
    · exact h.beginsFlight
  exact hpost

/-- Settles O57: EV alone hands packets over, by a launch, which needs `txSize = 0`, and ends a flight in the TX phase
alone. -/
theorem atMostOnePacketInFlight : Obligations.AtMostOnePacketInFlight := by
  unfold Obligations.AtMostOnePacketInFlight
  intro s t hring hstep
  have hmove : s.moveTaken.RingInv := hring
  obtain ⟨-, -, ⟨present, copy, -, hedge⟩ | ⟨answer, -, rfl⟩ | ⟨signals, event, -, rfl⟩⟩ := step_cases hstep
  · have hev : t.ev = s.ev := by rw [fgEdge_fgWrites hedge]; rfl
    exact ⟨(fgEdge_answersAtMostOnce hedge).handsOverNone.beginsFlight,
      fun hbusy hidle => absurd (hev ▸ hidle) hbusy⟩
  · exact ⟨evEdge_beginsFlight answer hmove, fun hbusy => evEdge_ends_flight answer hmove hbusy⟩
  · exact ⟨(State.HandsOverNone.of_eq (s := s.moveTaken) (devStep_out ..)).beginsFlight,
      fun hbusy hidle => absurd ((congrArg EvDomain.txSize (devStep_ev ..)).symm.trans hidle) hbusy⟩

/-- Settles O37: an idle EV edge looks at the launch before the event, and a launch writes `txSize`, the output and the
owed completion alone. -/
theorem launchHandsOverTheClampedPacket : Obligations.LaunchHandsOverTheClampedPacket := by
  unfold Obligations.LaunchHandsOverTheClampedPacket
  intro s answer hring hidle hfree hview len t
  have ⟨hlegal, _, _, _, htx, _, _, _⟩ := hring
  have hlaunch : s.launchEn = true := (launchEn_iff s).mpr ⟨hidle, hfree, hview⟩
  have hseq : s.evSequencer answer = s.txLaunch := by
    simp only [State.evSequencer, hidle, State.evIdle, hlaunch, if_true]
  have ht : t = State.evCrossings s s.txLaunch := congrArg (State.evCrossings s) hseq
  have hlen : len = s.clampMux := rfl
  obtain ⟨hleView, -, hleCeil⟩ := clampMux_le s
  obtain ⟨hcount, -, -⟩ := views_bracket_count hlegal htx
  have hcap : len ≤ min s.cfg.capTx s.cfg.ceil := le_min (hleView.trans (consView_le_cap htx)) hleCeil
  rw [ht, hlen, content_take (hleView.trans hcount)]
  exact ⟨clampMux_pos hlegal hview, hcap, clampMux_toNat hlegal htx, rfl, rfl, rfl, rfl, rfl, hidle, rfl, rfl⟩

/-! ## The completion -/

/-- R134's condition, from the view before the pop: the view ends with the packet. -/
theorem allSent_iff {s : State} (hlegal : s.cfg.legal = true) (htx : s.FifoInv .tx) {n : Nat} (hn : n ≤ s.consView .tx) :
    s.allSent n = true ↔
      s.consView .tx = n ∧ s.ev.accEv = s.ev.txCompleted + BitVec.ofNat 32 n ∧ s.ev.txn.s2 = true := by
  obtain ⟨-, -, -, -, hM⟩ := modulus_spec hlegal .tx
  have ⟨⟨_, hrptr, _, _, _, hsync, _, _⟩, _, _⟩ := htx
  have hrest : ptrSub (s.modulus .tx) (gray2bin s.ev.wsyncTx.s2) (ptrAdd (s.modulus .tx) s.ev.rptrTx n) =
      s.consView .tx - n := ptrSub_ptrAdd_right hM (gray2bin_lt hsync) hrptr hn
  have hempty : s.consView .tx - n = 0 ↔ s.consView .tx = n := by omega
  simp only [State.allSent, hrest, Bool.and_eq_true, decide_eq_true_eq, hempty, sub_eq_zero, and_assoc]

/-- A completion, as a record update (41_transmit.md R133, R134). -/
theorem txComplete_of_flight {s : State} (hflight : s.FlightInv) (hbusy : s.ev.txSize ≠ 0) :
    s.txComplete = { s with
      ev := { s.ev with
        rptrTx := ptrAdd (s.modulus .tx) s.ev.rptrTx s.ev.txSize.toNat
        txCompleted := s.ev.txCompleted + BitVec.ofNat 32 s.ev.txSize.toNat
        txSize := 0
        state := .idle }
      out := if s.allSent s.ev.txSize.toNat = true then s.out ++ [.ntfTx] else s.out } := by
  obtain ⟨hview, hspan, -⟩ := hflight
  rcases txComplete_cases s with ⟨hidle, -⟩ | ⟨-, h⟩
  · exact absurd hidle hbusy
  · rw [h, popChunk_of_canPop ((canPop_iff ..).mpr ⟨hview, hspan⟩)]
    split <;> rfl

theorem evEdge_of_txDone (answer : List Byte) {s : State} (h : s.ev.state = .txDone) :
    s.evEdge answer = State.evCrossings s s.txComplete := by
  simp only [State.evEdge, State.evSequencer, h]

/-- Settles O38: the pop stays within the view and the span, so the completion is one record update. -/
theorem completionRetiresThePacket : Obligations.CompletionRetiresThePacket := by
  unfold Obligations.CompletionRetiresThePacket
  constructor
  · intro s answer hring hstate hbusy n t
    have ⟨hlegal, _, _, _, htx, hflight, _, _⟩ := hring
    have ⟨hview, _, _⟩ := hflight
    obtain ⟨-, -, -, hpos, hM⟩ := modulus_spec hlegal .tx
    have ht : t = State.evCrossings s s.txComplete := evEdge_of_txDone answer hstate
    rw [txComplete_of_flight hflight hbusy] at ht
    refine ⟨?_, ?_, ?_, ?_, ?_, ?_, ?_, ?_, ?_⟩
    case refine_1 => rw [ht]; exact ptrAdd_toNat hpos hM _ _
    case refine_8 => rw [ht]; exact if_congr (allSent_iff hlegal htx hview) rfl rfl
    all_goals rw [ht]; rfl
  · intro s answer hstate hidle
    rw [evEdge_of_txDone answer hstate, State.txComplete, if_pos hidle]

/-! ## The levels and the acknowledge -/

theorem gateOpen_eq (d : DevSignals) : gateOpen d = decide (d.state = 0b10 ∧ d.line.ctl.getLsbD 0 = true) := by
  rw [gateOpen, Bool.decide_and, Bool.decide_eq_true]; rfl

/-- Settles O36: the crossings of an EV edge load the levels, and ACK by its condition. -/
theorem evEdgeLoadsLevelsAndAcknowledges : Obligations.EvEdgeLoadsLevelsAndAcknowledges := by
  unfold Obligations.EvEdgeLoadsLevelsAndAcknowledges
  intro s answer t
  have haccEv : t.ev.accEv = if s.ackEnabled then s.fg.accBin else s.ev.accEv := rfl
  have haccAck : t.ev.accAck = if s.ackEnabled then s.ev.req.s2 else s.ev.accAck := rfl
  refine ⟨gateOpen_eq s.dev, decide_eq_true_iff, fun hnew => ?_, fun hsame => ?_⟩
  · have hack := (ackEnabled_iff s).mpr hnew
    exact ⟨haccEv.trans (if_pos hack), haccAck.trans (if_pos hack)⟩
  · have hack : ¬s.ackEnabled = true := fun h => (ackEnabled_iff s).mp h hsame
    exact ⟨haccEv.trans (if_neg hack), haccAck.trans (if_neg hack)⟩

end Sys2Proof.Machine
end

section
/-! The write commands and FLUSH at the edge that takes them, and the later edges of a held command (41_transmit.md R120 to
R127, R136). -/

namespace Sys2Proof.Machine

/-! ## The accepted count (R123) -/

section
variable {ctx : Bool} {s : State}

theorem acceptedCount_clamped (h : ctx = true ∨ ctrlBoo s.fg.ctrl = false) (size : Count) :
    s.acceptedCount ctx size = min size.toNat (s.availableToWrite .tx) := by
  refine if_pos ?_
  rcases h with h | h <;> rw [h]
  · rfl
  · exact Bool.or_true _

theorem acceptedCount_blocking (hctx : ctx = false) (hboo : ctrlBoo s.fg.ctrl = true) (size : Count) :
    s.acceptedCount ctx size = size.toNat := by
  simp only [State.acceptedCount, hctx, hboo, Bool.not_true, Bool.or_self, Bool.false_eq_true, if_false]

end

/-- A write is clamped, or it is one of the foreground in blocking mode. -/
theorem write_mode_cases (ctx boo : Bool) : (ctx = true ∨ boo = false) ∨ (ctx = false ∧ boo = true) := by
  revert ctx boo; decide

/-! ## The begin operation (R123) -/

theorem exec_write1 (ctx : Bool) (data : Byte) (s : State) :
    exec (.write1 ctx data) s = .next (s.beginWrite ctx 1 [data]) := rfl

theorem exec_writeb (ctx : Bool) (size : Count) (source : List Byte) (s : State) :
    exec (.writeb ctx size source) s = .next (s.beginWrite ctx size source) := rfl

section
variable {ctx : Bool} {size : Count} (source : List Byte) {s : State}

theorem beginWrite_of_turnedAway (h : s.fg.gate.s2 = false ∨ s.acceptedCount ctx size = 0) :
    s.beginWrite ctx size source = s.finishTaken 0 [] := by
  rcases beginWrite_cases ctx size source s with ⟨-, e⟩ | ⟨hgate, hpos, -⟩
  · exact e
  · rcases h with h | h
    · rw [h] at hgate; cases hgate
    · omega

/-- With no preempting write pending in IDLE, a write that is turned away changes the output alone. -/
theorem beginWrite_answers_zero (hrest : s.fg.state = .idle → s.fg.resume = false)
    (h : s.fg.gate.s2 = false ∨ s.acceptedCount ctx size = 0) :
    s.beginWrite ctx size source = { s with out := s.out ++ [.rsp 0 []] } := by
  rw [beginWrite_of_turnedAway source h, finishTaken_eq_emit hrest]; rfl

theorem beginWrite_of_accepted (hgate : s.fg.gate.s2 = true) (hpos : 0 < s.acceptedCount ctx size) :
    s.beginWrite ctx size source = s.acceptWrite (s.acceptedCount ctx size) source := by
  rcases beginWrite_cases ctx size source s with ⟨hclosed | hzero, -⟩ | ⟨-, -, e⟩
  · rw [hgate] at hclosed; cases hclosed
  · omega
  · exact e

end

/-- What a begun write notes of a FLUSH it interrupts (R123, R141), as a choice. -/
theorem acceptWrite_eq (n : Nat) (source : List Byte) (s : State) :
    s.acceptWrite n source = { s with fg :=
      { s.fg with
        accBin := s.fg.accBin + BitVec.ofNat 32 n
        accReq := !s.fg.accReq
        word := s.port.cmd
        acc := BitVec.ofNat 16 n
        rem := BitVec.ofNat 16 n
        src := source.take n
        resume := if s.fg.state = .flushWait then true else s.fg.resume
        state := .waitAck } } := by
  have hresume : (s.fg.resume || decide (s.fg.state = .flushWait)) =
      if s.fg.state = .flushWait then true else s.fg.resume := by
    by_cases h : s.fg.state = .flushWait <;> simp [h]
  rw [State.acceptWrite, hresume]

/-- Settles O20: the gate is closed or the accepted count is 0, and an answer at the taking edge changes the output
alone. -/
theorem writesTurnedAwayAnswerZero : Obligations.WritesTurnedAwayAnswerZero := by
  unfold Obligations.WritesTurnedAwayAnswerZero
  intro ctx data size source s hrest
  rw [exec_write1, exec_writeb, exec_writeb]
  refine ⟨fun hgate => ?_, fun hfull hmode => ?_, ?_⟩
  · rw [beginWrite_answers_zero _ hrest (.inl hgate), beginWrite_answers_zero _ hrest (.inl hgate)]
    exact ⟨rfl, rfl⟩
  · have hzero (size : Count) : s.acceptedCount ctx size = 0 := by
      rw [acceptedCount_clamped hmode]
      exact Nat.le_zero.mp ((Nat.min_le_right _ _).trans_eq hfull)
    rw [beginWrite_answers_zero _ hrest (.inr (hzero 1)), beginWrite_answers_zero _ hrest (.inr (hzero size))]
    exact ⟨rfl, rfl⟩
  · rw [beginWrite_answers_zero _ hrest (.inr (Nat.le_zero.mp (acceptedCount_le ctx 0 s)))]

/-- Settles O21: the count is the accepted one in either mode. -/
theorem writebBeginsWithItsAcceptedCount : Obligations.WritebBeginsWithItsAcceptedCount := by
  unfold Obligations.WritebBeginsWithItsAcceptedCount
  intro ctx size source acc s hgate hclamped hblocking hpos
  have hacc : s.acceptedCount ctx size = acc := by
    rcases write_mode_cases ctx (ctrlBoo s.fg.ctrl) with hmode | ⟨hctx, hboo⟩
    · exact (acceptedCount_clamped hmode size).trans (hclamped hmode).symm
    · exact (acceptedCount_blocking hctx hboo size).trans (hblocking hctx hboo).symm
  rw [exec_writeb, beginWrite_of_accepted source hgate (by omega), hacc, acceptWrite_eq]

/-- Settles O22: a write of one byte accepts it. -/
theorem writeOneBeginsTheWriteOfItsByte : Obligations.WriteOneBeginsTheWriteOfItsByte := by
  unfold Obligations.WriteOneBeginsTheWriteOfItsByte
  intro ctx data s hgate hmode
  have hacc : s.acceptedCount ctx 1 = 1 := by
    rcases hmode with ⟨hctx, hboo⟩ | hfree
    · exact acceptedCount_blocking hctx hboo 1
    · rcases write_mode_cases ctx (ctrlBoo s.fg.ctrl) with hclamped | ⟨hctx, hboo⟩
      · exact (acceptedCount_clamped hclamped 1).trans (Nat.min_eq_left hfree)
      · exact acceptedCount_blocking hctx hboo 1
  rw [exec_write1, beginWrite_of_accepted [data] hgate (by omega), hacc, acceptWrite_eq]
  rfl

/-- Settles O23, by CTX: FLUSH answers at once or enters its wait. -/
theorem flushWaitsOnlyInForeground : Obligations.FlushWaitsOnlyInForeground := by
  unfold Obligations.FlushWaitsOnlyInForeground
  intro s
  refine ⟨rfl, fun hrest => ?_⟩
  simp only [exec, execFlush, if_true, finishTaken_eq_emit hrest]
  rfl

/-! ## A held command, by the state it is held in -/

section
variable {s : State}

theorem fgContinue_of_idle (h : s.fg.state = .idle) : s.fgContinue = s := by simp only [State.fgContinue, h]

theorem fgContinue_of_waitAck (h : s.fg.state = .waitAck) : s.fgContinue = s.waitAckStep := by
  simp only [State.fgContinue, h]

theorem fgContinue_of_push (h : s.fg.state = .push) : s.fgContinue = s.pushStep := by simp only [State.fgContinue, h]

theorem fgContinue_of_flushWait (h : s.fg.state = .flushWait) : s.fgContinue = s.flushWaitStep := by
  simp only [State.fgContinue, h]

end

/-- A completion with no FLUSH to resume goes to IDLE (R120). -/
theorem finishHeld_of_no_resume {s : State} (h : s.fg.resume = false) (w : Word) (bytes : List Byte) :
    s.finishHeld w bytes = { s with fg := { s.fg with state := .idle }, out := s.out ++ [.rsp w bytes] } := by
  simp only [State.finishHeld, State.emit, h, Bool.false_eq_true, if_false]

theorem waitAckStep_eq {s : State} (h : s.fg.state = .waitAck) :
    s.waitAckStep =
      { s with fg := { s.fg with state := if s.fg.ack.s2 = s.fg.accReq then .push else .waitAck } } := by
  rcases waitAckStep_cases s with ⟨hack, e⟩ | ⟨hwait, e⟩ <;> rw [e]
  · rw [if_pos hack]
  · rw [if_neg hwait, ← h]

/-- Settles O24: the step of each state, by its condition. -/
theorem heldCommandsWaitForTheirCondition : Obligations.HeldCommandsWaitForTheirCondition := by
  unfold Obligations.HeldCommandsWaitForTheirCondition
  refine fun s => ⟨fgContinue_of_idle, fun hstate => ?_, fun hstate hfull => ?_, fun hstate hresume => ?_⟩
  · rw [fgContinue_of_waitAck hstate, waitAckStep_eq hstate]
  · rw [fgContinue_of_push hstate]
    exact if_pos hfull
  · rw [fgContinue_of_flushWait hstate, State.flushWaitStep, finishHeld_of_no_resume hresume]

/-! ## A push edge (R125, R126) -/

/-- With bytes to push and free space a push edge moves at least one. -/
theorem pushLength_pos {s : State} (hlegal : s.cfg.legal = true) (hrem : s.fg.rem ≠ 0)
    (hfree : 0 < s.availableToWrite .tx) : 0 < s.pushLength := by
  obtain ⟨-, hspan⟩ := idx_lt hlegal .tx (s.wptr .tx)
  exact lt_min (lt_min ((count_ne_zero_iff _).mp hrem) hfree) hspan

theorem rem_sub_pushLength_eq_zero_iff (s : State) :
    s.fg.rem - BitVec.ofNat 16 s.pushLength = 0 ↔ s.fg.rem.toNat = s.pushLength := by
  obtain ⟨hle, -, -⟩ := pushLength_le s
  have hleft := rem_sub_pushLength s
  rw [← BitVec.toNat_inj, hleft]
  change s.fg.rem.toNat - s.pushLength = 0 ↔ _
  omega

theorem countWord_toNat (n : Count) : countWord n.toNat = n.zeroExtend 32 :=
  BitVec.eq_of_toNat_eq (by simp [countWord])

/-- A push edge within the invariant, as a record update: the last span completes the write. -/
theorem pushStep_eq_update {s : State} (hring : s.RingInv) (hstate : s.fg.state = .push)
    (hfree : s.availableToWrite .tx ≠ 0) :
    s.pushStep = { s with
      memTx := memWrite (s.cap .tx) s.memTx (s.idx .tx s.fg.wptrTx) (s.fg.src.take s.pushLength)
      fg := { s.fg with
        wptrTx := ptrAdd (s.modulus .tx) s.fg.wptrTx s.pushLength
        src := s.fg.src.drop s.pushLength
        rem := s.fg.rem - BitVec.ofNat 16 s.pushLength
        state := if s.fg.rem.toNat = s.pushLength then (if s.fg.resume then .flushWait else .idle) else .push
        resume := if s.fg.rem.toNat = s.pushLength then false else s.fg.resume }
      out := if s.fg.rem.toNat = s.pushLength then s.out ++ [.rsp (s.fg.acc.zeroExtend 32) []] else s.out } := by
  rcases pushStep_cases s with ⟨hfull, -⟩ | ⟨-, hmore, e⟩ | ⟨-, hlast, e⟩
  · exact absurd hfull hfree
  · have hne := mt (rem_sub_pushLength_eq_zero_iff s).mpr hmore
    have hpushed : s.pushStep = s.pushed := e
    simp only [hpushed, pushed_eq_update hring, if_neg hne, ← hstate]
  · have heq := (rem_sub_pushLength_eq_zero_iff s).mp hlast
    have hpushed : s.pushStep = s.pushed.finishHeld (countWord s.fg.acc.toNat) [] := e
    simp only [hpushed, pushed_eq_update hring, if_pos heq, countWord_toNat]
    rfl

/-- Settles O25: the span is pushed within its precondition, so it goes to the end of the ring. -/
theorem pushEdgeQueuesOneSpan : Obligations.PushEdgeQueuesOneSpan := by
  unfold Obligations.PushEdgeQueuesOneSpan
  intro s hring hmem hstate hfree hrem n t
  have ⟨hlegal, _, _, _, htx, _, _, _⟩ := hring
  obtain ⟨-, -, hcells⟩ := hmem
  have ht : t = s.pushStep := fgContinue_of_push hstate
  rw [pushStep_eq_update hring hstate (Nat.pos_iff_ne_zero.mp hfree)] at ht
  have hlen : (s.fg.src.take n).length = n := length_take_pushLength hring
  obtain ⟨-, hleFree, hleSpan⟩ := pushLength_le s
  have hpush : s.Pushes .tx (s.fg.src.take n) t := by
    rw [ht]
    exact ⟨rfl, hlen.trans_le hleFree, hlen.trans_le hleSpan, by rw [hlen]; rfl, rfl⟩
  have hend : s.idx .tx s.fg.wptrTx + n ≤ s.cap .tx :=
    (Nat.add_le_add_left hleSpan _).trans_eq (idx_add_span hlegal .tx _)
  refine ⟨pushLength_pos hlegal hrem hfree, hpush.content hlegal htx hcells (by rw [ht]; rfl), fun a ha => ?_, ?_⟩
  · have hmemTx : t.memTx = memWrite (s.cap .tx) s.memTx (s.idx .tx s.fg.wptrTx) (s.fg.src.take n) := hpush.mem
    rw [hmemTx]
    exact cellRead_memWrite_outside _ _ _ _ (by rwa [hlen]) (by rwa [hlen])
  · rw [ht]; rfl

end Sys2Proof.Machine
end

section
/-! Preemption (41_transmit.md R141), and why a write that fits never holds for space (R128). -/

namespace Sys2Proof.Machine

/-! ## The command that preempts -/

theorem takeCommand_of_fetch {s : State} {i : Instr} (h : s.fetch = .ok i) : s.takeCommand = exec i s.portTaken := by
  simp only [State.takeCommand, h]

/-- No command pushes at the edge that takes it; the TX ring does not depend on the port. -/
theorem takenCommand_pushes_nil {s t : State} {i : Instr} (hring : s.RingInv) (hexec : exec i s.portTaken = .next t) :
    s.Pushes .tx [] t := by
  obtain ⟨-, -, -, -, htx, -, -, -⟩ := hring
  have h := exec_pushes_nil (s := s.portTaken) (fits_wptr htx) hexec
  exact ⟨h.cfg, h.free, h.span, h.wptr, h.mem⟩

/-- A command taken outside IDLE answers and leaves the held command's registers, or begins a write of what its clamped
count accepts: it is an interrupt-context command, so it is no FLUSH that waits. -/
theorem preempting_cases {s t : State} {i : Instr} (htake : s.takesCommand = true) (hheld : s.fg.state ≠ .idle)
    (hfetch : s.fetch = .ok i) (hexec : exec i s.portTaken = .next t) :
    (t.memTx = s.memTx ∧ (∃ w bytes, t.out = s.out ++ [.rsp w bytes]) ∧
        ∃ p c st, t.fg = { s.fg with rptrRx := p, ctrl := c, status := st }) ∨
      ∃ size source, 0 < s.acceptedCount true size ∧
        t = s.portTaken.acceptWrite (s.acceptedCount true size) source := by
  obtain ⟨-, hidle | ⟨hctx, -, -⟩⟩ := (takesCommand_iff s).mp htake
  · exact absurd hidle hheld
  · cases exec_begins (decode_fromWord hfetch) hexec with
    | @answers u w bytes hu =>
      obtain ⟨p, c, st, b, hu⟩ := hu.eq_update
      have hheld' : u.fg.state ≠ .idle := by rw [hu]; exact hheld
      rw [finishTaken_eq_emit fun hidle => absurd hidle hheld', hu]
      exact .inl ⟨rfl, ⟨w, bytes, rfl⟩, p, c, st, rfl⟩
    | accepts size source hlen hpos =>
      rw [hctx] at hpos ⊢
      exact .inr ⟨size, source, hpos, rfl⟩
    | waits hforeground => rw [hctx] at hforeground; cases hforeground

/-- A command that preempts a write finds no free space, so it begins none (R123, R141). -/
theorem preempting_of_writing {s t : State} {i : Instr} (htake : s.takesCommand = true) (hwriting : s.writing)
    (hfetch : s.fetch = .ok i) (hexec : exec i s.portTaken = .next t) :
    t.memTx = s.memTx ∧ (∃ w bytes, t.out = s.out ++ [.rsp w bytes]) ∧
      ∃ p c st, t.fg = { s.fg with rptrRx := p, ctrl := c, status := st } := by
  have hidle : s.fg.state ≠ .idle := fun h => not_writing_of_idle h hwriting
  rcases preempting_cases htake hidle hfetch hexec with hanswer | ⟨size, source, hpos, -⟩
  · exact hanswer
  · obtain h | ⟨-, ⟨-, hfull⟩ | h⟩ := takesCommand_cases htake
    · exact absurd h hidle
    · have hfits := acceptedCount_le_free (ctx := true) rfl size s
      omega
    · exact absurd hwriting (not_writing_of_flushWait h)

/-- Settles O27: without free space no write is accepted, so the command answers. -/
theorem preemptingCommandLeavesTheHeldWrite : Obligations.PreemptingCommandLeavesTheHeldWrite := by
  unfold Obligations.PreemptingCommandLeavesTheHeldWrite
  intro s hstate _ htake
  obtain ⟨i, hfetch⟩ := fetch_ok s
  obtain ⟨t, hexec⟩ := exec_next i s.portTaken
  obtain ⟨hmem, hanswer, p, c, st, hfg⟩ := preempting_of_writing htake (.inr hstate) hfetch hexec
  refine ⟨t, (takeCommand_of_fetch hfetch).trans hexec, ?_⟩
  rw [hfg]
  exact ⟨hstate, rfl, rfl, rfl, rfl, rfl, rfl, rfl, rfl, hmem, hanswer⟩

/-- Settles O28, by what a preempting command can do; no preempting write is in progress where it is taken. -/
theorem preemptingCommandKeepsTheFlush : Obligations.PreemptingCommandKeepsTheFlush := by
  unfold Obligations.PreemptingCommandKeepsTheFlush
  intro s hstate htake
  have hheld : s.fg.state ≠ .idle := by rw [hstate]; exact FgState.noConfusion
  have hresume : s.fg.resume = false := by
    obtain ⟨-, hidle | ⟨-, hresume, -⟩⟩ := (takesCommand_iff s).mp htake
    · exact absurd hidle hheld
    · exact hresume
  obtain ⟨i, hfetch⟩ := fetch_ok s
  obtain ⟨t, hexec⟩ := exec_next i s.portTaken
  refine ⟨t, (takeCommand_of_fetch hfetch).trans hexec, ?_⟩
  rcases preempting_cases htake hheld hfetch hexec with ⟨-, hanswer, p, c, st, hfg⟩ | ⟨size, source, hpos, rfl⟩
  · rw [hfg]
    exact .inl ⟨hstate, hresume, hanswer⟩
  · refine .inr ⟨rfl, ?_, rfl, ?_⟩
    · rw [acceptWrite_fg_resume, portTaken_fg, hstate, decide_eq_true rfl, Bool.or_true]
    · rwa [acceptWrite_fg_rem, BitVec.toNat_ofNat, Nat.mod_eq_of_lt (acceptedCount_lt ..)]

/-! ## A write that fits (R128) -/

/-- What an FG edge pushes it takes from the bytes of the write in progress, and it begins no other write. -/
theorem writing_pushes {s u : State} (hring : s.RingInv) (hwriting : s.writing) (h : s.fgSequencer = .next u) :
    ∃ bytes, s.Pushes .tx bytes u ∧ u.fg.rem.toNat + bytes.length = s.fg.rem.toNat := by
  have ⟨_, _, _, _, htx, _, _, _⟩ := hring
  have hspan := pushed_pushes hring
  have hrem : s.pushed.fg.rem.toNat + (s.fg.src.take s.pushLength).length = s.fg.rem.toNat := by
    obtain ⟨hle, -, -⟩ := pushLength_le s
    rw [pushed_eq_update hring, length_take_pushLength hring, rem_sub_pushLength, Nat.sub_add_cancel hle]
  rcases fgSequencer_cases h with ⟨htake, i, hfetch, hexec⟩ | ⟨-, rfl⟩
  · obtain ⟨-, -, p, c, st, hfg⟩ := preempting_of_writing htake hwriting hfetch hexec
    exact ⟨[], takenCommand_pushes_nil hring hexec, by rw [hfg]; rfl⟩
  · rcases fgContinue_cases s with e | e | e | e | ⟨w, e⟩ <;> rw [e]
    · exact ⟨[], .nil rfl (fits_wptr htx) rfl rfl, rfl⟩
    · exact ⟨[], .nil rfl (fits_wptr htx) rfl rfl, rfl⟩
    · exact ⟨[], .nil rfl (fits_wptr htx) rfl rfl, rfl⟩
    · exact ⟨_, hspan, hrem⟩
    · exact ⟨_, hspan.finishHeld w [], hrem⟩

/-- The bytes left of the write in progress fit the free space of the FG view. -/
abbrev State.WriteFits (s : State) : Prop := s.fg.rem.toNat ≤ s.availableToWrite .tx

/-- The host's presentation is one of the port, of which the write and the rings do not speak. -/
theorem fgEdge_of_presented {present : Option HostCmd} {copy : LineState} {s t : State}
    (h : s.fgEdge present copy = .next t) :
    ∃ port, s.hostPresent present = { s with port := port } ∧
      ({ s with port := port } : State).fgEdge none copy = .next t := by
  obtain ⟨port, hport⟩ := hostPresent_eq_update present s
  exact ⟨port, hport, by rw [← hport, ← fgEdge_eq_fgEdge_none, h]⟩

theorem fgEdge_none_writeFits {copy : LineState} {s t : State} (hring : s.RingInv) (hwriting : s.writing)
    (hfits : s.WriteFits) (hedge : s.fgEdge none copy = .next t) : t.WriteFits := by
  obtain ⟨-, hproducer⟩ := fgEdge_ringEdges hedge
  obtain ⟨u, hseq, rfl⟩ := fgEdge_cases hedge
  obtain ⟨bytes, hpush, hrem⟩ := writing_pushes hring hwriting hseq
  have hfree := availableToWrite_fgCrossings hring hpush hproducer
  change s.fg.rem.toNat ≤ _ at hfits
  change u.fg.rem.toNat ≤ (State.fgCrossings copy s u).availableToWrite .tx
  omega

theorem fgEdge_writeFits {present : Option HostCmd} {copy : LineState} {s t : State} (hring : s.RingInv)
    (hwriting : s.writing) (hfits : s.WriteFits) (hedge : s.fgEdge present copy = .next t) : t.WriteFits := by
  obtain ⟨port, -, hedge⟩ := fgEdge_of_presented hedge
  exact fgEdge_none_writeFits (s := { s with port := port }) hring hwriting hfits hedge

theorem writeFits_of_fg {s t : State} (hcfg : t.cfg = s.cfg) (hfg : t.fg = s.fg) (h : s.WriteFits) :
    t.WriteFits := by
  rwa [State.WriteFits, State.availableToWrite, prodView_tx_of_fg hcfg hfg, cap_of_cfg hcfg, hfg]

/-- A clamped write is turned away, or begins with a count that fits the view the edge leaves (R123, R128). -/
theorem fgEdge_none_clamped_write {copy : LineState} {s t : State} {ctx : Bool} {size : Count} {source : List Byte}
    {i : Instr} (hring : s.RingInv) (hmode : ctx = true ∨ ctrlBoo s.fg.ctrl = false)
    (hi : ∀ u, exec i u = .next (u.beginWrite ctx size source)) (htake : s.takesCommand = true)
    (hfetch : s.fetch = .ok i) (hedge : s.fgEdge none copy = .next t) :
    (t.fg.rem = s.fg.rem ∧ t.out = s.out ++ [.rsp 0 []]) ∨
      (t.fg.state = .waitAck ∧ t.out = s.out ∧ 0 < t.fg.rem.toNat ∧ t.WriteFits) := by
  obtain ⟨-, hproducer⟩ := fgEdge_ringEdges hedge
  obtain ⟨u, hseq, rfl⟩ := fgEdge_cases hedge
  have hexec : exec i s.portTaken = .next u := by
    rw [← takeCommand_of_fetch hfetch]
    simpa only [hostPresent_none, State.fgSequencer, htake, if_true] using hseq
  have hfree := availableToWrite_fgCrossings hring (takenCommand_pushes_nil hring hexec) hproducer
  rw [hi] at hexec
  cases hexec
  rcases beginWrite_cases ctx size source s.portTaken with ⟨-, e⟩ | ⟨-, hpos, e⟩
  · left
    rw [fgCrossings_fg_rem, fgCrossings_out, e, finishTaken_fg_rem, finishTaken_out]
    exact ⟨rfl, rfl⟩
  · have hcount : s.portTaken.acceptedCount ctx size ≤ s.availableToWrite .tx :=
      (acceptedCount_clamped (s := s.portTaken) hmode size).trans_le (Nat.min_le_right _ _)
    have hrem : (BitVec.ofNat 16 (s.portTaken.acceptedCount ctx size)).toNat = s.portTaken.acceptedCount ctx size := by
      rw [BitVec.toNat_ofNat, Nat.mod_eq_of_lt (acceptedCount_lt ..)]
    right
    rw [e] at hfree ⊢
    rw [State.WriteFits, fgCrossings_fg_rem, fgCrossings_fg_state, fgCrossings_out, acceptWrite_fg_rem, hrem]
    exact ⟨rfl, rfl, hpos, hcount.trans hfree⟩

/-- Settles O59: the free space of the FG view loses only what the write pushes, and a clamped write begins within it. -/
theorem fittingWriteNeverHolds : Obligations.FittingWriteNeverHolds := by
  unfold Obligations.FittingWriteNeverHolds
  refine ⟨fun s t hring hwriting hfits hstep _ => ?_, fun ctx size s hmode => ?_,
    fun s t present copy ctx i hring hmode hi htake hfetch hedge => ?_⟩
  · have hmove : s.moveTaken.RingInv := hring
    have hfitsMove : s.moveTaken.WriteFits := hfits
    obtain ⟨-, -, ⟨present, copy, -, hedge⟩ | ⟨answer, -, rfl⟩ | ⟨signals, event, -, rfl⟩⟩ := step_cases hstep
    · exact fgEdge_writeFits hmove hwriting hfitsMove hedge
    · exact writeFits_of_fg (evEdge_cfg ..) (evEdge_fg ..) hfitsMove
    · exact writeFits_of_fg (devStep_cfg ..) (devStep_fg ..) hfitsMove
  · exact (acceptedCount_clamped hmode size).trans_le (Nat.min_le_right _ _)
  · obtain ⟨port, hport, hedge⟩ := fgEdge_of_presented hedge
    rw [hport] at htake hfetch
    rcases hi with ⟨data, rfl⟩ | ⟨size, source, rfl⟩
    · exact fgEdge_none_clamped_write (s := { s with port := port }) hring hmode
        (exec_write1 ctx data) htake hfetch hedge
    · exact fgEdge_none_clamped_write (s := { s with port := port }) hring hmode
        (exec_writeb ctx size source) htake hfetch hedge

end Sys2Proof.Machine
end

section
/-! The receive commands: what AVAIL, PEEK, READ and READB answer and take (42_receive.md R151 to R154). -/

namespace Sys2Proof.Machine

/-! ## Distances between pointers of any value -/

/-- Only the pointers modulo 2^PW matter to their distance. -/
theorem ptrSub_ptrAdd_zero {m : Nat} (hm : 0 < m) (hM : m ≤ 65536) (a b : Ptr) :
    ptrSub m (ptrAdd m a 0) (ptrAdd m b 0) = ptrSub m a b := by
  simp only [ptrSub, ptrAdd_toNat hm hM, Nat.add_zero, Nat.mod_mod, Nat.mod_add_mod]

/-- The rear pointer may be one that does not fit: an advance reduces it modulo 2^PW. -/
theorem ptrSub_ptrAdd_add {m : Nat} (hm : 0 < m) (hM : m ≤ 65536) {a b : Ptr} {n : Nat} (hn : n ≤ ptrSub m a b) :
    ptrSub m a (ptrAdd m b n) + n = ptrSub m a b := by
  rw [← ptrSub_ptrAdd_zero hm hM a b] at hn ⊢
  have htake := ptrSub_ptrAdd_right hM (ptrAdd_lt hm hM a 0) (ptrAdd_lt hm hM b 0) hn
  rw [ptrAdd_ptrAdd hm hM, Nat.zero_add] at htake
  rw [← ptrSub_ptrAdd_zero hm hM a (ptrAdd m b n), ptrAdd_ptrAdd hm hM, Nat.add_zero, htake]
  omega

/-! ## Bytes taken from RX -/

section
variable {s : State} (hlegal : s.cfg.legal = true)
include hlegal

/-- What is taken from RX is gone from its view. -/
theorem consView_skipRx {k : Nat} (hk : k ≤ s.consView .rx) :
    (s.skipRx k).consView .rx + k = s.consView .rx := by
  obtain ⟨-, -, -, hpos, hM⟩ := modulus_spec hlegal .rx
  exact ptrSub_ptrAdd_add hpos hM hk

theorem skipRx_skipRx (i j : Nat) : (s.skipRx i).skipRx j = s.skipRx (i + j) := by
  obtain ⟨-, -, -, hpos, hM⟩ := modulus_spec hlegal .rx
  change s.setRptr .rx (ptrAdd (s.modulus .rx) (ptrAdd (s.modulus .rx) (s.rptr .rx) i) j) = _
  rw [ptrAdd_ptrAdd hpos hM]
  rfl

/-- A block read goes on where the read pointer is after its first part, across the wrap (20_memory.md R69). -/
theorem ringRead_skipRx (i j : Nat) :
    s.ringRead .rx (s.idx .rx (s.rptr .rx)) i ++
        (s.skipRx i).ringRead .rx ((s.skipRx i).idx .rx ((s.skipRx i).rptr .rx)) j =
      s.ringRead .rx (s.idx .rx (s.rptr .rx)) (i + j) := by
  change _ ++ s.ringRead .rx (s.idx .rx (ptrAdd (s.modulus .rx) (s.rptr .rx) i)) j = _
  rw [idx_ptrAdd hlegal, State.ringRead, State.ringRead, State.ringRead, memRead_mod, ← memRead_add]

/-- READB's second span is empty or starts at index 0, where a view of at most CAP bytes leaves room for it. -/
theorem canPop_skipRx_firstSpan (hcap : s.consView .rx ≤ s.cap .rx) {k : Nat} (hk : k ≤ s.consView .rx) :
    (s.skipRx (s.firstSpan k)).canPop .rx (k - s.firstSpan k) = true := by
  have hfirst : s.firstSpan k ≤ k := Nat.min_le_left _ _
  have hview := consView_skipRx hlegal (hfirst.trans hk)
  refine (canPop_iff ..).mpr ⟨?_, ?_⟩
  · rw [State.availableToRead]
    omega
  · change _ ≤ s.span .rx (s.idx .rx (ptrAdd (s.modulus .rx) (s.rptr .rx) (s.firstSpan k)))
    by_cases hone : k ≤ s.span .rx (s.idx .rx (s.rptr .rx))
    · rw [State.firstSpan, Nat.min_eq_left hone, Nat.sub_self]
      exact Nat.zero_le _
    · rw [State.firstSpan, Nat.min_eq_right (by omega), idx_ptrAdd_span hlegal]
      exact (Nat.sub_le ..).trans (hk.trans hcap)

end

theorem popChunk_rx_of_canPop {s : State} {n : Nat} (h : s.canPop .rx n = true) :
    s.popChunk .rx n = (s.ringRead .rx (s.idx .rx (s.rptr .rx)) n, s.skipRx n) := popChunk_of_canPop h

/-- READB takes its two spans as one block, with no more asked of the state than a view of at most CAP bytes. -/
theorem exec_readb_of_view {s : State} (hlegal : s.cfg.legal = true) (hcap : s.consView .rx ≤ s.cap .rx)
    (size : Count) :
    let k := min size.toNat (s.consView .rx)
    exec (.readb size) s =
      .next ((s.skipRx k).finishTaken (countWord k) (s.ringRead .rx (s.idx .rx (s.rptr .rx)) k)) := by
  intro k
  have hk : k ≤ s.consView .rx := Nat.min_le_right _ _
  have hle : s.firstSpan k ≤ k := Nat.min_le_left _ _
  have hfirst : s.canPop .rx (s.firstSpan k) = true := (canPop_iff ..).mpr ⟨hle.trans hk, Nat.min_le_right _ _⟩
  have hsecond := canPop_skipRx_firstSpan hlegal hcap hk
  have hexec : exec (.readb size) s =
      let (first, t) := s.popChunk .rx (s.firstSpan k)
      let (second, u) := t.popChunk .rx (k - s.firstSpan k)
      .next (u.finishTaken (countWord k) (first ++ second)) := rfl
  rw [hexec, popChunk_rx_of_canPop hfirst]
  simp only [popChunk_rx_of_canPop hsecond, ringRead_skipRx hlegal, skipRx_skipRx hlegal, Nat.add_sub_cancel' hle]

/-! ## The answers -/

/-- Settles O10: either query answers at the edge that takes it. -/
theorem occupancyQueriesAnswerTheViews : Obligations.OccupancyQueriesAnswerTheViews := by
  unfold Obligations.OccupancyQueriesAnswerTheViews
  intro s hrest
  simp only [exec, execAvail, execAvailw, finishTaken_eq_emit hrest]
  exact ⟨rfl, rfl⟩

/-- Settles O11, by whether the view shows a byte; a byte as a word is never NODATA. -/
theorem peekAnswersNextByteOrNoData : Obligations.PeekAnswersNextByteOrNoData := by
  unfold Obligations.PeekAnswersNextByteOrNoData
  intro s hrest
  have hexec : exec .peek s = .next (s.emit (.rsp (byteOrNoData (s.peekByte .rx)) [])) := by
    rw [← finishTaken_eq_emit hrest]; rfl
  rcases peekByte_cases .rx s with ⟨hempty, hpeek⟩ | ⟨hview, hpeek⟩ <;> rw [hexec, hpeek]
  · exact ⟨fun _ => rfl, fun hview => absurd hempty hview⟩
  · exact ⟨fun hempty => absurd hempty hview, fun _ => ⟨rfl, byteWord_ne_noData _⟩⟩

/-- Settles O18: an empty view answers at once; else the byte at the read index is taken. -/
theorem readPopsOneByte : Obligations.ReadPopsOneByte := by
  unfold Obligations.ReadPopsOneByte
  intro s hlegal hrest
  refine ⟨fun hempty => ?_, fun hview => ⟨?_, consView_skipRx hlegal (Nat.pos_of_ne_zero hview)⟩⟩
  · simp only [exec, execRead, if_pos hempty, finishTaken_eq_emit hrest]
    rfl
  · rw [exec_read_of_view hlegal hview, finishTaken_eq_emit (s := s.skipRx 1) hrest]
    rfl

/-- Settles O19: the two spans are one block, read and taken from the view. -/
theorem readbPopsWhatIsThere : Obligations.ReadbPopsWhatIsThere := by
  unfold Obligations.ReadbPopsWhatIsThere
  intro size s hlegal hcap hrest k
  refine ⟨?_, consView_skipRx hlegal (Nat.min_le_right _ _)⟩
  rw [exec_readb_of_view hlegal hcap, finishTaken_eq_emit (s := s.skipRx k) hrest]
  rfl

end Sys2Proof.Machine
end

section
/-! The RX drain: an iteration with and without room, and the saturation scenario (42_receive.md R155 to R157, R160). -/

namespace Sys2Proof.Machine

/-! ## The iteration, as a record update -/

/-- The notification that the end of the RX phase makes of the round's total, if one is due (R156). -/
def State.rxNotice (s : State) : List OutEvent :=
  if s.ev.rxWasEmpty = true ∧ s.ev.rxTotal ≠ 0 ∧ s.ev.rxn.s2 = true then [.ntfRx s.ev.rxTotal] else []

/-- Where the EV sequencer goes after the RX phase (43_event_dispatch.md R181). -/
def State.afterDrain (s : State) : EvState := if s.ev.mask.getLsbD 1 then .txDone else .idle

/-- The end of the RX phase writes `ev_state` and notifies if it is due. -/
theorem endRxPhase_eq (s : State) :
    s.endRxPhase s.ev.rxTotal =
      { s with ev := { s.ev with state := s.afterDrain }, out := s.out ++ s.rxNotice } := by
  rcases endRxPhase_cases s.ev.rxTotal s with ⟨hempty, htotal, hlistens, h⟩ | ⟨hnone, h⟩
  · have hnotice : s.rxNotice = [.ntfRx s.ev.rxTotal] := if_pos ⟨hempty, htotal, hlistens⟩
    rw [h, hnotice]
    rfl
  · have hnotice : s.rxNotice = [] := if_neg hnone
    rw [h, hnotice, List.append_nil]
    rfl

theorem rxIter_of_no_room (answer : List Byte) {s : State}
    (h : s.availableToWrite .rx = 0 ∨ s.cap .rx - s.ev.rxTotal.toNat = 0) :
    s.rxIter answer = { s with ev := { s.ev with state := s.afterDrain }, out := s.out ++ s.rxNotice } := by
  rw [State.rxIter, if_pos h, endRxPhase_eq]

/-- An empty answer leaves the round's total, of which the notification tells. -/
theorem rxNotice_drained {answer : List Byte} {s : State} (hnil : (answer.take s.rxCap).length = 0) :
    (s.drained answer).rxNotice = s.rxNotice := by
  have htotal : s.ev.rxTotal + BitVec.ofNat 16 (answer.take s.rxCap).length = s.ev.rxTotal := by
    rw [hnil]
    exact BitVec.add_zero _
  rw [drained_eq_update]
  simp only [State.rxNotice, htotal]

/-- An iteration with free space and quota makes its request, queues and counts the answer, and ends the phase if the
answer is empty (R155, R156). -/
theorem rxIter_of_room (answer : List Byte) {s : State} (hstate : s.ev.state = .rxDrain)
    (hfree : s.availableToWrite .rx ≠ 0) (hquota : s.cap .rx - s.ev.rxTotal.toNat ≠ 0) :
    s.rxIter answer = { s with
      memRx := memWrite (s.cap .rx) s.memRx (s.idx .rx s.ev.wptrRx) (answer.take s.rxCap)
      ev := { s.ev with
        wptrRx := ptrAdd (s.modulus .rx) s.ev.wptrRx (answer.take s.rxCap).length
        rxTotal := s.ev.rxTotal + BitVec.ofNat 16 (answer.take s.rxCap).length
        state := if (answer.take s.rxCap).length ≠ 0 then .rxDrain else s.afterDrain }
      out := s.out ++ [.rxReq (BitVec.ofNat 16 s.rxCap)] ++
        if (answer.take s.rxCap).length = 0 then s.rxNotice else [] } := by
  rcases rxIter_cases answer s with ⟨hno | hno, -⟩ | ⟨-, -, hnil, h⟩ | ⟨-, -, hsome, h⟩
  · exact absurd hno hfree
  · exact absurd hno hquota
  · have hend : s.rxIter answer = (s.drained answer).endRxPhase (s.drained answer).ev.rxTotal := h
    rw [hend, endRxPhase_eq, rxNotice_drained hnil, drained_eq_update, if_neg (not_not.mpr hnil), if_pos hnil]
    rfl
  · have hmore : s.rxIter answer = s.drained answer := h
    rw [hmore, drained_eq_update, if_pos hsome, if_neg hsome, List.append_nil, ← hstate]

theorem evEdge_of_rxDrain (answer : List Byte) {s : State} (h : s.ev.state = .rxDrain) :
    s.evEdge answer = State.evCrossings s (s.rxIter answer) := by
  simp only [State.evEdge, State.evSequencer, h]

/-! ## An edge of the drain -/

/-- A request asks for at least one byte: there is free space, the span is never empty, and quota is left (R155). -/
theorem rxCap_pos {s : State} (hlegal : s.cfg.legal = true) (hfree : 0 < s.availableToWrite .rx)
    (hquota : s.ev.rxTotal.toNat < s.cap .rx) : 0 < s.rxCap := by
  obtain ⟨-, hspan⟩ := idx_lt hlegal .rx (s.wptr .rx)
  exact lt_min (lt_min hfree hspan) (Nat.sub_pos_of_lt hquota)

/-- The round's total stays within the quota, so it does not wrap in its register. -/
theorem rxTotal_add_toNat {s : State} (hlegal : s.cfg.legal = true) (hquota : s.ev.rxTotal.toNat < s.cap .rx)
    {n : Nat} (hn : n ≤ s.rxCap) :
    (s.ev.rxTotal + BitVec.ofNat 16 n).toNat = s.ev.rxTotal.toNat + n := by
  obtain ⟨-, hmax, -⟩ := modulus_spec hlegal .rx
  obtain ⟨-, -, hleft⟩ := rxCap_le s
  rw [BitVec.toNat_add, BitVec.toNat_ofNat, Nat.add_mod_mod]
  exact Nat.mod_eq_of_lt (by omega)

/-- Settles O40: the answer, cut to the request, is a push within its precondition. -/
theorem drainIterationQueuesTheAnswer : Obligations.DrainIterationQueuesTheAnswer := by
  unfold Obligations.DrainIterationQueuesTheAnswer
  intro s answer hring hmem hstate hfree hquota cap n t
  have ⟨hlegal, _, _, hrx, _, _, _, _⟩ := hring
  obtain ⟨-, -, -, hpos, hM⟩ := modulus_spec hlegal .rx
  obtain ⟨hleFree, hleSpan, -⟩ := rxCap_le s
  have hn : n ≤ s.rxCap := List.length_take_le _ _
  have ht : t = State.evCrossings s (s.rxIter answer) := evEdge_of_rxDrain answer hstate
  rw [rxIter_of_room answer hstate (Nat.pos_iff_ne_zero.mp hfree) (Nat.sub_ne_zero_of_lt hquota)] at ht
  have hpush : s.Pushes .rx (answer.take s.rxCap) t := by
    rw [ht]
    exact ⟨rfl, hn.trans hleFree, hn.trans hleSpan, rfl, rfl⟩
  have hend : s.idx .rx s.ev.wptrRx + n ≤ s.cap .rx :=
    (Nat.add_le_add_left (hn.trans hleSpan) _).trans_eq (idx_add_span hlegal .rx _)
  refine ⟨rxCap_pos hlegal hfree hquota, hpush.content hlegal hrx (cellsWf_mem hmem .rx) (by rw [ht]; rfl), ?_,
    fun a ha => ?_, ?_, ?_, ?_, ?_, ?_, ?_, ?_, ?_, ?_⟩
  case refine_1 => rw [ht]; exact ptrAdd_toNat hpos hM _ _
  case refine_2 =>
    have hmemRx : t.memRx = memWrite (s.cap .rx) s.memRx (s.idx .rx s.ev.wptrRx) (answer.take s.rxCap) := hpush.mem
    rw [hmemRx]
    exact cellRead_memWrite_outside _ _ _ _ hend ha
  case refine_3 => rw [ht]; exact rxTotal_add_toNat hlegal hquota hn
  case refine_11 => rw [ht, ite_and]; rfl
  all_goals rw [ht]; rfl

/-- Settles O41: without room an iteration only ends the phase. -/
theorem fullRingEndsTheDrain : Obligations.FullRingEndsTheDrain := by
  unfold Obligations.FullRingEndsTheDrain
  intro s answer hstate hfull t
  have ht : t = State.evCrossings s (s.rxIter answer) := evEdge_of_rxDrain answer hstate
  rw [rxIter_of_no_room answer hfull] at ht
  rw [ht]
  exact ⟨rfl, rfl, rfl, rfl, rfl, rfl, rfl, rfl, rfl, rfl, rfl⟩

/-! ## Saturation (R160) -/

theorem ptrSub_zero (m : Nat) (a : Ptr) : ptrSub m a 0 = a.toNat % m := by
  change (a.toNat + (m - 0 % m)) % m = _
  rw [Nat.zero_mod, Nat.sub_zero, Nat.add_mod_right]

/-- While EV's copy of `rptr_RX` is 0, its view of RX is the write pointer. -/
theorem prodView_rx_of_nothing_read {s : State} (h : s.ev.rsyncRx.s2 = 0) :
    s.prodView .rx = s.ev.wptrRx.toNat % s.modulus .rx := by
  change ptrSub _ s.ev.wptrRx (gray2bin s.ev.rsyncRx.s2) = _
  rw [h]
  exact ptrSub_zero _ _

/-- A pointer of a 64-byte ring has 7 bits. -/
theorem modulus_rx_of_capRx_64 {s : State} (h : s.cfg.capRx = 64) : s.modulus .rx = 128 := by
  simp only [State.modulus, Params.pw, Params.aw, Params.cap, h]
  rfl

section
variable {s : State} (hcap : s.cfg.capRx = 64) (hsync : s.ev.rsyncRx.s2 = 0)
include hcap hsync

theorem availableToWrite_rx_of_capRx_64 : s.availableToWrite .rx = 64 - s.ev.wptrRx.toNat % 128 := by
  rw [State.availableToWrite, prodView_rx_of_nothing_read hsync, modulus_rx_of_capRx_64 hcap]
  exact congrArg (· - _) hcap

/-- With 40 bytes queued the free space and the span are both 24. -/
theorem rxCap_of_saturation (hwptr : s.ev.wptrRx = 40) (htotal : s.ev.rxTotal = 0) : s.rxCap = 24 := by
  have hfree := availableToWrite_rx_of_capRx_64 hcap hsync
  have hspan : s.span .rx (s.idx .rx (s.wptr .rx)) = 24 := by
    simp only [State.span, State.idx, ptrIdx, State.wptr, State.cap, Params.aw, Params.cap, hcap, hwptr]
    rfl
  have hquota : s.cap .rx - s.ev.rxTotal.toNat = 64 := by
    simp only [State.cap, Params.cap, hcap, htotal]
    rfl
  rw [State.rxCap, hfree, hspan, hquota, hwptr]
  rfl

end

/-- Settles O42: the first iteration fills the ring, so that the second finds no free space. -/
theorem saturatedDrainPullsTwentyFour : Obligations.SaturatedDrainPullsTwentyFour := by
  unfold Obligations.SaturatedDrainPullsTwentyFour
  intro s first second hcap hwptr hsync hstate htotal hoffer t u
  have hsync2 : s.ev.rsyncRx.s2 = 0 := by rw [hsync]
  have hfree : s.availableToWrite .rx = 24 := by rw [availableToWrite_rx_of_capRx_64 hcap hsync2, hwptr]; rfl
  have hquota : s.cap .rx - s.ev.rxTotal.toNat = 64 := by rw [htotal]; exact hcap
  have hlen : (first.take s.rxCap).length = 24 := by
    rw [rxCap_of_saturation hcap hsync2 hwptr htotal]
    exact List.length_take_of_le hoffer
  have ht : t = State.evCrossings s (s.rxIter first) := evEdge_of_rxDrain first hstate
  rw [rxIter_of_room first hstate (by omega) (by omega), hlen] at ht
  have htwptr : t.ev.wptrRx = 64 := by
    rw [ht, evCrossings_ev_wptrRx, modulus_rx_of_capRx_64 hcap, hwptr]
    rfl
  have htstate : t.ev.state = .rxDrain := by rw [ht]; rfl
  have htcap : t.cfg.capRx = 64 := by rw [ht]; exact hcap
  have htfull : t.availableToWrite .rx = 0 := by
    rw [availableToWrite_rx_of_capRx_64 htcap (by rw [ht, evCrossings_ev_rsyncRx, hsync]; rfl), htwptr]
    rfl
  obtain ⟨-, huwptr, -, -, -, -, -, -, -, hustate, huout⟩ := fullRingEndsTheDrain t second htstate (.inl htfull)
  refine ⟨htwptr, ?_, htstate, ?_, huwptr.trans htwptr, ?_, ?_⟩
  · rw [ht, evCrossings_ev_rxTotal, htotal]
    rfl
  · rw [ht, evCrossings_out, rxCap_of_saturation hcap hsync2 hwptr htotal]
    exact List.append_nil _
  · rw [hustate]
    split <;> exact EvState.noConfusion
  · intro c
    rw [huout, List.drop_left]
    split <;> simp

end Sys2Proof.Machine
end

section
/-! The start of an event round: an idle EV edge without a launch takes the presented event, or does nothing
(43_event_dispatch.md R180, R181). -/

namespace Sys2Proof.Machine

/-! ## An idle edge without a launch -/

theorem evEdge_of_idle (answer : List Byte) {s : State} (h : s.ev.state = .idle) :
    s.evEdge answer = State.evCrossings s s.evIdle := by
  simp only [State.evEdge, State.evSequencer, h]

section
variable {s : State} (hbar : s.ev.txSize ≠ 0 ∨ s.consView .tx = 0)
include hbar

/-- A packet in flight or an empty view of TX bars the launch (41_transmit.md R130). -/
theorem not_launchEn_of_barred : ¬s.launchEn = true := by
  intro hlaunch
  obtain ⟨-, hfree, hview⟩ := (launchEn_iff s).mp hlaunch
  rcases hbar with hbusy | hempty
  · exact hbusy hfree
  · exact hview.ne' hempty

theorem evIdle_of_event {m : BitVec 2} (hevent : s.devEvent = some m) : s.evIdle = s.evRound m := by
  rcases evIdle_cases s with ⟨hlaunch, -⟩ | ⟨-, m', hm', h⟩ | ⟨-, hnone, -⟩
  · exact absurd hlaunch (not_launchEn_of_barred hbar)
  · obtain rfl : m = m' := Option.some.inj (hevent.symm.trans hm')
    exact h
  · exact absurd (hevent.symm.trans hnone) (Option.some_ne_none m)

theorem evIdle_of_no_event (hnone : s.devEvent = none) : s.evIdle = s := by
  rcases evIdle_cases s with ⟨hlaunch, -⟩ | ⟨-, m, hm, -⟩ | ⟨-, -, h⟩
  · exact absurd hlaunch (not_launchEn_of_barred hbar)
  · exact absurd (hm.symm.trans hnone) (Option.some_ne_none m)
  · exact h

end

/-- Settles O39: without a launch the idle edge is `evRound` of the presented event, a record update of `ev` and
`devEvent`, or nothing. -/
theorem eventRoundStartsWithItsMask : Obligations.EventRoundStartsWithItsMask := by
  unfold Obligations.EventRoundStartsWithItsMask
  constructor
  · intro s answer m hidle hbar hevent t
    have ht : t = State.evCrossings s (s.evRound m) := by
      rw [← evIdle_of_event hbar hevent]
      exact evEdge_of_idle answer hidle
    rw [ht]
    exact ⟨rfl, rfl, rfl, rfl, rfl, rfl, rfl, rfl, rfl, rfl, rfl⟩
  · intro s answer hidle hbar hnone
    rw [evEdge_of_idle answer hidle, evIdle_of_no_event hbar hnone]

end Sys2Proof.Machine
end

section
/-! The commands that answer line state and control at the edge that takes them (44_line_state_ctrl.md R200 to R207). -/

namespace Sys2Proof.Machine

/-! ## The answered words and the written registers, bit by bit -/

/-- The fields of LINEFMT's answer are adjacent, the data bits lowest (R204). -/
theorem lineWord_fields (l : LineState) :
    (lineWord l).extractLsb' 0 8 = l.databits ∧ (lineWord l).extractLsb' 8 8 = l.parity ∧
      (lineWord l).extractLsb' 16 8 = l.stopbits ∧ (lineWord l).extractLsb' 24 2 = l.ctl ∧
      (lineWord l).extractLsb' 26 6 = 0 := by
  simp only [lineWord]
  refine ⟨BitVec.extractLsb'_append_eq_right, ?_, ?_, ?_, ?_⟩
  all_goals repeat rw [BitVec.extractLsb'_append_eq_of_le (by decide)]
  · exact BitVec.extractLsb'_append_eq_right
  · exact BitVec.extractLsb'_append_eq_right
  · exact BitVec.extractLsb'_append_eq_right
  · exact BitVec.extractLsb'_eq_self

/-- The fields of GETCTRL's answer (R205). -/
theorem ctrlWord_fields (status ctrl : Byte) :
    (ctrlWord status ctrl).extractLsb' 0 8 = ctrl ∧ (ctrlWord status ctrl).extractLsb' 8 8 = status ∧
      (ctrlWord status ctrl).extractLsb' 16 16 = 0 := by
  simp only [ctrlWord]
  refine ⟨BitVec.extractLsb'_append_eq_right, ?_, ?_⟩
  all_goals repeat rw [BitVec.extractLsb'_append_eq_of_le (by decide)]
  · exact BitVec.extractLsb'_append_eq_right
  · exact BitVec.extractLsb'_eq_self

/-- SETCTRL takes the low three bits (R206). -/
theorem ctrlValue_getLsbD (data : Byte) (k : Nat) :
    (ctrlValue data).getLsbD k = (decide (k < 3) && data.getLsbD k) := by
  have hbyte : k < 3 → k < 8 := fun h => h.trans (by decide)
  by_cases hk : k < 3 <;> simp [ctrlValue, hk, hbyte]

/-- Bit 0 of STATUS is the sticky ILL (R207). -/
theorem setIll_getLsbD (status : Byte) (k : Nat) :
    (setIll status).getLsbD k = (decide (k = 0) || status.getLsbD k) := by
  simp [setIll, Bool.or_comm]

/-! ## The answers -/

/-- With no preempting write pending in IDLE, an answer at the taking edge appends to the output alone. -/
theorem next_finishTaken {s : State} (hrest : s.fg.state = .idle → s.fg.resume = false) (w : Word)
    (bytes : List Byte) :
    (.next (s.finishTaken w bytes) : Host.Outcome State Fault Refusal) =
      .next { s with out := s.out ++ [.rsp w bytes] } :=
  congrArg Host.Outcome.next (finishTaken_eq_emit hrest w bytes)

/-- Settles O9: NOP's row fixes OP and RSV and reads no operand. -/
theorem nopAnswersZero : Obligations.NopAnswersZero := by
  unfold Obligations.NopAnswersZero
  refine ⟨fun w data hop hrsv => ?_, by decide, fun s hrest => next_finishTaken hrest 0 []⟩
  exact (decode_ok_iff ..).mpr ⟨hrsv.trans (cmdRsv_cmdWord ..).symm, fun _ => hop.trans (cmdOp_cmdWord ..).symm, trivial⟩

/-- Settles O13: either query answers its shadow register as it stands. -/
theorem connectedAndBaudAnswerTheShadow : Obligations.ConnectedAndBaudAnswerTheShadow := by
  unfold Obligations.ConnectedAndBaudAnswerTheShadow
  intro s hrest
  exact ⟨next_finishTaken hrest (boolWord s.fg.shadow.connected) [], next_finishTaken hrest s.fg.shadow.baud []⟩

/-- Settles O14, by the fields of the answered word; the control lines are the two bits of theirs. -/
theorem linefmtPacksTheLineState : Obligations.LinefmtPacksTheLineState := by
  unfold Obligations.LinefmtPacksTheLineState
  intro s hrest
  obtain ⟨hdatabits, hparity, hstopbits, hctl, hzero⟩ := lineWord_fields s.fg.shadow
  refine ⟨_, next_finishTaken hrest (lineWord s.fg.shadow) [], hdatabits, hparity, hstopbits, ?_, ?_, hzero⟩
  all_goals
    rw [← hctl, BitVec.getLsbD_extractLsb']
    rfl

/-- Settles O15, by the fields of the answered word. -/
theorem getctrlAnswersStatusAndCtrl : Obligations.GetctrlAnswersStatusAndCtrl := by
  unfold Obligations.GetctrlAnswersStatusAndCtrl
  intro s hrest
  exact ⟨_, next_finishTaken hrest (ctrlWord s.fg.status s.fg.ctrl) [], ctrlWord_fields ..⟩

/-- Settles O16: the write of CTRL leaves the sequencer, so the answer changes the output alone. -/
theorem setctrlWritesTheLowThreeBits : Obligations.SetctrlWritesTheLowThreeBits := by
  unfold Obligations.SetctrlWritesTheLowThreeBits
  intro data s hrest
  exact ⟨ctrlValue data, next_finishTaken (s := { s with fg := { s.fg with ctrl := ctrlValue data } }) hrest 0 [],
    ctrlValue_getLsbD data⟩

/-- The eight illegal rows have one meaning (R207). -/
theorem exec_illegal {i : Instr} (s : State)
    (h : i ∈ [.illegalOp, .illegalRsv1, .illegalRsv2, .illegalRsv3, .illegalRsv4, .illegalRsv5, .illegalRsv6,
      .illegalRsv7]) : exec i s = .next s.takeIllegal := by
  simp only [List.mem_cons, List.not_mem_nil, or_false] at h
  rcases h with rfl | rfl | rfl | rfl | rfl | rfl | rfl | rfl <;> rfl

/-- Settles O17: the write of STATUS leaves the sequencer, so the answer changes the output alone. -/
theorem illegalWordsSetIllAndNothingElse : Obligations.IllegalWordsSetIllAndNothingElse := by
  unfold Obligations.IllegalWordsSetIllAndNothingElse
  intro i s hrest hillegal
  have hanswer := next_finishTaken (s := { s with fg := { s.fg with status := setIll s.fg.status } }) hrest noData []
  exact ⟨setIll s.fg.status, (exec_illegal s hillegal).trans hanswer, setIll_getLsbD s.fg.status⟩

end Sys2Proof.Machine
end

section
/-! LINE_SYNC (44_line_state_ctrl.md R208): each bit of the line shadow stays or takes the DEV bit, every such choice is
a draw, and a held line state that is copied stays copied. -/

namespace Sys2Proof.Machine

/-! ## One field of LINE_SYNC -/

/-- A bit of the mask chooses between the new bit and the old one. -/
theorem copyBits_getLsbD {n : Nat} (mask old new : BitVec n) (k : Nat) :
    (copyBits mask old new).getLsbD k = if mask.getLsbD k then new.getLsbD k else old.getLsbD k := by
  rw [copyBits, BitVec.getLsbD_or, BitVec.getLsbD_and, BitVec.getLsbD_and, BitVec.getLsbD_not]
  by_cases hk : k < n
  · cases mask.getLsbD k <;> simp [hk]
  · simp [BitVec.getLsbD_of_ge _ k (Nat.le_of_not_lt hk)]

theorem copyBits_old_or_new {n : Nat} (mask old new : BitVec n) (k : Nat) :
    (copyBits mask old new).getLsbD k = old.getLsbD k ∨ (copyBits mask old new).getLsbD k = new.getLsbD k := by
  rw [copyBits_getLsbD]
  split
  · exact .inr rfl
  · exact .inl rfl

/-- The mask of the bits that differ from the old ones copies exactly these. -/
theorem copyBits_xor_eq {n : Nat} {old new l : BitVec n}
    (h : ∀ k, l.getLsbD k = old.getLsbD k ∨ l.getLsbD k = new.getLsbD k) : copyBits (l ^^^ old) old new = l := by
  refine BitVec.eq_of_getLsbD_eq fun k _ => ?_
  rw [copyBits_getLsbD, BitVec.getLsbD_xor]
  split
  next hdiffers =>
    have hne : l.getLsbD k ≠ old.getLsbD k := by simpa using hdiffers
    exact ((h k).resolve_left hne).symm
  next hsame =>
    have heq : l.getLsbD k = old.getLsbD k := by simpa using hsame
    exact heq.symm

/-- The same of a one-bit signal. -/
theorem ite_bne_eq {old new l : Bool} (h : l = old ∨ l = new) : (if l != old then new else old) = l := by
  by_cases hsame : l = old
  · simp [hsame]
  · obtain rfl : l = new := h.resolve_left hsame
    simp [hsame]

/-! ## The draws of an edge -/

theorem lineState_eq_iff (a b : LineState) :
    a = b ↔ a.connected = b.connected ∧ a.ctl = b.ctl ∧ a.baud = b.baud ∧ a.databits = b.databits ∧
      a.parity = b.parity ∧ a.stopbits = b.stopbits := by
  cases a
  cases b
  rw [LineState.mk.injEq]

/-- The draw that turns the line shadow `old` into `l`: the bits in which they differ. -/
def lineDiff (l old : LineState) : LineState :=
  { connected := l.connected != old.connected
    ctl := l.ctl ^^^ old.ctl
    baud := l.baud ^^^ old.baud
    databits := l.databits ^^^ old.databits
    parity := l.parity ^^^ old.parity
    stopbits := l.stopbits ^^^ old.stopbits }

theorem lineSync_lineDiff {l old new : LineState}
    (hconnected : l.connected = old.connected ∨ l.connected = new.connected)
    (hctl : ∀ k, l.ctl.getLsbD k = old.ctl.getLsbD k ∨ l.ctl.getLsbD k = new.ctl.getLsbD k)
    (hbaud : ∀ k, l.baud.getLsbD k = old.baud.getLsbD k ∨ l.baud.getLsbD k = new.baud.getLsbD k)
    (hdatabits : ∀ k, l.databits.getLsbD k = old.databits.getLsbD k ∨ l.databits.getLsbD k = new.databits.getLsbD k)
    (hparity : ∀ k, l.parity.getLsbD k = old.parity.getLsbD k ∨ l.parity.getLsbD k = new.parity.getLsbD k)
    (hstopbits : ∀ k, l.stopbits.getLsbD k = old.stopbits.getLsbD k ∨ l.stopbits.getLsbD k = new.stopbits.getLsbD k) :
    lineSync (lineDiff l old) old new = l :=
  (lineState_eq_iff ..).mpr ⟨ite_bne_eq hconnected, copyBits_xor_eq hctl, copyBits_xor_eq hbaud,
    copyBits_xor_eq hdatabits, copyBits_xor_eq hparity, copyBits_xor_eq hstopbits⟩

/-! ## A held line state -/

/-- LINE_SYNC leaves the signal where its shadow equals DEV's value. -/
def SyncKeeps {α : Type} (signal : LineState → α) : Prop :=
  ∀ copy old new, signal old = signal new → signal (lineSync copy old new) = signal new

theorem syncKeeps_connected : SyncKeeps LineState.connected := fun copy old new h => by
  simp only [lineSync, h, ite_self]

theorem syncKeeps_bits {w : Nat} {signal : LineState → BitVec w}
    (hbits : ∀ copy old new, signal (lineSync copy old new) = copyBits (signal copy) (signal old) (signal new)) :
    SyncKeeps signal := fun copy old new h => by rw [hbits, h, copyBits_self]

/-- A step leaves the line shadow, or is an FG edge and syncs it with the DEV signals (10_state.md R20, R36). -/
theorem stepsTo_shadow {m : Move} {s t : State} (h : s.StepsTo m t) :
    t.fg.shadow = s.fg.shadow ∨ ∃ copy, t.fg.shadow = lineSync copy s.fg.shadow s.dev.line := by
  obtain ⟨-, -, hrun⟩ := (stepsTo_iff m s t).mp h
  cases m with
  | fgEdge present copy => exact .inr ⟨copy, fgEdge_shadow (s := { s with draws := s.draws + 1 }) hrun⟩
  | evEdge answer =>
    cases hrun
    exact .inl (by rw [evEdge_fg])
  | devStep signals event =>
    cases hrun
    exact .inl (by rw [devStep_fg])

section
variable {α : Type} {signal : LineState → α} {states : Nat → State} {moves : Nat → Move} {n : Nat}
  (hpath : InfinitePath states moves) (hkeeps : SyncKeeps signal)
  (hheld : ∀ k, n ≤ k → (states k).dev.line = (states n).dev.line)
include hpath hkeeps hheld

/-- Once copied, a held signal stays in the shadow. -/
theorem held_stays_copied {m : Nat} (hm : n ≤ m) (hcopied : signal (states m).fg.shadow = signal (states n).dev.line) :
    ∀ k, m ≤ k → signal (states k).fg.shadow = signal (states n).dev.line := by
  intro k hk
  induction k, hk using Nat.le_induction with
  | base => exact hcopied
  | succ k hk ih =>
    have hdev : (states k).dev.line = (states n).dev.line := hheld k (hm.trans hk)
    rcases stepsTo_shadow (hpath k) with hsame | ⟨copy, hsync⟩
    · rw [hsame, ih]
    · rw [hsync, hdev, hkeeps copy _ _ ih]

/-- A held signal whose draws are fair is in the shadow from some state on. -/
theorem held_eventually_copied (hfair : HeldIsCopied signal states) :
    ∃ m, n ≤ m ∧ ∀ k, m ≤ k → signal (states k).fg.shadow = signal (states n).dev.line := by
  obtain ⟨m, hm, hcopied⟩ := hfair n fun k hk => by rw [hheld k hk]
  exact ⟨m, hm, held_stays_copied hpath hkeeps hheld hm hcopied⟩

end

/-- When the last of the held signals is copied, the whole line state is. -/
theorem heldLine_eventually_copied {states : Nat → State} {moves : Nat → Move} {n : Nat}
    (hpath : InfinitePath states moves) (hfair : LineFair states)
    (hheld : ∀ k, n ≤ k → (states k).dev.line = (states n).dev.line) :
    ∃ m, n ≤ m ∧ ∀ k, m ≤ k → (states k).fg.shadow = (states n).dev.line := by
  obtain ⟨hconnected, hctl, hbaud, hdatabits, hparity, hstopbits⟩ := hfair
  obtain ⟨m₁, hm₁, h₁⟩ := held_eventually_copied hpath syncKeeps_connected hheld hconnected
  obtain ⟨m₂, -, h₂⟩ := held_eventually_copied hpath (syncKeeps_bits fun _ _ _ => rfl) hheld hctl
  obtain ⟨m₃, -, h₃⟩ := held_eventually_copied hpath (syncKeeps_bits fun _ _ _ => rfl) hheld hbaud
  obtain ⟨m₄, -, h₄⟩ := held_eventually_copied hpath (syncKeeps_bits fun _ _ _ => rfl) hheld hdatabits
  obtain ⟨m₅, -, h₅⟩ := held_eventually_copied hpath (syncKeeps_bits fun _ _ _ => rfl) hheld hparity
  obtain ⟨m₆, -, h₆⟩ := held_eventually_copied hpath (syncKeeps_bits fun _ _ _ => rfl) hheld hstopbits
  refine ⟨max m₁ (max m₂ (max m₃ (max m₄ (max m₅ m₆)))), hm₁.trans (Nat.le_max_left ..), fun k hk => ?_⟩
  simp only [Nat.max_le] at hk
  obtain ⟨hk₁, hk₂, hk₃, hk₄, hk₅, hk₆⟩ := hk
  exact (lineState_eq_iff ..).mpr ⟨h₁ k hk₁, h₂ k hk₂, h₃ k hk₃, h₄ k hk₄, h₅ k hk₅, h₆ k hk₆⟩

/-- Settles O35: bit by bit LINE_SYNC is a choice, the draw of the differing bits makes any choice, and a signal once
copied stays copied while it is held. -/
theorem lineShadowBitsAreOldOrNew : Obligations.LineShadowBitsAreOldOrNew := by
  unfold Obligations.LineShadowBitsAreOldOrNew
  refine ⟨fun s t present copy h => ?_, fun s present l hconnected hctl hbaud hdatabits hparity hstopbits => ?_,
    fun states moves hrun n hheld => ?_⟩
  · rw [fgEdge_shadow h]
    refine ⟨?_, fun k => ⟨copyBits_old_or_new .., copyBits_old_or_new .., copyBits_old_or_new ..,
      copyBits_old_or_new .., copyBits_old_or_new ..⟩⟩
    cases hcopy : copy.connected <;> simp [lineSync, hcopy]
  · obtain ⟨t, ht⟩ := fgEdge_next s present (lineDiff l s.fg.shadow)
    refine ⟨_, t, ht, ?_⟩
    rw [fgEdge_shadow ht]
    exact lineSync_lineDiff hconnected hctl hbaud hdatabits hparity hstopbits
  · obtain ⟨-, hpath, -, hfair⟩ := hrun
    exact heldLine_eventually_copied hpath hfair hheld

end Sys2Proof.Machine
end

section
/-! The clock-domain crossings: every publisher moves one step toward its pointer (45_cdc.md R220, R221) and every
two-stage synchroniser shifts in its source (R223, R224). -/

namespace Sys2Proof.Machine

/-! ## Publishers -/

/-- PUBLISH rests at the pointer, and away from it moves one step with its Gray register. -/
theorem publish_rests_or_advances (m : Nat) (p : Ptr) (pub : Publisher) :
    (pub.b = p → publish m p pub = pub) ∧
      (pub.b ≠ p → (publish m p pub).b = BitVec.ofNat 16 ((pub.b.toNat + 1) % m) ∧
        (publish m p pub).g = bin2gray (publish m p pub).b) := by
  rcases publish_cases m p pub with ⟨heq, hstays⟩ | ⟨hne, hadvances⟩
  · exact ⟨fun _ => hstays, fun hne => absurd heq hne⟩
  · rw [hadvances]
    exact ⟨fun heq => absurd heq hne, fun _ => ⟨rfl, rfl⟩⟩

/-- Settles O33: the publishers of each domain are those its edge publishes as consumer and as producer. -/
theorem publishersMoveOneStep : Obligations.PublishersMoveOneStep := by
  unfold Obligations.PublishersMoveOneStep
  refine ⟨fun s t present copy h => ?_, fun s answer => ?_⟩
  · obtain ⟨hrx, htx⟩ := fgEdge_ringEdges h
    have hrpub : t.fg.rpubRx = publish (2 ^ s.cfg.pw .rx) s.fg.rptrRx s.fg.rpubRx := hrx.rpub
    have hwpub : t.fg.wpubTx = publish (2 ^ s.cfg.pw .tx) s.fg.wptrTx s.fg.wpubTx := htx.wpub
    rw [hrpub, hwpub]
    exact ⟨publish_rests_or_advances .., publish_rests_or_advances ..⟩
  · obtain ⟨htx, hrx⟩ := evEdge_ringEdges answer s
    have hwpub : (s.evEdge answer).ev.wpubRx = publish (2 ^ s.cfg.pw .rx) s.ev.wptrRx s.ev.wpubRx := hrx.wpub
    have hrpub : (s.evEdge answer).ev.rpubTx = publish (2 ^ s.cfg.pw .tx) s.ev.rptrTx s.ev.rpubTx := htx.rpub
    rw [hwpub, hrpub]
    exact ⟨publish_rests_or_advances .., publish_rests_or_advances ..⟩

/-! ## Synchronisers -/

/-- Settles O34: what an edge leaves in the synchronisers is what its crossings load; the host's presentation writes
none of their sources. -/
theorem synchronisersShiftTheirSources : Obligations.SynchronisersShiftTheirSources := by
  unfold Obligations.SynchronisersShiftTheirSources
  refine ⟨fun s t present copy h => ?_, fun s answer => ⟨rfl, rfl, rfl, rfl, rfl⟩⟩
  obtain ⟨u, -, rfl⟩ := fgEdge_cases h
  obtain ⟨port, hport⟩ := hostPresent_eq_update present s
  rw [hport]
  exact ⟨rfl, rfl, rfl, rfl, rfl, rfl⟩

end Sys2Proof.Machine
end

section
/-! The acknowledge wait (45_cdc.md R226 to R228, 41_transmit.md R124): the accepted total is stable in it, and in a fair
run it ends, because each clock moves the request on along its way to EV and back. -/

namespace Sys2Proof.Machine

/-! ## Stability -/

/-- A step is the next move, made in the state with that move used up. -/
theorem runMove_of_step {s t : State} (h : step s = .next t) : s.moveTaken.runMove s.nextMove = .next t := by
  obtain ⟨-, -, ⟨present, copy, hmove, hrun⟩ | ⟨answer, hmove, rfl⟩ | ⟨signals, event, hmove, rfl⟩⟩ := step_cases h
  · rw [hmove]; exact hrun
  · rw [hmove]; rfl
  · rw [hmove]; rfl

/-- A step of a path is its move, made in the state with that move counted. -/
theorem runMove_of_stepsTo {m : Move} {s t : State} (h : s.StepsTo m t) :
    ({ s with draws := s.draws + 1 } : State).runMove m = .next t := by
  obtain ⟨-, -, hrun⟩ := (stepsTo_iff m s t).mp h
  exact hrun

/-- In the wait the FG sequencer does nothing but look for the acknowledge (41_transmit.md R124). -/
theorem fgSequencer_of_waitAck {s : State} (h : s.fg.state = .waitAck) :
    s.fgSequencer =
      .next { s with fg := { s.fg with state := if s.fg.ack.s2 = s.fg.accReq then .push else .waitAck } } := by
  rw [State.fgSequencer, takesCommand_waitAck h, fgContinue_of_waitAck h, waitAckStep_eq h]
  rfl

theorem fgEdge_of_waitAck {s t : State} {present : Option HostCmd} {copy : LineState} (hwait : s.fg.state = .waitAck)
    (h : s.fgEdge present copy = .next t) :
    ∃ port, t = State.fgCrossings copy { s with port := port }
      { s with
        port := port
        fg := { s.fg with state := if s.fg.ack.s2 = s.fg.accReq then .push else .waitAck } } := by
  obtain ⟨u, hseq, rfl⟩ := fgEdge_cases h
  obtain ⟨port, hport⟩ := hostPresent_eq_update present s
  rw [hport] at hseq ⊢
  rw [fgSequencer_of_waitAck (s := { s with port := port }) hwait] at hseq
  cases hseq
  exact ⟨port, rfl⟩

section
variable {m : Move} {s t : State} (hwait : s.fg.state = .waitAck) (h : s.runMove m = .next t)
include hwait h

/-- No move writes the accepted total or the request in the wait (45_cdc.md R228). -/
theorem runMove_total_of_waitAck : t.fg.accBin = s.fg.accBin ∧ t.fg.accReq = s.fg.accReq := by
  cases m with
  | fgEdge present copy =>
    obtain ⟨port, rfl⟩ := fgEdge_of_waitAck hwait h
    exact ⟨rfl, rfl⟩
  | evEdge answer =>
    cases h
    rw [evEdge_fg]
    exact ⟨rfl, rfl⟩
  | devStep signals event =>
    cases h
    rw [devStep_fg]
    exact ⟨rfl, rfl⟩

/-- A move leaves the wait only as an FG edge that sees the acknowledge, and then for PUSH. -/
theorem runMove_state_of_waitAck :
    t.fg.state = if m.isFgEdge = true ∧ s.fg.ack.s2 = s.fg.accReq then .push else .waitAck := by
  cases m with
  | fgEdge present copy =>
    obtain ⟨port, rfl⟩ := fgEdge_of_waitAck hwait h
    simp [Move.isFgEdge]
  | evEdge answer =>
    cases h
    rw [evEdge_fg, hwait]
    rfl
  | devStep signals event =>
    cases h
    rw [devStep_fg, hwait]
    rfl

end

/-- ACK is enabled only while FG waits and has not seen the acknowledge (45_cdc.md R228): else the request is at rest. -/
theorem waits_of_request {s : State} (hhand : s.HandshakeInv) (hrequest : s.ev.req.s2 ≠ s.ev.accAck) :
    s.fg.state = .waitAck ∧ s.fg.ack.s2 ≠ s.fg.accReq := by
  have hpending : s.fg.ack.s2 ≠ s.fg.accReq := fun hack => by
    obtain ⟨hchanges, -⟩ := hhand
    obtain ⟨-, hreq2, haccAck, -⟩ := toggles_at_rest hchanges hack
    exact hrequest (hreq2.trans haccAck.symm)
  exact ⟨not_not.mp (mt (acked_of_ne_waitAck hhand) hpending), hpending⟩

/-! ## The way of the request -/

/-- The registers the request passes, in their order: `acc_req`, `req_s1`, `req_s2`, `acc_ack`, `ack_s1`, `ack_s2`
(45_cdc.md R226 to R228). -/
def State.toggleAt (s : State) : Nat → Bool
  | 0 => s.fg.accReq
  | 1 => s.ev.req.s1
  | 2 => s.ev.req.s2
  | 3 => s.ev.accAck
  | 4 => s.fg.ack.s1
  | _ => s.fg.ack.s2

/-- The move is an edge of the clock that loads the i-th of these registers: EV's up to `acc_ack`, then FG's. -/
def clocksToggle (i : Nat) (m : Move) : Bool := if i ≤ 3 then m.isEvEdge else m.isFgEdge

/-- In the wait an edge moves every toggle of its domain one place on, and every other toggle stays. -/
theorem runMove_toggleAt {m : Move} {s t : State} (hwait : s.fg.state = .waitAck) (h : s.runMove m = .next t) {i : Nat}
    (hi : i ≤ 5) : t.toggleAt i = if clocksToggle i m then s.toggleAt (i - 1) else s.toggleAt i := by
  cases m with
  | fgEdge present copy =>
    obtain ⟨port, rfl⟩ := fgEdge_of_waitAck hwait h
    interval_cases i <;> rfl
  | evEdge answer =>
    cases h
    interval_cases i <;> simp only [State.toggleAt, evEdge_fg, evEdge_accAck] <;> rfl
  | devStep signals event =>
    cases h
    rw [show (s.devStep signals event).toggleAt i = s.toggleAt i by simp only [State.toggleAt, devStep_fg, devStep_ev]]
    simp [clocksToggle, Move.isEvEdge, Move.isFgEdge]

/-- FG waits, and the request has reached the first k registers after `acc_req`. -/
def State.RequestReached (k : Nat) (s : State) : Prop :=
  s.fg.state = .waitAck ∧ ∀ i ≤ k, s.toggleAt i = s.toggleAt 0

section
variable {k : Nat} {m : Move} {s t : State} (hreached : s.RequestReached k) (h : s.runMove m = .next t)
include hreached h

/-- As long as FG waits, no move takes the request back; an edge of the next register's clock takes it one register
further. -/
theorem requestReached_of_waits {j : Nat} (hj : j ≤ 5) (hwaits : t.fg.state = .waitAck)
    (hprogress : j ≤ k ∨ (j = k + 1 ∧ clocksToggle j m = true)) : t.RequestReached j := by
  obtain ⟨hwait, hat⟩ := hreached
  obtain ⟨-, hrequest⟩ := runMove_total_of_waitAck hwait h
  change t.toggleAt 0 = s.toggleAt 0 at hrequest
  refine ⟨hwaits, fun i hi => ?_⟩
  rw [runMove_toggleAt hwait h (hi.trans hj), hrequest]
  split
  next => exact hat (i - 1) (by omega)
  next hstays =>
    refine hat i ?_
    rcases hprogress with hle | ⟨rfl, hclock⟩
    · exact hi.trans hle
    · have hne : i ≠ k + 1 := fun heq => hstays (heq ▸ hclock)
      omega

/-- A move ends the wait, or takes the request to the next register, or leaves it where it is and is no edge of that
register's clock. -/
theorem runMove_request (hk : k < 5) :
    (t.fg.state = .push ∨ t.RequestReached (k + 1)) ∨ (t.RequestReached k ∧ clocksToggle (k + 1) m = false) := by
  have ⟨hwait, _⟩ := hreached
  have hstate := runMove_state_of_waitAck hwait h
  split at hstate
  · exact .inl (.inl hstate)
  · cases hclock : clocksToggle (k + 1) m with
    | true => exact .inl (.inr (requestReached_of_waits hreached h hk hstate (.inr ⟨rfl, hclock⟩)))
    | false => exact .inr ⟨requestReached_of_waits hreached h hk.le hstate (.inl le_rfl), rfl⟩

end

/-- Once the request has come back to FG, the next FG edge ends the wait. -/
theorem runMove_acknowledged {m : Move} {s t : State} (hreached : s.RequestReached 5) (h : s.runMove m = .next t) :
    t.fg.state = .push ∨ (t.RequestReached 5 ∧ m.isFgEdge = false) := by
  have ⟨hwait, hat⟩ := hreached
  have hack : s.fg.ack.s2 = s.fg.accReq := hat 5 le_rfl
  have hstate := runMove_state_of_waitAck hwait h
  cases hedge : m.isFgEdge with
  | true => exact .inl (hstate.trans (if_pos ⟨hedge, hack⟩))
  | false =>
    rw [hedge, if_neg (by simp)] at hstate
    exact .inr ⟨requestReached_of_waits hreached h le_rfl hstate (.inl le_rfl), rfl⟩

/-! ## The end of the wait -/

section
variable {states : Nat → State} {moves : Nat → Move}

/-- The rule of weak fairness: if every move from P either reaches Q or keeps P and is not helpful, and a helpful move
always comes again, then P leads to Q (60_exceptions.md R255). -/
theorem eventually_of_fair {P Q : State → Prop} {helpful : Move → Bool}
    (hstep : ∀ m s t, P s → s.StepsTo m t → Q t ∨ (P t ∧ helpful m = false))
    (hpath : InfinitePath states moves) (hfair : ∀ n, ∃ k, n ≤ k ∧ helpful (moves k) = true) {n : Nat}
    (hn : P (states n)) : ∃ k, n ≤ k ∧ Q (states k) := by
  by_contra hnever
  have hmove : ∀ k, n ≤ k → P (states k) → P (states (k + 1)) ∧ helpful (moves k) = false := fun k hk hP =>
    (hstep _ _ _ hP (hpath k)).resolve_left fun hQ => hnever ⟨k + 1, by omega, hQ⟩
  have hP : ∀ k, n ≤ k → P (states k) := fun k hk => by
    induction k, hk using Nat.le_induction with
    | base => exact hn
    | succ k hk ih => exact (hmove k hk ih).1
  obtain ⟨k, hk, hhelpful⟩ := hfair n
  obtain ⟨-, hidle⟩ := hmove k hk (hP k hk)
  exact Bool.false_ne_true (hidle.symm.trans hhelpful)

theorem clocksToggle_fair (hfair : WeaklyFair moves) (i n : Nat) : ∃ k, n ≤ k ∧ clocksToggle i (moves k) = true := by
  obtain ⟨hfg, hev⟩ := hfair
  by_cases hi : i ≤ 3
  · simpa only [clocksToggle, if_pos hi] using hev n
  · simpa only [clocksToggle, if_neg hi] using hfg n

variable (hpath : InfinitePath states moves) (hfair : WeaklyFair moves) {n : Nat}
  (hwait : (states n).fg.state = .waitAck)
include hpath hfair hwait

/-- From the wait on, the request reaches one register after the other, unless the wait ends before. -/
theorem eventually_reached {k : Nat} (hk : k ≤ 5) :
    ∃ j, n ≤ j ∧ ((states j).fg.state = .push ∨ (states j).RequestReached k) := by
  induction k with
  | zero => exact ⟨n, le_rfl, .inr ⟨hwait, fun i hi => by rw [Nat.le_zero.mp hi]⟩⟩
  | succ k ih =>
    obtain ⟨j, hj, hpush | hreached⟩ := ih (by omega)
    · exact ⟨j, hj, .inl hpush⟩
    · obtain ⟨l, hl, hnext⟩ := eventually_of_fair (P := State.RequestReached k)
        (Q := fun s => s.fg.state = .push ∨ s.RequestReached (k + 1))
        (fun _ s _ hP h => runMove_request (s := { s with draws := s.draws + 1 }) hP (runMove_of_stepsTo h) hk)
        hpath (clocksToggle_fair hfair (k + 1)) hreached
      exact ⟨l, hj.trans hl, hnext⟩

theorem eventually_pushes : ∃ k, n ≤ k ∧ (states k).fg.state = .push := by
  obtain ⟨j, hj, hpush | hreached⟩ := eventually_reached hpath hfair hwait le_rfl
  · exact ⟨j, hj, hpush⟩
  · obtain ⟨hfg, -⟩ := hfair
    obtain ⟨l, hl, hpush⟩ := eventually_of_fair (P := State.RequestReached 5) (Q := fun s => s.fg.state = .push)
      (fun _ s _ hP h => runMove_acknowledged (s := { s with draws := s.draws + 1 }) hP (runMove_of_stepsTo h))
      hpath hfg hreached
    exact ⟨l, hj.trans hl, hpush⟩

end

/-- Settles O58: the stability move by move, the capture by the toggles at rest, and the end of the wait by fairness,
register by register. -/
theorem acceptedTotalIsStableInTheWait : Obligations.AcceptedTotalIsStableInTheWait := by
  unfold Obligations.AcceptedTotalIsStableInTheWait
  refine ⟨fun s t hwait hstep => ?_, fun s htotals => ?_, fun states moves hpath hfair n => eventually_pushes hpath hfair⟩
  · have hrun := runMove_of_step hstep
    obtain ⟨hbin, hreq⟩ := runMove_total_of_waitAck (s := s.moveTaken) hwait hrun
    have hstate := runMove_state_of_waitAck (s := s.moveTaken) hwait hrun
    refine ⟨hbin, hreq, fun hleaves => ?_⟩
    split at hstate
    next hacked => exact hacked.2
    next => exact absurd hstate hleaves
  · obtain ⟨-, -, hhand, -⟩ := htotals
    exact waits_of_request hhand

end Sys2Proof.Machine
end

section
/-! A step: the DEV step (60_exceptions.md R250, R254), and each kind of next move in terms of the operations it runs
(R252 to R255). -/

namespace Sys2Proof.Machine

/-! ## The DEV step -/

/-- Bit 1 survives in a mask exactly where DEV owes a completion (R250, duty 3). -/
theorem dutifulMask_completes (mask : BitVec 2) (s : State) :
    (s.dutifulMask mask).getLsbD 1 = (s.devOwes && mask.getLsbD 1) := by
  simp only [State.dutifulMask]
  cases s.devOwes
  · simp
  · rfl

/-- A DEV step sets the signals, and on top of that at most presents an event where none is held (R250, duty 1). -/
theorem devStep_cases (signals : DevSignals) (event : Option (BitVec 2)) (s : State) :
    s.devStep signals event = { s with dev := signals } ∨
      ∃ mask, s.devEvent = none ∧ s.devStep signals event =
        { s with
          dev := signals
          devEvent := some (s.dutifulMask mask)
          devOwes := s.devOwes && !(s.dutifulMask mask).getLsbD 1 } := by
  simp only [State.devStep, State.devPresent]
  split
  next mask hnone => exact .inr ⟨mask, hnone, rfl⟩
  next => exact .inl rfl

/-- Settles O32: a presented event is written only where none is held, with the mask that duty 3 allows. -/
theorem devStepChangesNoBlockRegister : Obligations.DevStepChangesNoBlockRegister := by
  unfold Obligations.DevStepChangesNoBlockRegister
  intro s signals event t
  rcases devStep_cases signals event s with h | ⟨mask, hnone, h⟩
  · have ht : t = _ := h
    rw [ht]
    refine ⟨rfl, fun m hheld => ⟨hheld, rfl⟩, fun m hnone hsome => ?_⟩
    exact absurd (hsome.symm.trans hnone) (Option.some_ne_none m)
  · have ht : t = _ := h
    rw [ht]
    refine ⟨rfl, fun m hheld => absurd (hheld.symm.trans hnone) (Option.some_ne_none m), fun m _ hsome hbit => ?_⟩
    obtain rfl : s.dutifulMask mask = m := Option.some.inj hsome
    have howes : s.devOwes = true := by
      rw [dutifulMask_completes, Bool.and_eq_true] at hbit
      exact hbit.1
    exact ⟨howes, by simp only [hbit, Bool.not_true, Bool.and_false]⟩

/-! ## The next move -/

/-- With no stop recorded a step runs the next move. -/
theorem step_eq_runMove {s : State} (hrefused : s.refused = false) (hfault : s.faultPre = false) :
    step s = s.moveTaken.runMove s.nextMove := by
  simp only [step, State.stepOnce, hrefused, hfault, Bool.false_eq_true, if_false]

theorem nextMove_of_sched {s : State} {m : Move} {rest : List Move} (h : s.sched = m :: rest) : s.nextMove = m := by
  simp only [State.nextMove, h]

/-- A free move may as well have been lined up (log 1). -/
theorem step_lineUp_freeMove {s : State} (h : s.sched = []) : step (s.lineUp (Config.freeMove s.draws)) = step s := by
  have hmove : (s.lineUp (Config.freeMove s.draws)).nextMove = s.nextMove := by
    rw [lineUp_nextMove, State.nextMove, h]
  have htaken : (s.lineUp (Config.freeMove s.draws)).moveTaken = s.moveTaken := by
    rw [lineUp_moveTaken, State.moveTaken, h, List.tail_nil, ← h]
  simp only [step, State.stepOnce, hmove, htaken, lineUp_refused, lineUp_faultPre]

/-! ## The FG edge -/

/-- An FG edge that takes a command runs its meaning, then the crossings (R252). -/
theorem fgEdge_of_taken {present : Option HostCmd} {copy : LineState} {s u : State} {i : Instr}
    (htakes : (s.hostPresent present).takesCommand = true) (hfetch : (s.hostPresent present).fetch = .ok i)
    (hexec : exec i (s.hostPresent present).portTaken = .next u) :
    s.fgEdge present copy = .next (State.fgCrossings copy (s.hostPresent present) u) := by
  simp only [State.fgEdge, State.fgSequencer, htakes, if_true, takeCommand_of_fetch hfetch, hexec]

/-- An FG edge that takes none continues the held command, then makes the crossings (R252). -/
theorem fgEdge_of_not_taken {present : Option HostCmd} {copy : LineState} {s : State}
    (hkeeps : (s.hostPresent present).takesCommand = false) :
    s.fgEdge present copy =
      .next (State.fgCrossings copy (s.hostPresent present) (s.hostPresent present).fgContinue) := by
  simp only [State.fgEdge, State.fgSequencer, hkeeps, Bool.false_eq_true, if_false]

/-- Settles O29: a step runs the next move, and an FG edge takes the command on the port or continues the held one. -/
theorem stepRunsTheDecodedCommand : Obligations.StepRunsTheDecodedCommand := by
  unfold Obligations.StepRunsTheDecodedCommand
  intro s hrefused hfault
  have hstep : ∀ m rest, s.sched = m :: rest → step s = s.moveTaken.runMove m := fun m rest hsched => by
    rw [step_eq_runMove hrefused hfault, nextMove_of_sched hsched]
  refine ⟨fun present copy rest hsched => ?_, fun answer => hstep _, fun signals event => hstep _,
    fun hnone => (step_lineUp_freeMove hnone).symm⟩
  rw [hstep _ rest hsched]
  intro p
  refine ⟨fun i htakes hfetch => ?_, fgEdge_of_not_taken⟩
  obtain ⟨u, hexec⟩ := exec_next i p.portTaken
  rw [hexec]
  exact fgEdge_of_taken htakes hfetch hexec

end Sys2Proof.Machine
end

section
/-! DEV's transmit-complete (60_exceptions.md R250, duty 3): from the launch on it is owed, then presented, then in the
round in progress, until the completion ends the flight (41_transmit.md R133). -/

namespace Sys2Proof.Machine

/-! ## DEV -/

/-- Presenting an event moves an owed completion into it, or leaves it owed. -/
theorem devStep_dutyInv (signals : DevSignals) (event : Option (BitVec 2)) {s : State} (h : s.DutyInv) :
    (s.devStep signals event).DutyInv := by
  rcases devStep_cases signals event s with e | ⟨mask, hnone, e⟩ <;> rw [e]
  · exact h
  · obtain ⟨hlegal, hcount, hphase⟩ := h
    refine ⟨hlegal, Eq.trans (congrArg (· + s.roundCompletes.toNat) ?_) hcount, hphase⟩
    have hheld : s.eventCompletes = false := by simp only [State.eventCompletes, hnone]
    change (s.devOwes && !(s.dutifulMask mask).getLsbD 1).toNat + ((s.dutifulMask mask).getLsbD 1).toNat = _
    rw [hheld, dutifulMask_completes]
    cases s.devOwes <;> cases mask.getLsbD 1 <;> rfl

/-! ## The FG edge -/

theorem fgEdge_dutyInv {present : Option HostCmd} {copy : LineState} {s t : State} (h : s.DutyInv)
    (hedge : s.fgEdge present copy = .next t) : t.DutyInv := by
  rw [fgEdge_fgWrites hedge]
  exact h

/-! ## The EV edge -/

/-- A launch needs `txSize = 0`, so no completion is anywhere, and makes the one of its packet owed (41_transmit.md
R130). -/
theorem txLaunch_dutyInv {s : State} (hring : s.RingInv) (hlaunch : s.launchEn = true) (h : s.DutyInv) :
    s.txLaunch.DutyInv := by
  have ⟨hlegal, _, _, _, htx, _, _, _⟩ := hring
  obtain ⟨hidle, hfree, hview⟩ := (launchEn_iff s).mp hlaunch
  obtain ⟨-, hcount, hphase⟩ := h
  have hbusy : s.txLaunch.ev.txSize ≠ 0 := fun hzero => by
    have hlen : s.txLaunch.ev.txSize.toNat = s.clampMux := clampMux_toNat hlegal htx
    rw [hzero] at hlen
    exact (clampMux_pos hlegal hview).ne hlen
  rw [if_pos hfree] at hcount
  refine ⟨hlegal, ?_, hphase⟩
  rw [if_neg hbusy]
  change 1 + s.eventCompletes.toNat + s.roundCompletes.toNat = 1
  omega

/-- A round in progress carries a completion if its mask does; where the sequencer rests, the mask has to carry none. -/
theorem roundCompletes_eq_mask {s : State} (h : s.ev.state = .idle → s.ev.mask.getLsbD 1 = false) :
    s.roundCompletes = s.ev.mask.getLsbD 1 := by
  by_cases hidle : s.ev.state = .idle
  · rw [State.roundCompletes, h hidle, Bool.and_false]
  · rw [State.roundCompletes, decide_eq_true hidle, Bool.true_and]

theorem afterDrain_eq_idle_iff (s : State) : s.afterDrain = .idle ↔ s.ev.mask.getLsbD 1 = false := by
  simp [State.afterDrain]

theorem afterDrain_eq_txDone_iff (s : State) : s.afterDrain = .txDone ↔ s.ev.mask.getLsbD 1 = true := by
  simp [State.afterDrain]

/-- A round that carries a completion does not end before its TX phase (43_event_dispatch.md R181). -/
theorem roundCompletes_evRound (m : BitVec 2) (s : State) : (s.evRound m).roundCompletes = m.getLsbD 1 := by
  refine roundCompletes_eq_mask fun hends => ?_
  rw [evRound_ev_state] at hends
  split at hends
  · cases hends
  · exact (afterDrain_eq_idle_iff (s.evRound m)).mp hends

/-- A round that starts takes over the completion of its event. -/
theorem evRound_dutyInv {m : BitVec 2} {s : State} (hidle : s.ev.state = .idle) (hevent : s.devEvent = some m)
    (h : s.DutyInv) : (s.evRound m).DutyInv := by
  obtain ⟨hlegal, hcount, -⟩ := h
  have hpresented : s.eventCompletes = m.getLsbD 1 := by simp only [State.eventCompletes, hevent]
  have hrests : s.roundCompletes = false := by
    rw [State.roundCompletes, hidle]
    rfl
  rw [hpresented, hrests] at hcount
  refine ⟨hlegal, ?_, fun hphase => ?_⟩
  · rw [roundCompletes_evRound]
    exact hcount
  · rw [evRound_ev_state] at hphase
    split at hphase
    · cases hphase
    · exact (afterDrain_eq_txDone_iff (s.evRound m)).mp hphase

theorem evIdle_dutyInv {s : State} (hring : s.RingInv) (hidle : s.ev.state = .idle) (h : s.DutyInv) :
    s.evIdle.DutyInv := by
  rcases evIdle_cases s with ⟨hlaunch, e⟩ | ⟨-, m, hevent, e⟩ | ⟨-, -, e⟩ <;> rw [e]
  · exact txLaunch_dutyInv hring hlaunch h
  · exact evRound_dutyInv hidle hevent h
  · exact h

/-- The RX phase ends in the TX phase exactly if the round carries a completion (43_event_dispatch.md R181). -/
theorem endRxPhase_dutyInv (total : Count) {s : State} (hdrain : s.ev.state = .rxDrain) (h : s.DutyInv) :
    (s.endRxPhase total).DutyInv := by
  obtain ⟨hlegal, hcount, -⟩ := h
  have hends : ({ s with ev := { s.ev with state := s.afterDrain } } : State).DutyInv := by
    have hround : s.roundCompletes = s.ev.mask.getLsbD 1 :=
      roundCompletes_eq_mask fun hidle => by rw [hdrain] at hidle; cases hidle
    have hround' : ({ s with ev := { s.ev with state := s.afterDrain } } : State).roundCompletes =
        s.ev.mask.getLsbD 1 := roundCompletes_eq_mask (afterDrain_eq_idle_iff s).mp
    refine ⟨hlegal, ?_, (afterDrain_eq_txDone_iff s).mp⟩
    rw [hround', ← hround]
    exact hcount
  rcases endRxPhase_cases total s with ⟨-, -, -, e⟩ | ⟨-, e⟩ <;> rw [e]
  · exact hends
  · exact hends

theorem rxIter_dutyInv (answer : List Byte) {s : State} (hdrain : s.ev.state = .rxDrain) (h : s.DutyInv) :
    (s.rxIter answer).DutyInv := by
  have hdrained : (s.drained answer).DutyInv := by rw [drained_eq_update]; exact h
  have hdrain' : (s.drained answer).ev.state = .rxDrain := by rw [drained_eq_update]; exact hdrain
  rcases rxIter_forms answer s with ⟨total, e⟩ | ⟨total, e⟩ | e <;> rw [e]
  · exact endRxPhase_dutyInv total hdrain h
  · exact endRxPhase_dutyInv total hdrain' hdrained
  · exact hdrained

/-- In the TX phase the one completion is the round's, so a packet is in flight, and none is owed or presented. -/
theorem completion_of_txDone {s : State} (hphase : s.ev.state = .txDone) (h : s.DutyInv) :
    s.ev.txSize ≠ 0 ∧ s.devOwes = false ∧ s.eventCompletes = false := by
  obtain ⟨-, hcount, hcarries⟩ := h
  have hround : s.roundCompletes = true := by simp [State.roundCompletes, hphase, hcarries hphase]
  rw [hround, Bool.toNat_true] at hcount
  split at hcount
  next => omega
  next hbusy => exact ⟨hbusy, by simpa using hcount⟩

theorem txComplete_dutyInv {s : State} (hring : s.RingInv) (hphase : s.ev.state = .txDone) (h : s.DutyInv) :
    s.txComplete.DutyInv := by
  obtain ⟨hbusy, howes, hevent⟩ := completion_of_txDone hphase h
  obtain ⟨hlegal, -, -, -, -, hflight, -, -⟩ := hring
  rw [txComplete_of_flight hflight hbusy]
  refine ⟨hlegal, ?_, fun hidle => by cases hidle⟩
  change s.devOwes.toNat + s.eventCompletes.toNat + 0 = 0
  rw [howes, hevent]
  rfl

theorem evEdge_dutyInv (answer : List Byte) {s : State} (hring : s.RingInv) (h : s.DutyInv) :
    (s.evEdge answer).DutyInv := by
  have hpost : (s.evSequencer answer).DutyInv := by
    rcases evSequencer_cases answer s with ⟨hidle, e⟩ | ⟨hdrain, e⟩ | ⟨hphase, e⟩ <;> rw [e]
    · exact evIdle_dutyInv hring hidle h
    · exact rxIter_dutyInv answer hdrain h
    · exact txComplete_dutyInv hring hphase h
  exact hpost

theorem step_dutyInv {s t : State} (hring : s.RingInv) (h : s.DutyInv) (hstep : step s = .next t) : t.DutyInv := by
  have hmove : s.moveTaken.RingInv := hring
  have hduty : s.moveTaken.DutyInv := h
  obtain ⟨-, -, ⟨present, copy, -, hedge⟩ | ⟨answer, -, rfl⟩ | ⟨signals, event, -, rfl⟩⟩ := step_cases hstep
  · exact fgEdge_dutyInv hduty hedge
  · exact evEdge_dutyInv answer hmove hduty
  · exact devStep_dutyInv signals event hduty

/-- Settles O50: each move keeps the number of completions on their way, but for the launch and the completion, which
begin and end the flight. -/
theorem stepKeepsTheCompletionDuty : Obligations.StepKeepsTheCompletionDuty := by
  unfold Obligations.StepKeepsTheCompletionDuty
  intro s t hduty hring hstep
  have hduty' := step_dutyInv hring hduty hstep
  exact ⟨hduty', fun hphase => (completion_of_txDone hphase hduty').1⟩

end Sys2Proof.Machine
end

section
/-! The quiescent state (60_exceptions.md R256): in it no edge changes anything. -/

namespace Sys2Proof.Machine

/-! ## The crossings at rest -/

theorem settled_iff {α : Type} [DecidableEq α] (x : Sync2 α) (source : α) :
    settled x source = true ↔ x = ⟨source, source⟩ := by
  obtain ⟨s1, s2⟩ := x
  simp [settled]

theorem syncShift_of_settled {α : Type} [DecidableEq α] {x : Sync2 α} {source : α} (h : settled x source = true) :
    syncShift x source = x := by
  rw [(settled_iff x source).mp h]
  rfl

theorem publish_of_eq (m : Nat) {p : Ptr} {pub : Publisher} (h : pub.b = p) : publish m p pub = pub := if_pos h

section
variable {s : State} (h : s.crossingsSettled = true)
include h

/-- The crossings of an FG edge at which the sequencer does nothing. -/
theorem fgCrossings_of_settled (copy : LineState) : State.fgCrossings copy s s = s := by
  simp only [State.crossingsSettled, Bool.and_eq_true, decide_eq_true_eq, and_assoc] at h
  obtain ⟨hrpubRx, hwpubTx, -, -, hwsyncRx, hrsyncTx, -, -, hbusy, hgate, hack, hddone, -, -, -, -, hshadow, -, -⟩ := h
  rw [State.fgCrossings, publish_of_eq _ hrpubRx, publish_of_eq _ hwpubTx, syncShift_of_settled hwsyncRx,
    syncShift_of_settled hrsyncTx, syncShift_of_settled hbusy, syncShift_of_settled hgate, syncShift_of_settled hack,
    syncShift_of_settled hddone, ← hshadow, lineSync_self]

/-- The handshake is at rest: the request that EV sees is the one it has acknowledged (45_cdc.md R227). -/
theorem not_ackEnabled_of_settled : ¬s.ackEnabled = true := by
  simp only [State.crossingsSettled, Bool.and_eq_true, decide_eq_true_eq, and_assoc] at h
  obtain ⟨-, -, -, -, -, -, -, -, -, -, -, -, hreq, -, -, hacked, -, -, -⟩ := h
  rw [ackEnabled_iff, (settled_iff _ _).mp hreq, hacked]
  exact not_not.mpr rfl

/-- The crossings of an EV edge at which the sequencer does nothing. -/
theorem evCrossings_of_settled : State.evCrossings s s = s := by
  have hack := not_ackEnabled_of_settled h
  simp only [State.crossingsSettled, Bool.and_eq_true, decide_eq_true_eq, and_assoc] at h
  obtain ⟨-, -, hwpubRx, hrpubTx, -, -, hrsyncRx, hwsyncTx, -, -, -, -, hreq, hrxn, htxn, -, -, hgateEv, hbusyEv⟩ := h
  rw [State.evCrossings, if_neg hack, if_neg hack, publish_of_eq _ hwpubRx, publish_of_eq _ hrpubTx,
    syncShift_of_settled hrsyncRx, syncShift_of_settled hwsyncTx, syncShift_of_settled hreq, syncShift_of_settled hrxn,
    syncShift_of_settled htxn, ← hgateEv, ← hbusyEv]

end

/-! ## The edges of a quiescent state -/

theorem quiescent_iff (s : State) :
    s.quiescent = true ↔
      s.faultPre = false ∧ s.refused = false ∧ s.hostFinished = true ∧ s.fg.state = .idle ∧ s.ev.state = .idle ∧
        s.launchEn = false ∧ s.devEvent = none ∧ s.crossingsSettled = true := by
  simp only [State.quiescent, Bool.and_eq_true, Bool.not_eq_true', decide_eq_true_eq, and_assoc]

theorem hostFinished_iff (s : State) :
    s.hostFinished = true ↔ s.port.valid = false ∧ ∀ m ∈ s.sched, m.presents = false := by
  simp [State.hostFinished]

section
variable {s : State} (h : s.quiescent = true)
include h

theorem fgEdge_none_of_quiescent (copy : LineState) : s.fgEdge none copy = .next s := by
  obtain ⟨-, -, hhost, hidle, -, -, -, hsettled⟩ := (quiescent_iff s).mp h
  obtain ⟨hport, -⟩ := (hostFinished_iff s).mp hhost
  have hkeeps : s.takesCommand = false := by rw [State.takesCommand, hport, Bool.false_and]
  have hedge : s.fgEdge none copy = .next (State.fgCrossings copy s s.fgContinue) := fgEdge_of_not_taken hkeeps
  rw [hedge, fgContinue_of_idle hidle, fgCrossings_of_settled hsettled]

theorem evEdge_of_quiescent (answer : List Byte) : s.evEdge answer = s := by
  obtain ⟨-, -, -, -, hidle, hlaunch, hnone, hsettled⟩ := (quiescent_iff s).mp h
  have hstill : s.evIdle = s := by simp only [State.evIdle, hlaunch, hnone, Bool.false_eq_true, if_false]
  rw [evEdge_of_idle answer hidle, hstill, evCrossings_of_settled hsettled]

/-- Using a move up leaves fewer moves that could present a command. -/
theorem quiescent_moveTaken : s.moveTaken.quiescent = true := by
  obtain ⟨hfault, hrefused, hhost, hrest⟩ := (quiescent_iff s).mp h
  obtain ⟨hport, hsched⟩ := (hostFinished_iff s).mp hhost
  exact (quiescent_iff _).mpr ⟨hfault, hrefused,
    (hostFinished_iff _).mpr ⟨hport, fun m hm => hsched m (List.mem_of_mem_tail hm)⟩, hrest⟩

/-- No move lined up presents a command. -/
theorem present_of_quiescent {present : Option HostCmd} {copy : LineState}
    (hmem : .fgEdge present copy ∈ s.sched) : present = none := by
  obtain ⟨-, -, hhost, -⟩ := (quiescent_iff s).mp h
  obtain ⟨-, hsched⟩ := (hostFinished_iff s).mp hhost
  exact Option.isNone_iff_eq_none.mp (Option.isSome_eq_false_iff.mp (hsched _ hmem))

end

/-- An edge lined up in a quiescent state uses itself up and changes nothing else. -/
theorem step_of_quiescent {s : State} (h : s.quiescent = true) {m : Move} {rest : List Move}
    (hsched : s.sched = m :: rest) (hedge : m.isFgEdge = true ∨ m.isEvEdge = true) : step s = .next s.moveTaken := by
  obtain ⟨hfault, hrefused, -⟩ := (quiescent_iff s).mp h
  have htaken := quiescent_moveTaken h
  rw [step_eq_runMove hrefused hfault, nextMove_of_sched hsched]
  cases m with
  | fgEdge present copy =>
    obtain rfl : present = none := present_of_quiescent h (hsched ▸ List.mem_cons_self)
    exact fgEdge_none_of_quiescent htaken copy
  | evEdge answer => exact congrArg Host.Outcome.next (evEdge_of_quiescent htaken answer)
  | devStep signals event => exact absurd hedge (by simp [Move.isFgEdge, Move.isEvEdge])

/-- Settles O60: an idle sequencer without a command, a launch or an event does nothing, and settled crossings load what
they hold. -/
theorem quiescentStateIsStill : Obligations.QuiescentStateIsStill := by
  unfold Obligations.QuiescentStateIsStill
  intro s h
  obtain ⟨hfault, hrefused, -⟩ := (quiescent_iff s).mp h
  exact ⟨fgEdge_none_of_quiescent h, evEdge_of_quiescent h, fun m rest => step_of_quiescent h, hfault, hrefused,
    fun present copy hnext => present_of_quiescent h (List.mem_of_head? hnext)⟩

end Sys2Proof.Machine
end

section
/-! The answers of commands taken right after reset (70_reset_and_hazards.md R272), for all legal parameters: the general
meaning of each command at the state in which every view is 0 and the gate is closed. -/

namespace Sys2Proof.Machine

/-! ## Commands on an empty view -/

/-- READB on an empty view answers 0 with no byte and leaves the read pointer (42_receive.md R154). -/
theorem exec_readb_of_emptyView {s : State} (hlegal : s.cfg.legal = true) (hfit : s.Fits .rx (s.rptr .rx))
    (hempty : s.consView .rx = 0) (hrest : s.fg.state = .idle → s.fg.resume = false) (size : Count) :
    exec (.readb size) s = .next { s with out := s.out ++ [.rsp 0 []] } := by
  have hstay : s.skipRx 0 = s := by rw [State.skipRx, ptrAdd_zero hfit]; rfl
  rw [exec_readb_of_view hlegal (hempty ▸ Nat.zero_le _), hempty, Nat.min_zero, hstay]
  exact next_finishTaken hrest 0 []

/-! ## The state after reset -/

/-- Command `i`, taken right after reset, answers `w` and changes nothing else. -/
def AnswersAtReset (p : Params) (dev : DevSignals) (i : Instr) (w : Word) : Prop :=
  exec i (State.resetWith p dev) = .next { State.resetWith p dev with out := [.rsp w []] }

/-- The FG sequencer is in IDLE with no preempting write (10_state.md R42). -/
theorem resetWith_rest (p : Params) (dev : DevSignals) :
    (State.resetWith p dev).fg.state = .idle → (State.resetWith p dev).fg.resume = false := fun _ => rfl

section
variable (p : Params) (dev : DevSignals)

theorem answersAtReset_connected : AnswersAtReset p dev .connected 0 :=
  (connectedAndBaudAnswerTheShadow _ (resetWith_rest p dev)).1

theorem answersAtReset_baud : AnswersAtReset p dev .baud 0 :=
  (connectedAndBaudAnswerTheShadow _ (resetWith_rest p dev)).2

theorem answersAtReset_linefmt : AnswersAtReset p dev .linefmt 0 :=
  next_finishTaken (resetWith_rest p dev) (lineWord LineState.zero) []

/-- Of CTRL and STATUS only CTRL.BOO is set (10_state.md R42). -/
theorem answersAtReset_getctrl : AnswersAtReset p dev .getctrl 1 :=
  next_finishTaken (resetWith_rest p dev) (ctrlWord FgDomain.reset.status FgDomain.reset.ctrl) []

/-- The gate is closed whatever the DEV signals are: no edge has sampled them yet. -/
theorem answersAtReset_write1 (ctx : Bool) (data : Byte) : AnswersAtReset p dev (.write1 ctx data) 0 :=
  ((writesTurnedAwayAnswerZero ctx data 0 [] _ (resetWith_rest p dev)).1 rfl).1

theorem answersAtReset_writeb (ctx : Bool) (size : Count) (source : List Byte) :
    AnswersAtReset p dev (.writeb ctx size source) 0 :=
  ((writesTurnedAwayAnswerZero ctx 0 size source _ (resetWith_rest p dev)).1 rfl).2

variable {p} (hlegal : p.legal = true)
include hlegal

theorem answersAtReset_avail : AnswersAtReset p dev .avail 0 := by
  have h := (occupancyQueriesAnswerTheViews _ (resetWith_rest p dev)).1
  rwa [(resetWith_views hlegal dev .rx).2.1] at h

/-- The whole TX ring is free. -/
theorem answersAtReset_availw : AnswersAtReset p dev .availw (BitVec.ofNat 32 p.capTx) := by
  have h := (occupancyQueriesAnswerTheViews _ (resetWith_rest p dev)).2
  rwa [(resetWith_views hlegal dev .tx).1] at h

theorem answersAtReset_done : AnswersAtReset p dev .done 1 := by
  have hidle : (State.resetWith p dev).prodView .tx = 0 ∧ (State.resetWith p dev).fg.busy.s2 = false :=
    ⟨(resetWith_views hlegal dev .tx).1, rfl⟩
  have h := doneAnswersWhetherTxIsIdle _ (resetWith_rest p dev)
  rwa [if_pos hidle] at h

theorem answersAtReset_peek : AnswersAtReset p dev .peek 0xFFFFFFFF :=
  (peekAnswersNextByteOrNoData _ (resetWith_rest p dev)).1 (resetWith_views hlegal dev .rx).2.1

theorem answersAtReset_read : AnswersAtReset p dev .read 0xFFFFFFFF :=
  (readPopsOneByte _ hlegal (resetWith_rest p dev)).1 (resetWith_views hlegal dev .rx).2.1

theorem answersAtReset_readb (size : Count) : AnswersAtReset p dev (.readb size) 0 :=
  exec_readb_of_emptyView hlegal (fits_rptr (resetWith_fifoInv hlegal dev .rx)) (resetWith_views hlegal dev .rx).2.1
    (resetWith_rest p dev) size

end

/-! ## The vector T-RST -/

/-- Settles O44: the default parameters are legal, and their TX ring holds 64 bytes. -/
theorem answersRightAfterReset : Obligations.AnswersRightAfterReset := by
  unfold Obligations.AnswersRightAfterReset
  have hlegal : Params.default.legal = true := by decide
  exact ⟨answersAtReset_avail _ hlegal, answersAtReset_availw _ hlegal, answersAtReset_done _ hlegal,
    answersAtReset_peek _ hlegal, answersAtReset_read _ hlegal, answersAtReset_readb _ hlegal 16,
    answersAtReset_connected .., answersAtReset_baud .., answersAtReset_linefmt .., answersAtReset_getctrl ..,
    answersAtReset_write1 .., answersAtReset_writeb ..⟩

end Sys2Proof.Machine
end
